-- ==== Sys2Proof/Word.lean ====
section
/-! DEFINITION. The two word types of the CORE: the byte (00_scope.md R6) and the 16-bit checksum word (40_checksum.md R100). -/

namespace Sys2Proof

/-- A byte: 8 bits, 0 to 255 (R6). -/
abbrev Byte := BitVec 8

/-- A 16-bit word: the CRC register and the two checksums (R13, R22). -/
abbrev Word16 := BitVec 16

end Sys2Proof
end

