-- ==== Sys2Proof/Config.lean ====
section
/-! DEFINITION. The parameters of the CORE (00_scope.md R5) and the free values the spec leaves open (93_implementation_defined.md U1, U3; R141). -/

namespace Sys2Proof.Config

/-- The parameters that an implementation may set or that the spec leaves OPEN (R5). They stand in the state so that
every statement holds for every value of them; no operation writes them (R10, R30; log entry 11). -/
structure Params where
  /-- `TIMEOUT_MS`, the receive time budget in milliseconds. -/
  timeoutMs : Nat
  /-- `RX_CAP`, the capacity of the receive buffer in bytes, at least 5 (D34). -/
  rxCap : Nat
  /-- `OPC_GET_VALUES`, the command opcode of "get values" (OPEN, D4). -/
  opcGetValues : Byte
  deriving DecidableEq, Repr

/-- The defaults of R5: 100 ms, 256 bytes, opcode 0x04. -/
def defaultParams : Params := { timeoutMs := 100, rxCap := 256, opcGetValues := 0x04 }

/-- `CRC_POLY`: x^16 + x^12 + x^5 + 1, top bit implicit (R5, R100). -/
def crcPoly : Word16 := 0x1021

/-- `CRC_INIT` (R5, R100). `CRC_XOROUT` is 0, so there is no final exclusive-or to write (D5). -/
def crcInit : Word16 := 0x0000

/-- `MARK_SHORT`: start marker of a frame with a 1-byte length (R5). -/
def markShort : Byte := 0x02

/-- `MARK_LONG`: start marker of a frame with a 2-byte length (R5). -/
def markLong : Byte := 0x03

/-- `TERM`: the terminator byte (R5, R73). -/
def term : Byte := 0x03

/-- `SHORT_MAX`: largest payload length carried by a short frame (R5, conflict C1). -/
def shortMax : Nat := 255

/-- `ENC_MAX`: largest payload length the encoder accepts (R5, R115). -/
def encMax : Nat := 65535

/-- `GV_MIN_LEN`: bytes of payload the get-values schedule consumes, opcode included (R5, R79). -/
def gvMinLen : Nat := 59

/-- FREE VALUE (R51, U3; log entry 6): what `Transport.write` answers when the script gives no answer, by draw number. -/
opaque freeWritten : Nat → Nat

/-- FREE VALUE (R141; log entry 14): the byte at an index of VALIDATE.X's frame that its sequence does not have, by draw number and index. -/
opaque freeFrameByte : Nat → Nat → Byte

/-- FREE VALUE (R12, U1; log entry 7): the raw bits a host's read of an UNWRITTEN telemetry register draws, by draw
number and register. -/
opaque freeTelemetry : Nat → Fin 18 → BitVec 32

end Sys2Proof.Config
end

