-- ==== Sys2Proof/Machine/Bytes.lean ====
section
/-! DEFINITION. Byte order and sign: big-endian assembly and splitting (20_memory.md R43) and two's complement (44_field_reader.md R150). -/

namespace Sys2Proof

/-- A natural number as one byte, modulo 256. -/
def byteOf (n : Nat) : Byte := BitVec.ofNat 8 n

/-- The high byte `v[15:8]` of a 16-bit value (R43). -/
def hiByte (v : Word16) : Byte := (v >>> 8).setWidth 8

/-- The low byte `v[7:0]` of a 16-bit value (R43). -/
def loByte (v : Word16) : Byte := v.setWidth 8

/-- The 16-bit value of a high and a low byte (R43). -/
def word16Of (hi lo : Byte) : Word16 := hi ++ lo

/-- The unsigned big-endian value of a byte sequence: `be16` on two bytes, `be32` on four (R43). -/
def beNat (bs : List Byte) : Nat := bs.foldl (fun acc b => acc * 256 + b.toNat) 0

/-- Four bytes holding `n` modulo 2^32, most significant first (R41). -/
def be32Bytes (n : Nat) : List Byte :=
  [byteOf (n / 16777216), byteOf (n / 65536), byteOf (n / 256), byteOf n]

/-- `sext_N(v)`: the N-bit pattern `v` read in two's complement (R6, R150). -/
def sext (bits v : Nat) : Int := if v < 2 ^ (bits - 1) then (v : Int) else (v : Int) - 2 ^ bits

end Sys2Proof
end

