-- ==== Sys2Proof/Machine/Crc.lean ====
section
/-! DEFINITION. The CRC16 function (40_checksum.md R100 to R104), pure: used by CRC.BYTE, CRC16, the encoder and the validator. -/

namespace Sys2Proof

/-- One of the eight shifts of R102: the bit tested is the bit shifted out. -/
def crcShift (c : Word16) : Word16 :=
  if c.msb then (c <<< 1) ^^^ Config.crcPoly else c <<< 1

/-- `n` shifts in a row. -/
def crcShifts : Nat → Word16 → Word16
  | 0, c => c
  | n + 1, c => crcShifts n (crcShift c)

/-- CRC.BYTE applied to register value `c` with byte `b` (R102): `b` lands in bits 15..8, then eight shifts. -/
def crcByte (c : Word16) (b : Byte) : Word16 :=
  crcShifts 8 (c ^^^ (b.setWidth 16 <<< 8))

/-- CRC16 of a byte sequence (R103). -/
def crc16 (s : List Byte) : Word16 := s.foldl crcByte Config.crcInit

end Sys2Proof
end

