-- ==== Sys2Proof/Machine/Frame.lean ====
section
/-! DEFINITION. The two frame formats as functions of the payload (30_encoding.md R70 to R74, 41_frame_encoder.md R110) and the
reading of a frame back. -/

namespace Sys2Proof

/-- Checksum, high byte first, and terminator (R73). -/
def frameTrailer (p : List Byte) : List Byte := [hiByte (crc16 p), loByte (crc16 p), Config.term]

/-- Format SHORT (R71, R111): marker 2, the length in one byte, payload, trailer. -/
def shortFrame (p : List Byte) : List Byte :=
  [Config.markShort, byteOf p.length] ++ p ++ frameTrailer p

/-- Format LONG (R72, R112): marker 3, the length in two bytes, payload, trailer. -/
def longFrame (p : List Byte) : List Byte :=
  [Config.markLong, byteOf (p.length / 256), byteOf p.length] ++ p ++ frameTrailer p

/-- `Frame(s)` (R110): short up to 255 payload bytes, long above. -/
def frameOf (p : List Byte) : List Byte :=
  if p.length ≤ Config.shortMax then shortFrame p else longFrame p

/-- The body of a frame after its header: `n` payload bytes, then exactly the trailer those bytes demand (R73, R74: the end is
found by counting, never by searching for the terminator). -/
def takeBody (n : Nat) (bs : List Byte) : Option (List Byte × List Byte) :=
  let p := bs.take n
  let t := bs.drop n
  if p.length = n ∧ t.take 3 = frameTrailer p then some (p, t.drop 3) else none

end Sys2Proof
end

