-- ==== Sys2Proof/Syntax.lean ====
section
/-! DEFINITION. The operations of the CORE: one constructor per row of spec/opcode_table.json (30_encoding.md R84). -/

namespace Sys2Proof

/-- The four formats of the opcode table (R84): what an operation is matched on. -/
inductive Format where
  /-- Command port: the 8-bit operation-select code (R80). -/
  | cmd
  /-- Frame on the wire: the marker byte (R71, R72). -/
  | frame
  /-- Payload: the command opcode (R76). -/
  | payload
  /-- Get-values schedule: the step index (R79). -/
  | gvStep
  deriving DecidableEq, Repr

/-- One constructor per row of the opcode table, in the table's order. -/
inductive Instr where
  | bind
  | refresh
  | crcClr
  | crcByte (b : Byte)
  | crc16 (s : List Byte)
  | encode (s : List Byte)
  | rxStart
  | rxPoll
  | rxRun
  | rxByte
  | validate
  | validateX (f : List Byte) (n : Nat)
  | rdS16q (scale : Nat)
  | rdS32q (scale : Nat)
  | rdS32
  | rdU8
  | curSet (k : Nat)
  | decode
  | encShort (s : List Byte)
  | encLong (s : List Byte)
  | getValues
  | gvTemperatureFet
  | gvTemperatureMotor
  | gvAvgMotorCurrent
  | gvAvgInputCurrent
  | gvAvgId
  | gvAvgIq
  | gvDuty
  | gvErpm
  | gvBatteryVoltage
  | gvAmpHoursUsed
  | gvAmpHoursCharged
  | gvWattHoursUsed
  | gvWattHoursCharged
  | gvTachometer
  | gvTachometerAbs
  | gvFaultCode
  | gvPidPosition
  | gvControllerId
  deriving DecidableEq, Repr

end Sys2Proof
end

