-- ==== Sys2Proof/WellFormed.lean ====
section
/-! DEFINITION. Which operand values the spec gives each operation (30_encoding.md R80, R81 and the operation's own rule). -/

namespace Sys2Proof

/-- The operand domain of each operation. An operation outside it may still be issued: its meaning then refuses or runs as
its rule says. The bound 2^32 on a divisor and on a frame length is the port's layout (log entry 2), not the spec's. -/
def Instr.wellFormed : Instr → Bool
  | .bind => true
  | .refresh => true
  | .crcClr => true
  | .crcByte _ => true
  | .crc16 s => decide (s.length ≤ 65535)                                     -- R103
  | .encode s => decide (s.length ≤ Config.encMax)                            -- R115
  | .rxStart => true
  | .rxPoll => true
  | .rxRun => true
  | .rxByte => true
  | .validate => true
  | .validateX f n => decide (f.length = n) && decide (n < 2 ^ 32)            -- R141
  | .rdS16q scale => decide (1 ≤ scale) && decide (scale < 2 ^ 32)            -- R151
  | .rdS32q scale => decide (1 ≤ scale) && decide (scale < 2 ^ 32)            -- R152
  | .rdS32 => true
  | .rdU8 => true
  | .curSet k => decide (k ≤ 255)                                             -- R157, R21
  | .decode => true
  | .encShort s => decide (s.length ≤ Config.shortMax)                        -- R111
  | .encLong s => decide (Config.shortMax < s.length) && decide (s.length ≤ Config.encMax)   -- R112
  | .getValues => true
  | .gvTemperatureFet => true
  | .gvTemperatureMotor => true
  | .gvAvgMotorCurrent => true
  | .gvAvgInputCurrent => true
  | .gvAvgId => true
  | .gvAvgIq => true
  | .gvDuty => true
  | .gvErpm => true
  | .gvBatteryVoltage => true
  | .gvAmpHoursUsed => true
  | .gvAmpHoursCharged => true
  | .gvWattHoursUsed => true
  | .gvWattHoursCharged => true
  | .gvTachometer => true
  | .gvTachometerAbs => true
  | .gvFaultCode => true
  | .gvPidPosition => true
  | .gvControllerId => true

end Sys2Proof
end

