-- ==== Sys2Proof/Decode.lean ====
section
/-! DEFINITION. Decoding and encoding of the four formats of the opcode table (30_encoding.md R70 to R84). The code, marker, opcode
and 5-bit step index are the spec's; that a step index is laid in one whole byte is the model's choice (log entry 3), and so is the
layout of operands after a command code (R80 leaves it open; log entry 2): a byte operand is one byte, a natural number four bytes
big-endian, a byte sequence its length in four bytes then the bytes. -/

namespace Sys2Proof

/-- Why bytes are no operation. -/
inductive DecodeError where
  /-- The code is unassigned (R82, R200). -/
  | badCommand (code : Byte)
  /-- The operand bytes of an assigned code are not all there (log entry 21). -/
  | truncated
  /-- Bytes in a format other than the command port's match no row of that format (log entry 3). -/
  | noSuchRow
  deriving DecidableEq, Repr

/-- A natural-number operand: four bytes, big-endian. -/
def takeNat32 : List Byte → Option (Nat × List Byte)
  | a :: b :: c :: d :: rest => some (beNat [a, b, c, d], rest)
  | _ => none

/-- A byte-sequence operand: its length as a natural-number operand, then that many bytes. -/
def takeSeq (bs : List Byte) : Option (List Byte × List Byte) :=
  match takeNat32 bs with
  | none => none
  | some (n, rest) => if (rest.take n).length = n then some (rest.take n, rest.drop n) else none

/-- An operation with no operand. -/
def plainOp (i : Instr) (rest : List Byte) : Except DecodeError (Instr × List Byte) := .ok (i, rest)

/-- An operation with one natural-number operand. -/
def natOp (mk : Nat → Instr) (rest : List Byte) : Except DecodeError (Instr × List Byte) :=
  match takeNat32 rest with
  | some (n, rest') => .ok (mk n, rest')
  | none => .error .truncated

/-- An operation with one byte-sequence operand. -/
def seqOp (mk : List Byte → Instr) (rest : List Byte) : Except DecodeError (Instr × List Byte) :=
  match takeSeq rest with
  | some (s, rest') => .ok (mk s, rest')
  | none => .error .truncated

/-- An operation with one byte operand. -/
def byteOp (mk : Byte → Instr) : List Byte → Except DecodeError (Instr × List Byte)
  | b :: rest => .ok (mk b, rest)
  | [] => .error .truncated

/-- VALIDATE.X: the length operand `n`, then the byte sequence `f`. -/
def validateXOp (rest : List Byte) : Except DecodeError (Instr × List Byte) :=
  match takeNat32 rest with
  | none => .error .truncated
  | some (n, rest') => seqOp (fun f => .validateX f n) rest'

/-- The command port (R80): the operation-select code, then the operands. Every other code is unassigned (R82). -/
def decodeCmd : List Byte → Except DecodeError (Instr × List Byte)
  | [] => .error .truncated
  | code :: rest =>
    match code.toNat with
    | 0x01 => plainOp .bind rest
    | 0x02 => plainOp .refresh rest
    | 0x10 => plainOp .crcClr rest
    | 0x11 => byteOp .crcByte rest
    | 0x12 => seqOp .crc16 rest
    | 0x20 => seqOp .encode rest
    | 0x30 => plainOp .rxStart rest
    | 0x31 => plainOp .rxPoll rest
    | 0x32 => plainOp .rxRun rest
    | 0x33 => plainOp .rxByte rest
    | 0x40 => plainOp .validate rest
    | 0x41 => validateXOp rest
    | 0x50 => natOp .rdS16q rest
    | 0x51 => natOp .rdS32q rest
    | 0x52 => plainOp .rdS32 rest
    | 0x53 => plainOp .rdU8 rest
    | 0x54 => natOp .curSet rest
    | 0x60 => plainOp .decode rest
    | _ => .error (.badCommand code)

/-- The frame formats (R71, R72, R84): the marker selects the arm, the length field gives the payload's extent, and checksum and
terminator must be the payload's. A long frame of at most 255 payload bytes is one that no block produces (R82). -/
def decodeFrame : List Byte → Except DecodeError (Instr × List Byte)
  | m :: l :: rest =>
    if m = Config.markShort then
      match takeBody l.toNat rest with
      | some (p, rest') => .ok (.encShort p, rest')
      | none => .error .noSuchRow
    else if m = Config.markLong then
      match rest with
      | l' :: rest' =>
        if beNat [l, l'] ≤ Config.shortMax then .error .noSuchRow
        else match takeBody (beNat [l, l']) rest' with
          | some (p, rest'') => .ok (.encLong p, rest'')
          | none => .error .noSuchRow
      | [] => .error .noSuchRow
    else .error .noSuchRow
  | _ => .error .noSuchRow

/-- The payload format (R76, R84): byte 0 is the command opcode, and one opcode has a schema. -/
def decodePayload (opc : Byte) : List Byte → Except DecodeError (Instr × List Byte)
  | b :: rest => if b = opc then .ok (.getValues, rest) else .error .noSuchRow
  | [] => .error .noSuchRow

/-- The get-values schedule (R79, R84): the row of a step index. -/
def gvInstr : Nat → Option Instr
  | 0 => some .gvTemperatureFet
  | 1 => some .gvTemperatureMotor
  | 2 => some .gvAvgMotorCurrent
  | 3 => some .gvAvgInputCurrent
  | 4 => some .gvAvgId
  | 5 => some .gvAvgIq
  | 6 => some .gvDuty
  | 7 => some .gvErpm
  | 8 => some .gvBatteryVoltage
  | 9 => some .gvAmpHoursUsed
  | 10 => some .gvAmpHoursCharged
  | 11 => some .gvWattHoursUsed
  | 12 => some .gvWattHoursCharged
  | 13 => some .gvTachometer
  | 14 => some .gvTachometerAbs
  | 15 => some .gvFaultCode
  | 16 => some .gvPidPosition
  | 17 => some .gvControllerId
  | _ => none

/-- A schedule step. The 5-bit step index (mask 0x1F) is the spec's (R84). DESIGN CHOICE (log entry 3): it is laid in one byte, and a
byte with any of its three upper bits set is refused as no row, not matched under the mask. -/
def decodeGv : List Byte → Except DecodeError (Instr × List Byte)
  | b :: rest =>
    match gvInstr b.toNat with
    | some i => .ok (i, rest)
    | none => .error .noSuchRow
  | [] => .error .noSuchRow

/-- Decoding of any bytes in a format: the operation and the bytes after it, or why there is none. -/
def decode (opc : Byte) : Format → List Byte → Except DecodeError (Instr × List Byte)
  | .cmd, bs => decodeCmd bs
  | .frame, bs => decodeFrame bs
  | .payload, bs => decodePayload opc bs
  | .gvStep, bs => decodeGv bs

/-- The format of an operation's row (R84). -/
def Instr.format : Instr → Format
  | .bind => .cmd
  | .refresh => .cmd
  | .crcClr => .cmd
  | .crcByte _ => .cmd
  | .crc16 _ => .cmd
  | .encode _ => .cmd
  | .rxStart => .cmd
  | .rxPoll => .cmd
  | .rxRun => .cmd
  | .rxByte => .cmd
  | .validate => .cmd
  | .validateX _ _ => .cmd
  | .rdS16q _ => .cmd
  | .rdS32q _ => .cmd
  | .rdS32 => .cmd
  | .rdU8 => .cmd
  | .curSet _ => .cmd
  | .decode => .cmd
  | .encShort _ => .frame
  | .encLong _ => .frame
  | .getValues => .payload
  | .gvTemperatureFet => .gvStep
  | .gvTemperatureMotor => .gvStep
  | .gvAvgMotorCurrent => .gvStep
  | .gvAvgInputCurrent => .gvStep
  | .gvAvgId => .gvStep
  | .gvAvgIq => .gvStep
  | .gvDuty => .gvStep
  | .gvErpm => .gvStep
  | .gvBatteryVoltage => .gvStep
  | .gvAmpHoursUsed => .gvStep
  | .gvAmpHoursCharged => .gvStep
  | .gvWattHoursUsed => .gvStep
  | .gvWattHoursCharged => .gvStep
  | .gvTachometer => .gvStep
  | .gvTachometerAbs => .gvStep
  | .gvFaultCode => .gvStep
  | .gvPidPosition => .gvStep
  | .gvControllerId => .gvStep

/-- A byte sequence as an operand. -/
def seqBytes (s : List Byte) : List Byte := be32Bytes s.length ++ s

/-- The bytes of an operation in its own format (R71, R72, R76, R79, R80). -/
def encode (opc : Byte) : Instr → List Byte
  | .bind => [0x01]
  | .refresh => [0x02]
  | .crcClr => [0x10]
  | .crcByte b => [0x11, b]
  | .crc16 s => 0x12 :: seqBytes s
  | .encode s => 0x20 :: seqBytes s
  | .rxStart => [0x30]
  | .rxPoll => [0x31]
  | .rxRun => [0x32]
  | .rxByte => [0x33]
  | .validate => [0x40]
  | .validateX f n => 0x41 :: (be32Bytes n ++ seqBytes f)
  | .rdS16q scale => 0x50 :: be32Bytes scale
  | .rdS32q scale => 0x51 :: be32Bytes scale
  | .rdS32 => [0x52]
  | .rdU8 => [0x53]
  | .curSet k => 0x54 :: be32Bytes k
  | .decode => [0x60]
  | .encShort s => shortFrame s
  | .encLong s => longFrame s
  | .getValues => [opc]
  | .gvTemperatureFet => [0]
  | .gvTemperatureMotor => [1]
  | .gvAvgMotorCurrent => [2]
  | .gvAvgInputCurrent => [3]
  | .gvAvgId => [4]
  | .gvAvgIq => [5]
  | .gvDuty => [6]
  | .gvErpm => [7]
  | .gvBatteryVoltage => [8]
  | .gvAmpHoursUsed => [9]
  | .gvAmpHoursCharged => [10]
  | .gvWattHoursUsed => [11]
  | .gvWattHoursCharged => [12]
  | .gvTachometer => [13]
  | .gvTachometerAbs => [14]
  | .gvFaultCode => [15]
  | .gvPidPosition => [16]
  | .gvControllerId => [17]

/-- The `n` lowest bytes of `w`, least significant first: the first byte of a table word is its bits 7..0. -/
def lowBytes : Nat → Nat → List Byte
  | 0, _ => []
  | n + 1, w => byteOf w :: lowBytes n (w / 256)

/-- A table word as the hardware stores it, then zero bytes up to the longest operand area of fixed length (VALIDATE.X: 8 bytes). -/
def tableBytes (nbits w : Nat) : List Byte := lowBytes ((nbits + 7) / 8) w ++ List.replicate 8 0

/-- The first format of `formats` in which `bs` decodes, with its operation. -/
def firstRow (opc : Byte) (bs : List Byte) : List Format → Option (Format × Instr)
  | [] => none
  | f :: fs =>
    match decode opc f bs with
    | .ok (i, _) => some (f, i)
    | .error _ => firstRow opc bs fs

/-- The formats a table word can stand in: only a schedule row has fewer than 8 bits (R81, R84). -/
def tableFormats (nbits : Nat) : List Format := if nbits < 8 then [.gvStep] else [.cmd, .frame, .payload, .gvStep]

/-- The row of a table word. The table's four formats number their patterns independently (R84), so an 8-bit pattern may stand in
more than one format; the formats are tried in the table's order (log entry 4). -/
def tableRow (opc : Byte) (nbits w : Nat) : Option (Format × Instr) :=
  firstRow opc (tableBytes nbits w) (tableFormats nbits)

/-- The operation the decoder reads from a table word, with the default parameters (R5). -/
def decodeTableWord (nbits w : Nat) : Option Instr :=
  (tableRow Config.defaultParams.opcGetValues nbits w).map Prod.snd

end Sys2Proof
end

