-- ==== Sys2Proof/Machine/State.lean ====
section
/-! DEFINITION. The state of the CORE (10_state.md), of its environment (R32) and the model's own fields; the reasons a step can
stop; the state after reset (R33). -/

namespace Sys2Proof.Machine

/-- A byte-indexed buffer (R31, R40): index and byte, indices strictly rising. A cell that is not listed has unspecified contents
(R16, R21, U2): it reads as no value (log entry 8). -/
abbrev Mem := List Host.Cell

/-- The canonical form of a buffer: indices strictly rising. An unlisted cell reads as no value, so no listed cell can equal it. -/
abbrev Mem.wf (m : Mem) : Prop := m.Pairwise (fun c d => c.1 < d.1)

/-- The states of the receiver (R15). -/
inductive RxState where
  | idle | accumulating | complete | timedOut | overflowed
  deriving DecidableEq, Repr

/-- The states of the sequencer (R25). -/
inductive SeqState where
  | idle | sent | timedOut | received | invalid | decoded
  deriving DecidableEq, Repr

/-- The outcome codes (R186). -/
inductive OutcomeCode where
  | none | decoded | timeout | overflow | checksumMismatch | unsupportedOpcode | unbound | malformed | shortPayload
  deriving DecidableEq, Repr

/-- A value the field reader returns and a telemetry register holds, by kind (R12, R151 to R154). -/
inductive FieldValue where
  /-- A scaled value: the exact rational raw / scale (R9, R158). -/
  | scaled (q : Rat)
  /-- A raw signed 32-bit integer. -/
  | integer (v : Int)
  /-- A raw byte. -/
  | byte (b : Byte)
  deriving DecidableEq, Repr

/-- A telemetry register or a staged value (R12, R24). UNWRITTEN is the spec's own state of a register: unspecified until the first
DECODED outcome (R12, R33; log entry 7). -/
inductive TReg where
  | unwritten
  | value (v : FieldValue)
  deriving DecidableEq, Repr

/-- The receiver's registers (R15 to R20). -/
structure Rx where
  /-- `rx_state` -/
  state : RxState
  /-- `rx_buf` -/
  buf : Mem
  /-- `rx_cnt` -/
  cnt : Nat
  /-- `rx_exp`; `none` is the spec's NONE -/
  exp : Option Nat
  /-- `rx_len` -/
  len : Nat
  /-- `rx_deadline`, in milliseconds -/
  deadline : Nat
  deriving DecidableEq, Repr

/-- The validator's registers (R21, R22). -/
structure Val where
  /-- `pay_buf` -/
  buf : Mem
  /-- `pay_len` -/
  len : Nat
  /-- `crc_rx` -/
  crcRx : Word16
  /-- `crc_calc` -/
  crcCalc : Word16
  /-- `val_ok` -/
  ok : Bool
  deriving DecidableEq, Repr

/-- What may happen outside the CORE at an interleaving point: the environment's two steps (R55) and a reset (R210). -/
inductive Outside where
  /-- ENV.PUSH(b): a byte arrives. -/
  | push (b : Byte)
  /-- ENV.TICK(d): `d` milliseconds pass. -/
  | tick (d : Nat)
  /-- Reset: the CORE is constructed anew, also in the middle of an operation. -/
  | reset
  deriving DecidableEq, Repr

/-- The environment (R32) and the model's script of what it will do. -/
structure Env where
  /-- `env.rx_fifo`, oldest byte first -/
  rxFifo : List Byte
  /-- `env.now`, in milliseconds -/
  now : Nat
  /-- `env.tx_log`, oldest write first -/
  txLog : List (List Byte)
  /-- The model's own: what happens outside, one batch per interleaving point of R57; after the last batch nothing happens (log entry 5). -/
  script : List (List Outside)
  /-- The model's own: scripted answers of `Transport.write` (log entry 6). -/
  replies : List Nat
  /-- The model's own: how many times a free value was drawn: an answer of `Transport.write` (log entry 6), a frame's missing bytes (log entry 14). -/
  draws : Nat
  deriving DecidableEq, Repr

/-- What the last completed operation returned (the result column of R80). The model's own register (log entry 16). -/
inductive Result where
  /-- The operation returns nothing. -/
  | none
  /-- CRC16: the 16-bit checksum. -/
  | checksum (c : Word16)
  /-- ENCODE and its arms: the byte count. -/
  | count (n : Nat)
  /-- RX.RUN: the reported length (R128). -/
  | length (n : Nat)
  /-- VALIDATE, VALIDATE.X: the success bit set. -/
  | success
  /-- VALIDATE, VALIDATE.X: the success bit clear, and the failure's code (R141). -/
  | failure (code : OutcomeCode)
  /-- RD.S16Q, RD.S32Q, RD.S32, RD.U8: the value read. -/
  | field (v : FieldValue)
  /-- DECODE: the outcome code (R160). -/
  | outcome (code : OutcomeCode)
  /-- REFRESH: the telemetry record by value (R171). -/
  | record (connected : Bool) (t : Vector TReg 18)
  deriving DecidableEq, Repr

/-- The machine: CORE, environment, parameters and the model's own fields (INVENTORY.md, State). -/
structure State where
  /-- The parameters (R5); nothing writes them. -/
  params : Config.Params
  /-- `connected` (R11) -/
  connected : Bool
  /-- `T[0..17]` (R12) -/
  T : Vector TReg 18
  /-- `crc` (R13) -/
  crc : Word16
  /-- `tx_count` (R14) -/
  txCount : Nat
  /-- the receiver (R15 to R20) -/
  rx : Rx
  /-- the validator (R21, R22) -/
  val : Val
  /-- `cur` (R23) -/
  cur : Nat
  /-- `dec_step` (R24) -/
  decStep : Nat
  /-- `stage[0..17]` (R24) -/
  stage : Vector TReg 18
  /-- `seq_state` (R25) -/
  seqState : SeqState
  /-- `outcome` (R26) -/
  outcome : OutcomeCode
  /-- `bound` (R27) -/
  bound : Bool
  /-- the environment (R32) -/
  env : Env
  /-- The model's own: bytes the host has presented and the CORE has not taken, oldest first (log entry 1). -/
  port : List Byte
  /-- The model's own: the format the next bytes of `port` are read in (log entry 3). -/
  sel : Format
  /-- The model's own: what the last operation returned (log entry 16). -/
  result : Result
  deriving DecidableEq, Repr

/-- Why the machine stops with a fault. The CORE has no fault state of its own (R185). -/
inductive Fault where
  /-- RX.RUN or REFRESH does not end: the script of the outside world is used up, nothing is available, and the clock stands below the
  deadline (R127, R185 (4), R228, U15 "stuck"). Raised by RX.RUN and REFRESH. Safe: the machine has no next state (log entry 5). -/
  | neverEnds
  /-- A buffer cell that nothing has written is read: its contents are unspecified (R46, U2). Raised by the field reads, the schedule,
  DECODE and VALIDATE, only in states that no run reaches. Safe (log entry 8). -/
  | unspecifiedByte
  deriving DecidableEq, Repr

/-- Why an operation is refused: no state changes (R200). -/
inductive Refusal where
  /-- An operation the model does not give a meaning. Raised by no arm of this model. Safe. -/
  | notModelled (mnemonic : String)
  /-- An unassigned code on the command port (R82, R200). Raised by step. Safe. -/
  | badCommand
  /-- An operation of the command port issued while `seq_state` is not Idle (R177, R200). Raised by every command. Safe. -/
  | busy
  /-- An operation in a state its precondition excludes (R200). Raised by RX.POLL, RX.BYTE, VALIDATE, DECODE, and by the internal rows
  GET_VALUES and GV.* when the CORE's own data does not select them (log entry 3). Safe. -/
  | badState
  /-- A payload of more than 65535 bytes (R115, R200). Raised by ENCODE and ENC.LONG. Safe. -/
  | lengthTooLarge
  /-- A scaled read with divisor 0 (R155, R200). Raised by RD.S16Q and RD.S32Q. Safe. -/
  | scaleZero
  /-- A read or cursor position past `pay_len` (R155, R157, R200). Raised by RD.S16Q, RD.S32Q, RD.S32, RD.U8, CUR.SET, GV.*. Safe. -/
  | readPastEnd
  /-- ENC.SHORT with more than 255 bytes or ENC.LONG with fewer than 256: not the arm of R111, R112 (log entry 23). Safe. -/
  | wrongArm
  /-- The port holds a command code without all of its operand bytes (log entry 21). Raised by step. Safe. -/
  | truncatedCommand
  /-- Bytes on an internal lane match no row of that format (log entry 3). Raised by step. Safe. -/
  | noSuchRow
  deriving DecidableEq, Repr

/-- The receiver after reset (R33). -/
def Rx.reset : Rx := { state := .idle, buf := [], cnt := 0, exp := .none, len := 0, deadline := 0 }

/-- The validator after reset (R33). -/
def Val.reset : Val := { buf := [], len := 0, crcRx := 0, crcCalc := 0, ok := false }

/-- The environment of `State.reset`: nothing has arrived, nothing was sent, time 0, nothing scripted (log entry 9: reset does not
touch the environment, R210, and the spec gives it no first state). -/
def Env.initial : Env := { rxFifo := [], now := 0, txLog := [], script := [], replies := [], draws := 0 }

/-- The machine after reset (R33), with the default parameters (R5), in the initial environment. -/
def State.reset : State where
  params := Config.defaultParams
  connected := false
  T := Vector.replicate 18 .unwritten
  crc := 0
  txCount := 0
  rx := Rx.reset
  val := Val.reset
  cur := 0
  decStep := 0
  stage := Vector.replicate 18 .unwritten
  seqState := .idle
  outcome := .none
  bound := false
  env := Env.initial
  port := []
  sel := .cmd
  result := .none

end Sys2Proof.Machine
end

