-- ==== Sys2Proof/Machine/Ops.lean ====
section
/-! DEFINITION. The operations every meaning is written over: the result of an operation, buffers, field updates, the outside
world's interleaving points and reset, the transport's calls, how an operation ends, how a REFRESH fails and returns. -/

namespace Sys2Proof.Machine

/-! ### Results of an operation -/

/-- An operation's result: a value, a fault or a refusal. -/
abbrev Res (α : Type) := Host.Outcome α Fault Refusal

/-- Go on with the value, or stop as the first part stopped. -/
def andThen {α β : Type} (x : Res α) (k : α → Res β) : Res β :=
  match x with
  | .next a => k a
  | .fault f => .fault f
  | .refused r => .refused r

/-! ### Buffers (R40, R46) -/

/-- The byte at an index, or no value where nothing was written. -/
def Mem.read : Mem → Nat → Option Byte
  | [], _ => none
  | (a, v) :: m, i => if a = i then some v else Mem.read m i

/-- Store one byte, keeping the indices rising. -/
def Mem.write : Mem → Nat → Byte → Mem
  | [], i, b => [(i, b)]
  | (a, v) :: m, i, b =>
    if i < a then (i, b) :: (a, v) :: m
    else if i = a then (i, b) :: m
    else (a, v) :: Mem.write m i b

/-- `MemRead(buf, i, n)`: the `n` bytes from index `i`, or no value if one of them was never written (R8). -/
def Mem.readBytes (m : Mem) : Nat → Nat → Option (List Byte)
  | _, 0 => some []
  | i, n + 1 =>
    match Mem.read m i, Mem.readBytes m (i + 1) n with
    | some b, some bs => some (b :: bs)
    | _, _ => none

/-- `MemWrite(buf, i, n, s)`: store a byte sequence from index `i` up (R8). -/
def Mem.writeBytes : Mem → Nat → List Byte → Mem
  | m, _, [] => m
  | m, i, b :: bs => Mem.writeBytes (Mem.write m i b) (i + 1) bs

/-! ### Field updates -/

/-- Replace the environment. -/
def State.withEnv (s : State) (e : Env) : State := { s with env := e }

/-- Replace the receiver's registers. -/
def State.withRx (s : State) (r : Rx) : State := { s with rx := r }

/-- Replace the validator's registers. -/
def State.withVal (s : State) (v : Val) : State := { s with val := v }

/-- `seq_state <- q`. -/
def State.withSeq (s : State) (q : SeqState) : State := { s with seqState := q }

/-- `rx_state <- q`. -/
def State.withRxState (s : State) (q : RxState) : State := s.withRx { s.rx with state := q }

/-- Set what the operation returned. -/
def State.withResult (s : State) (r : Result) : State := { s with result := r }

/-- Move the cursor (R23). -/
def State.withCur (s : State) (k : Nat) : State := { s with cur := k }

/-! ### Reset and the outside world (R55, R57, R210) -/

/-- Reset from any state: every element of the CORE takes the value of R33; the environment and the parameters keep theirs (R210),
and so do the bytes the host still means to present. -/
def coreReset (s : State) : State :=
  { State.reset with params := s.params, env := s.env, port := s.port, sel := s.sel }

/-- One move of the outside world (R55, R210). -/
def applyOutside (s : State) : Outside → State
  | .push b => s.withEnv { s.env with rxFifo := s.env.rxFifo ++ [b] }
  | .tick d => s.withEnv { s.env with now := s.env.now + d }
  | .reset => coreReset s

/-- An interleaving point (R57): the next batch of the script happens; an empty script means that nothing happens. -/
def interleave (s : State) : State :=
  match s.env.script with
  | [] => s
  | batch :: rest => batch.foldl applyOutside (s.withEnv { s.env with script := rest })

/-! ### The transport's calls (R50 to R56) -/

/-- `Transport.now()` (R54). -/
def transportNow (s : State) : Nat := s.env.now

/-- `Transport.available()` (R52). -/
def transportAvailable (s : State) : Nat := s.env.rxFifo.length

/-- What `Transport.write` answers for `len` bytes: a number from 0 to `len` (R51), the scripted one or a free value. -/
def writeReply (e : Env) (len : Nat) : Nat :=
  match e.replies with
  | r :: _ => min r len
  | [] => Config.freeWritten e.draws % (len + 1)

/-- `Transport.write(f)` (R51): the whole frame is logged as one entry, whatever count is answered. -/
def writeEnv (e : Env) (f : List Byte) : Env :=
  match e.replies with
  | _ :: rest => { e with txLog := e.txLog ++ [f], replies := rest }
  | [] => { e with txLog := e.txLog ++ [f], draws := e.draws + 1 }

/-- Hand one frame to the transport and keep the answered count, or, unbound, keep 0 and make no call (R56, R113, R114).
The result is the count kept. -/
def transmit (f : List Byte) (s : State) : State :=
  if s.bound then
    { s with env := writeEnv s.env f, txCount := writeReply s.env f.length, result := .count (writeReply s.env f.length) }
  else { s with txCount := 0, result := .count 0 }

/-! ### How an operation begins and ends -/

/-- Operations of the command port are taken only when the sequencer is Idle (R177, R200). -/
def whenIdle (s : State) (k : Res State) : Res State :=
  if s.seqState = .idle then k else .refused .busy

/-- The operation is done and returns `r`. -/
def done (r : Result) (s : State) : Res State := .next (s.withResult r)

/-! ### How a REFRESH fails, succeeds and returns (R195, R196) -/

/-- Return to Idle with the record as result (R171, R196): every path of REFRESH ends here. -/
def returnToIdle (s : State) : State :=
  { s with seqState := .idle, result := .record s.connected s.T }

/-- A failure outcome under REFRESH, the analogue of taking an exception (R195): the flag goes false, the code is recorded, the
sequencer passes through `via`; `T` and the work registers stay as the failing step left them. -/
def failRefresh (via : SeqState) (code : OutcomeCode) (s : State) : State :=
  returnToIdle { s with seqState := via, outcome := code, connected := false }

/-- The DECODED path's end (R172). -/
def succeedRefresh (s : State) : State :=
  returnToIdle { s with seqState := .decoded, outcome := .decoded, connected := true }

end Sys2Proof.Machine
end

