-- ==== Sys2Proof/Machine/Checksum.lean ====
section
/-! DEFINITION. The checksum engine's operations (40_checksum.md). -/

namespace Sys2Proof.Machine

/-- CRC.CLR (R101). -/
def execCrcClr (s : State) : Res State :=
  whenIdle s (done .none { s with crc := Config.crcInit })

/-- CRC.BYTE `b` (R102). -/
def execCrcByte (b : Byte) (s : State) : Res State :=
  whenIdle s (done .none { s with crc := crcByte s.crc b })

/-- CRC16 `p` on the command port (R103): the result stays in `crc` as well. -/
def execCrc16 (p : List Byte) (s : State) : Res State :=
  whenIdle s (done (.checksum (crc16 p)) { s with crc := crc16 p })

end Sys2Proof.Machine
end

