-- ==== Sys2Proof/Machine/Operands.lean ====
section
/-! DEFINITION. The operand forms: fields of the payload (30_encoding.md R78, 44_field_reader.md R150 to R158) and the get-values
schedule's field of each step (R79). -/

namespace Sys2Proof.Machine

/-- The four read operations, with their divisor (R151 to R154). -/
inductive FieldOp where
  | s16q (scale : Nat)
  | s32q (scale : Nat)
  | s32
  | u8
  deriving DecidableEq, Repr

/-- Bytes a read takes (R45). -/
def FieldOp.width : FieldOp → Nat
  | .s16q _ => 2
  | .s32q _ => 4
  | .s32 => 4
  | .u8 => 1

/-- The read is scaled with divisor 0 (R155). -/
def FieldOp.zeroScale : FieldOp → Bool
  | .s16q scale => scale == 0
  | .s32q scale => scale == 0
  | .s32 => false
  | .u8 => false

/-- The value of a read from the bytes it took: signed big-endian, divided exactly by the scale; a raw byte is unsigned (R150 to R154, R158). -/
def FieldOp.value : FieldOp → List Byte → FieldValue
  | .s16q scale, bs => .scaled (mkRat (sext 16 (beNat bs)) scale)
  | .s32q scale, bs => .scaled (mkRat (sext 32 (beNat bs)) scale)
  | .s32, bs => .integer (sext 32 (beNat bs))
  | .u8, bs => .byte (byteOf (beNat bs))

/-- One read at the cursor: the scale test, then the bounds test, then the read; the cursor advances by the field's width (R151 to
R155). A refused read changes nothing. -/
def readField (op : FieldOp) (s : State) : Res (FieldValue × State) :=
  if op.zeroScale then .refused .scaleZero
  else if s.val.len < s.cur + op.width then .refused .readPastEnd
  else
    match Mem.readBytes s.val.buf s.cur op.width with
    | some bs => .next (op.value bs, s.withCur (s.cur + op.width))
    | none => .fault .unspecifiedByte

/-- The schedule's fields in payload order (R79, R162). -/
def gvOps : Vector FieldOp 18 := #v[
  .s16q 10,        -- temperature_fet
  .s16q 10,        -- temperature_motor
  .s32q 100,       -- avg_motor_current
  .s32q 100,       -- avg_input_current
  .s32q 1000,      -- avg_id
  .s32q 1000,      -- avg_iq
  .s16q 1000,      -- duty
  .s32q 1,         -- erpm
  .s16q 10,        -- battery_voltage
  .s32q 10000,     -- amp_hours_used
  .s32q 10000,     -- amp_hours_charged
  .s32q 10000,     -- watt_hours_used
  .s32q 10000,     -- watt_hours_charged
  .s32,            -- tachometer
  .s32,            -- tachometer_abs
  .u8,             -- fault_code
  .s32q 1000000,   -- pid_position
  .u8]             -- controller_id

/-- The field of schedule step `k`. -/
def gvOp (k : Fin 18) : FieldOp := gvOps[k]

/-- The schedule's steps in order (R162). -/
def gvOrder : List (Fin 18) := [0, 1, 2, 3, 4, 5, 6, 7, 8, 9, 10, 11, 12, 13, 14, 15, 16, 17]

end Sys2Proof.Machine
end

