-- ==== Sys2Proof/Machine/Decoder.lean ====
section
/-! DEFINITION. The payload decoder: DECODE, its get-values arm and the 18 steps of the schedule (45_payload_decoder.md). -/

namespace Sys2Proof.Machine

/-- Schedule step `k` (R162): read its field into `stage[k]` and count the step. It is the step `dec_step` selects (R81); issued
otherwise it is refused (log entry 3). -/
def gvStep (k : Fin 18) (s : State) : Res State :=
  if s.decStep = k.val then
    andThen (readField (gvOp k) s)
      (fun r => .next { r.2 with stage := r.2.stage.set k.val (.value r.1), decStep := k.val + 1 })
  else .refused .badState

/-- The steps of the schedule one after another. -/
def runSteps : List (Fin 18) → State → Res State
  | [], s => .next s
  | k :: ks, s => andThen (gvStep k s) (runSteps ks)

/-- The commit (R163): all 18 registers take their staged values together. -/
def commit (s : State) : State := { s with T := s.stage, decStep := 0 }

/-- The get-values arm of DECODE (R160, R164): a short payload fails before any read, else the 18 steps and the commit. -/
def getValuesOp (s : State) : Res (OutcomeCode × State) :=
  if s.val.len < Config.gvMinLen then .next (.shortPayload, s)
  else andThen (runSteps gvOrder { s with cur := 1, decStep := 0 }) (fun t => .next (.decoded, commit t))

/-- DECODE's own steps (R160, R161), also used by REFRESH. -/
def decodeOp (s : State) : Res (OutcomeCode × State) :=
  if s.val.ok then
    if s.val.len = 0 then .next (.unsupportedOpcode, s)
    else
      match Mem.read s.val.buf 0 with
      | none => .fault .unspecifiedByte
      | some opc => if opc = s.params.opcGetValues then getValuesOp s else .next (.unsupportedOpcode, s)
  else .refused .badState

/-- DECODE (R160): the outcome code is the result; `connected` and `outcome` are REFRESH's (R186). -/
def execDecode (s : State) : Res State :=
  whenIdle s (andThen (decodeOp s) (fun r => done (.outcome r.1) r.2))

/-- GET_VALUES, the arm of DECODE (R162): selected by a validated payload whose byte 0 is the get-values opcode (R76, R160). -/
def execGetValues (s : State) : Res State :=
  if s.val.ok = true ∧ 0 < s.val.len ∧ Mem.read s.val.buf 0 = some s.params.opcGetValues then
    andThen (getValuesOp s) (fun r => done (.outcome r.1) r.2)
  else .refused .badState

/-- One step of the schedule on its own: it returns nothing. DESIGN CHOICE (log entry 3): the commit of R163 belongs to DECODE, so the
last row on its own commits nothing; it leaves `dec_step` at 18 and `T` untouched. -/
def gvAlone (k : Fin 18) (s : State) : Res State := andThen (gvStep k s) (done .none)

/-- GV.TEMPERATURE_FET (R162, step 0). -/
def execGvTemperatureFet (s : State) : Res State := gvAlone 0 s

/-- GV.TEMPERATURE_MOTOR (R162, step 1). -/
def execGvTemperatureMotor (s : State) : Res State := gvAlone 1 s

/-- GV.AVG_MOTOR_CURRENT (R162, step 2). -/
def execGvAvgMotorCurrent (s : State) : Res State := gvAlone 2 s

/-- GV.AVG_INPUT_CURRENT (R162, step 3). -/
def execGvAvgInputCurrent (s : State) : Res State := gvAlone 3 s

/-- GV.AVG_ID (R162, step 4). -/
def execGvAvgId (s : State) : Res State := gvAlone 4 s

/-- GV.AVG_IQ (R162, step 5). -/
def execGvAvgIq (s : State) : Res State := gvAlone 5 s

/-- GV.DUTY (R162, step 6). -/
def execGvDuty (s : State) : Res State := gvAlone 6 s

/-- GV.ERPM (R162, step 7). -/
def execGvErpm (s : State) : Res State := gvAlone 7 s

/-- GV.BATTERY_VOLTAGE (R162, step 8). -/
def execGvBatteryVoltage (s : State) : Res State := gvAlone 8 s

/-- GV.AMP_HOURS_USED (R162, step 9). -/
def execGvAmpHoursUsed (s : State) : Res State := gvAlone 9 s

/-- GV.AMP_HOURS_CHARGED (R162, step 10). -/
def execGvAmpHoursCharged (s : State) : Res State := gvAlone 10 s

/-- GV.WATT_HOURS_USED (R162, step 11). -/
def execGvWattHoursUsed (s : State) : Res State := gvAlone 11 s

/-- GV.WATT_HOURS_CHARGED (R162, step 12). -/
def execGvWattHoursCharged (s : State) : Res State := gvAlone 12 s

/-- GV.TACHOMETER (R162, step 13). -/
def execGvTachometer (s : State) : Res State := gvAlone 13 s

/-- GV.TACHOMETER_ABS (R162, step 14). -/
def execGvTachometerAbs (s : State) : Res State := gvAlone 14 s

/-- GV.FAULT_CODE (R162, step 15). -/
def execGvFaultCode (s : State) : Res State := gvAlone 15 s

/-- GV.PID_POSITION (R162, step 16). -/
def execGvPidPosition (s : State) : Res State := gvAlone 16 s

/-- GV.CONTROLLER_ID (R162, step 17). -/
def execGvControllerId (s : State) : Res State := gvAlone 17 s

end Sys2Proof.Machine
end

