-- ==== Sys2Proof/Machine/Encoder.lean ====
section
/-! DEFINITION. The frame encoder's operations (41_frame_encoder.md). -/

namespace Sys2Proof.Machine

/-- ENC.SHORT `p` (R111), the arm of ENCODE for at most 255 bytes: form the short frame and hand it on. -/
def execEncShort (p : List Byte) (s : State) : Res State :=
  if p.length ≤ Config.shortMax then .next (transmit (shortFrame p) s) else .refused .wrongArm

/-- ENC.LONG `p` (R112), the arm of ENCODE for 256 to 65535 bytes. -/
def execEncLong (p : List Byte) (s : State) : Res State :=
  if Config.encMax < p.length then .refused .lengthTooLarge
  else if p.length ≤ Config.shortMax then .refused .wrongArm
  else .next (transmit (longFrame p) s)

/-- ENCODE's own steps (R113, R115), also used by REFRESH. -/
def encodeOp (p : List Byte) (s : State) : Res State :=
  if Config.encMax < p.length then .refused .lengthTooLarge
  else .next (transmit (frameOf p) s)

/-- ENCODE `p` on the command port (R113). -/
def execEncode (p : List Byte) (s : State) : Res State := whenIdle s (encodeOp p s)

end Sys2Proof.Machine
end

