-- ==== Sys2Proof/Machine/Reader.lean ====
section
/-! DEFINITION. The field reader's operations on the command port (44_field_reader.md). -/

namespace Sys2Proof.Machine

/-- A read on the command port: the value read is the result. -/
def readCommand (op : FieldOp) (s : State) : Res State :=
  whenIdle s (andThen (readField op s) (fun r => done (.field r.1) r.2))

/-- RD.S16Q `scale` (R151). -/
def execRdS16q (scale : Nat) (s : State) : Res State := readCommand (.s16q scale) s

/-- RD.S32Q `scale` (R152). -/
def execRdS32q (scale : Nat) (s : State) : Res State := readCommand (.s32q scale) s

/-- RD.S32 (R153). -/
def execRdS32 (s : State) : Res State := readCommand .s32 s

/-- RD.U8 (R154). -/
def execRdU8 (s : State) : Res State := readCommand .u8 s

/-- CUR.SET `k` (R157): `k = pay_len` is accepted. -/
def execCurSet (k : Nat) (s : State) : Res State :=
  whenIdle s (if s.val.len < k then .refused .readPastEnd else done .none (s.withCur k))

end Sys2Proof.Machine
end

