-- ==== Sys2Proof/Machine/Flags.lean ====
section
/-! DEFINITION. The conditions that set the CORE's status bits (10_state.md R29): the deadline, the receiver's header, completion and
overflow tests, the validator's two tests, and the numbers and reports derived from them. -/

namespace Sys2Proof.Machine

/-- The deadline has passed (R121): at or after the deadline instant. -/
def deadlinePassed (s : State) : Bool := decide (s.rx.deadline ≤ transportNow s)

/-- The header test of R123 (3): the byte just stored is the second and the first is marker 2. -/
def headerSeen (buf : Mem) (cnt : Nat) : Bool :=
  decide (cnt = 2) && (Mem.read buf 0 == some Config.markShort)

/-- `rx_state` after the byte `b` made the count `cnt` (R123 (4)): completion is tested before overflow. -/
def stateAfterByte (cap : Nat) (exp : Option Nat) (cnt : Nat) (b : Byte) (old : RxState) : RxState :=
  if exp = some cnt ∧ b = Config.term then .complete
  else if cnt = cap then .overflowed
  else old

/-- The structural test of the validator (R142), left to right. -/
def frameOk (f : List Byte) (n : Nat) : Bool :=
  decide (5 ≤ n) && (f[0]? == some Config.markShort)
    && (match f[1]? with
        | some l => decide (n = l.toNat + 5)
        | none => false)
    && (f[n - 1]? == some Config.term)

/-- The checksum the frame carries, `f[n-3]` high and `f[n-2]` low (R141). -/
def frameChecksum (f : List Byte) (n : Nat) : Word16 :=
  match f[n - 3]?, f[n - 2]? with
  | some hi, some lo => word16Of hi lo
  | _, _ => 0

/-- The reported length of a receive (R128): the declared length on Complete, 0 otherwise. -/
def reportedLength (r : Rx) : Nat := if r.state = .complete then r.len else 0

/-- The numbers of the outcome codes (R186). -/
def OutcomeCode.code : OutcomeCode → Nat
  | .none => 0
  | .decoded => 1
  | .timeout => 2
  | .overflow => 3
  | .checksumMismatch => 4
  | .unsupportedOpcode => 5
  | .unbound => 6
  | .malformed => 7
  | .shortPayload => 8

end Sys2Proof.Machine
end

