-- ==== Sys2Proof/Machine/Receiver.lean ====
section
/-! DEFINITION. The frame receiver's operations (42_frame_receiver.md). The environment's interleaving points are those of R57; a reset
that lands on one is seen by testing again what the operation needs, since only a reset changes the CORE there (log entry 10). -/

namespace Sys2Proof.Machine

/-- RX.START with a transport bound (R120). -/
def startReceive (s : State) : State :=
  { s with
    rx := { s.rx with state := .accumulating, cnt := 0, exp := none, len := 0,
                      deadline := transportNow s + s.params.timeoutMs }
    val := { s.val with ok := false } }

/-- RX.START's own steps: a no-op when unbound (R129), else the clock is sampled and the receive begins. -/
def rxStartOp (s : State) : State :=
  if s.bound then
    let s := interleave s
    if s.bound then startReceive s else s
  else s

/-- The accumulation of one byte (R123): store, count, header, completion or overflow. At count 2 `rx_buf[1]` is `b` itself. -/
def accumulate (b : Byte) (s : State) : State :=
  let buf := Mem.write s.rx.buf s.rx.cnt b
  let cnt := s.rx.cnt + 1
  let exp := if headerSeen buf cnt then some (b.toNat + 5) else s.rx.exp
  let len := if headerSeen buf cnt then b.toNat else s.rx.len
  s.withRx { s.rx with
    state := stateAfterByte s.params.rxCap exp cnt b s.rx.state, buf := buf, cnt := cnt, exp := exp, len := len }

/-- `Transport.readByte()` (R53) and the accumulation of what it returns. DESIGN CHOICE (log entry 18): with nothing waiting, which
R53, U6 and D32 leave undefined or a refusal, the state stays; no path reaches that arm. -/
def readAndAccumulate (s : State) : State :=
  match s.env.rxFifo with
  | b :: rest => accumulate b (s.withEnv { s.env with rxFifo := rest })
  | [] => s

/-- RX.BYTE once enabled (R122): an interleaving point may fall between `available` and `readByte` (R57). -/
def rxByteOp (s : State) : State :=
  let s := interleave s
  if s.rx.state = .accumulating then readAndAccumulate s else s

/-- How many bytes a batch brings. -/
def pushesIn (batch : List Outside) : Nat := (batch.filter (fun o => match o with | .push _ => true | _ => false)).length

/-- How many bytes can still be read before the script ends: what waits and what the script brings. It bounds the drain's reads. -/
def bytesToCome (e : Env) : Nat := e.rxFifo.length + (e.script.map pushesIn).sum

/-- The drain loop of R121: RX.BYTE while Accumulating and bytes are available. `fuel` is never used up (`bytesToCome` bounds the reads). -/
def drain : Nat → State → State
  | 0, s => s
  | fuel + 1, s =>
    if s.rx.state = .accumulating then
      let s := interleave s
      if s.rx.state = .accumulating ∧ 0 < transportAvailable s then drain fuel (rxByteOp s) else s
    else s

/-- One poll iteration while Accumulating (R121): sample the clock once, time out at the deadline, else drain (R130). -/
def pollOp (s : State) : State :=
  let s := interleave s
  if s.rx.state = .accumulating then
    if deadlinePassed s then s.withRxState .timedOut
    else drain (bytesToCome s.env + 1) s
  else s

/-- RX.RUN's loop (R127): poll while Accumulating. Each poll uses up at least one batch of the script, so one poll more than there are
batches reaches the end of the receive or a state in which every further poll changes nothing. -/
def pollLoop : Nat → State → State
  | 0, s => s
  | fuel + 1, s => if s.rx.state = .accumulating then pollLoop fuel (pollOp s) else s

/-- RX.RUN's own steps with a transport bound (R127), also used by REFRESH: a receive that is still Accumulating when nothing more can
happen never ends (U15). -/
def runReceive (s : State) : Res State :=
  let s := rxStartOp s
  let t := pollLoop (s.env.script.length + 1) s
  if t.rx.state = .accumulating then .fault .neverEnds else .next t

/-- RX.START (R120). -/
def execRxStart (s : State) : Res State := whenIdle s (done .none (rxStartOp s))

/-- RX.POLL (R121). -/
def execRxPoll (s : State) : Res State :=
  whenIdle s (if s.rx.state = .accumulating then done .none (pollOp s) else .refused .badState)

/-- RX.BYTE (R122). -/
def execRxByte (s : State) : Res State :=
  whenIdle s
    (if s.bound = true ∧ s.rx.state = .accumulating ∧ 0 < transportAvailable s then done .none (rxByteOp s)
     else .refused .badState)

/-- RX.RUN's end: the reported length is the result (R128); a receiver that is Idle here was reset in the middle of the receive, and the
operation is cut and returns nothing (R210). -/
def reportReceive (t : State) : Res State :=
  if t.rx.state = .idle then .next t else done (.length (reportedLength t.rx)) t

/-- RX.RUN (R127, R129). -/
def execRxRun (s : State) : Res State :=
  whenIdle s (if s.bound then andThen (runReceive s) reportReceive else done (.length 0) s)

end Sys2Proof.Machine
end

