-- ==== Sys2Proof/Machine/Validator.lean ====
section
/-! DEFINITION. The frame validator's operations (43_frame_validator.md). -/

namespace Sys2Proof.Machine

/-- A frame that fails the structural test (R142): nothing is copied, the checksums keep their values. -/
def rejectFrame (s : State) : State := s.withVal { s.val with ok := false, len := 0 }

/-- A structurally sound frame (R141, R145): copy the payload, compute its checksum, compare all 16 bits. -/
def checkFrame (f : List Byte) (n : Nat) (s : State) : State :=
  let p := (f.drop 2).take (n - 5)
  s.withVal { buf := Mem.writeBytes s.val.buf 0 p, len := n - 5, crcRx := frameChecksum f n, crcCalc := crc16 p,
              ok := frameChecksum f n == crc16 p }

/-- VALIDATE.X's own steps (R141); the declared length is `n - 5` once the structural test has passed. -/
def validateOp (f : List Byte) (n : Nat) (s : State) : State :=
  if frameOk f n then checkFrame f n s else rejectFrame s

/-- The success bit, or the failure's code (R141). -/
def verdict (f : List Byte) (n : Nat) (s : State) : Result :=
  if frameOk f n then (if s.val.ok then .success else .failure .checksumMismatch) else .failure .malformed

/-- The validation of a frame of `n` bytes: the validation, and its verdict as result. -/
def validateFrame (f : List Byte) (n : Nat) (s : State) : Res State := done (verdict f n (validateOp f n s)) (validateOp f n s)

/-- VALIDATE.X on the receiver's frame (R140), also used by REFRESH: `rx_buf[0..rx_exp)` and `rx_exp`. -/
def validateRx (s : State) : Res State :=
  if s.rx.state = .complete then
    match s.rx.exp with
    | some n =>
      match Mem.readBytes s.rx.buf 0 n with
      | some f => validateFrame f n s
      | none => .fault .unspecifiedByte
    | none => .refused .badState
  else .refused .badState

/-- VALIDATE (R140). -/
def execValidate (s : State) : Res State := whenIdle s (validateRx s)

/-- The `n` bytes VALIDATE.X reads as its frame (R141): those of `f`, which is exactly `n` bytes. DESIGN CHOICE (log entry 14): where
`f` is longer the bytes from index `n` on are not read; where it is shorter the bytes it does not have are free values. -/
def frameBytes (f : List Byte) (n : Nat) (s : State) : List Byte :=
  f.take n ++ (List.range (n - f.length)).map (fun i => Config.freeFrameByte s.env.draws (f.length + i))

/-- The count of draws moves on when `frameBytes` has drawn free values (log entry 14). -/
def frameDrawn (f : List Byte) (n : Nat) (s : State) : State :=
  if f.length < n then s.withEnv { s.env with draws := s.env.draws + 1 } else s

/-- VALIDATE.X `f`, `n` (R141). -/
def execValidateX (f : List Byte) (n : Nat) (s : State) : Res State :=
  whenIdle s (validateFrame (frameBytes f n s) n (frameDrawn f n s))

end Sys2Proof.Machine
end

