-- ==== Sys2Proof/Machine/Sequencer.lean ====
section
/-! DEFINITION. The sequencer: BIND, REFRESH and the host's read of the record (46_sequencer.md). -/

namespace Sys2Proof.Machine

/-- BIND (R170): idempotent; nothing but reset clears `bound`. -/
def execBind (s : State) : Res State := whenIdle s (done .none { s with bound := true })

/-- REFRESH after a validated frame (R172): DECODE, and the outcome is its code. -/
def refreshDecode (s : State) : Res State :=
  andThen (decodeOp s) (fun r =>
    if r.1 = .decoded then .next (succeedRefresh r.2) else .next (failRefresh .invalid r.1 r.2))

/-- REFRESH after a complete frame (R172): Received, VALIDATE, then Invalid or DECODE. -/
def refreshCheck (s : State) : Res State :=
  andThen (validateRx (s.withSeq .received)) (fun t =>
    if t.val.ok then refreshDecode t else .next (failRefresh .invalid .checksumMismatch t))

/-- REFRESH after the receive has ended (R172). A receiver that is Idle here was reset in the middle of the receive: the REFRESH is
cut and has no outcome (R210). -/
def refreshReceived (s : State) : Res State :=
  match s.rx.state with
  | .timedOut => .next (failRefresh .timedOut .timeout s)
  | .overflowed => .next (failRefresh .timedOut .overflow s)
  | .complete => refreshCheck s
  | .idle => .next s
  | .accumulating => .next s

/-- REFRESH after the request is sent (R172): UNBOUND (R174), or the receive. -/
def refreshSent (s : State) : Res State :=
  if s.bound then andThen (runReceive s) refreshReceived
  else .next (failRefresh .timedOut .unbound s)

/-- REFRESH (R172): Sent, one ENCODE of the get-values request (R77), then the rest. -/
def execRefresh (s : State) : Res State :=
  whenIdle s (andThen (encodeOp [s.params.opcGetValues] (s.withSeq .sent)) refreshSent)

/-! ### The host's reads (R171), which change nothing -/

/-- The host's `n`-th read of `T[i]`: the register's value, or, UNWRITTEN, a free value of the register's value set (R12, U1). -/
def hostReadT (s : State) (i : Fin 18) (n : Nat) : FieldValue :=
  match s.T[i] with
  | .value v => v
  | .unwritten => (gvOp i).value ((be32Bytes (Config.freeTelemetry n i).toNat).drop (4 - (gvOp i).width))

/-- The floating-point view of a value (R156, R171): `render` is the OPEN parameter FLOAT_RENDER, applied to the exact rational.
DESIGN CHOICE (log entry 19): the spec gives this view of scaled values only; a raw integer and a raw byte are rendered as the rational
they equal. -/
def floatView {F : Type} (render : Rat → F) : FieldValue → F
  | .scaled q => render q
  | .integer v => render v
  | .byte b => render b.toNat

end Sys2Proof.Machine
end

