-- ==== Sys2Proof/Machine/Dispatch.lean ====
section
/-! DEFINITION. One arm per constructor of Instr, in the opcode table's order. -/

namespace Sys2Proof.Machine

def exec (i : Instr) (s : State) : Host.Outcome State Fault Refusal :=
  match i with
  | .bind => Sys2Proof.Machine.execBind s
  | .refresh => Sys2Proof.Machine.execRefresh s
  | .crcClr => Sys2Proof.Machine.execCrcClr s
  | .crcByte b => Sys2Proof.Machine.execCrcByte b s
  | .crc16 p => Sys2Proof.Machine.execCrc16 p s
  | .encode p => Sys2Proof.Machine.execEncode p s
  | .rxStart => Sys2Proof.Machine.execRxStart s
  | .rxPoll => Sys2Proof.Machine.execRxPoll s
  | .rxRun => Sys2Proof.Machine.execRxRun s
  | .rxByte => Sys2Proof.Machine.execRxByte s
  | .validate => Sys2Proof.Machine.execValidate s
  | .validateX f n => Sys2Proof.Machine.execValidateX f n s
  | .rdS16q scale => Sys2Proof.Machine.execRdS16q scale s
  | .rdS32q scale => Sys2Proof.Machine.execRdS32q scale s
  | .rdS32 => Sys2Proof.Machine.execRdS32 s
  | .rdU8 => Sys2Proof.Machine.execRdU8 s
  | .curSet k => Sys2Proof.Machine.execCurSet k s
  | .decode => Sys2Proof.Machine.execDecode s
  | .encShort p => Sys2Proof.Machine.execEncShort p s
  | .encLong p => Sys2Proof.Machine.execEncLong p s
  | .getValues => Sys2Proof.Machine.execGetValues s
  | .gvTemperatureFet => Sys2Proof.Machine.execGvTemperatureFet s
  | .gvTemperatureMotor => Sys2Proof.Machine.execGvTemperatureMotor s
  | .gvAvgMotorCurrent => Sys2Proof.Machine.execGvAvgMotorCurrent s
  | .gvAvgInputCurrent => Sys2Proof.Machine.execGvAvgInputCurrent s
  | .gvAvgId => Sys2Proof.Machine.execGvAvgId s
  | .gvAvgIq => Sys2Proof.Machine.execGvAvgIq s
  | .gvDuty => Sys2Proof.Machine.execGvDuty s
  | .gvErpm => Sys2Proof.Machine.execGvErpm s
  | .gvBatteryVoltage => Sys2Proof.Machine.execGvBatteryVoltage s
  | .gvAmpHoursUsed => Sys2Proof.Machine.execGvAmpHoursUsed s
  | .gvAmpHoursCharged => Sys2Proof.Machine.execGvAmpHoursCharged s
  | .gvWattHoursUsed => Sys2Proof.Machine.execGvWattHoursUsed s
  | .gvWattHoursCharged => Sys2Proof.Machine.execGvWattHoursCharged s
  | .gvTachometer => Sys2Proof.Machine.execGvTachometer s
  | .gvTachometerAbs => Sys2Proof.Machine.execGvTachometerAbs s
  | .gvFaultCode => Sys2Proof.Machine.execGvFaultCode s
  | .gvPidPosition => Sys2Proof.Machine.execGvPidPosition s
  | .gvControllerId => Sys2Proof.Machine.execGvControllerId s

end Sys2Proof.Machine
end

