-- ==== Sys2Proof/Machine/Fetch.lean ====
section
/-! DEFINITION. How the CORE takes the next operation from the bytes presented to it (30_encoding.md R80; log entries 1 to 4). -/

namespace Sys2Proof.Machine

/-- What the next step finds on the port. -/
inductive Fetched where
  /-- Nothing is presented. -/
  | wait
  /-- What is presented is no operation. -/
  | reject (r : Refusal)
  /-- An operation, and the state with its bytes taken. -/
  | issue (i : Instr) (s : State)
  deriving DecidableEq, Repr

/-- The refusal of bytes that are no operation (R82, R200; log entries 3, 21). -/
def refusalOf : DecodeError → Refusal
  | .badCommand _ => .badCommand
  | .truncated => .truncatedCommand
  | .noSuchRow => .noSuchRow

/-- The state with an operation's bytes taken: `rest` still waits, and the next operation is the command port's. -/
def taken (s : State) (rest : List Byte) : State := { s with port := rest, sel := .cmd }

/-- Take the next operation. -/
def fetch (s : State) : Fetched :=
  if s.port = [] then .wait
  else
    match decode s.params.opcGetValues s.sel s.port with
    | .ok (i, rest) => .issue i (taken s rest)
    | .error e => .reject (refusalOf e)

/-- A table word presented next, in the format of its row (log entry 4); a word of no row is presented on the command port. -/
def presentWord (s : State) (nbits w : Nat) : State :=
  match tableRow s.params.opcGetValues nbits w with
  | some (.gvStep, _) => { s with port := tableBytes nbits w, sel := .gvStep, decStep := w }
  | some (fmt, _) => { s with port := tableBytes nbits w, sel := fmt }
  | none => { s with port := tableBytes nbits w, sel := .cmd }

end Sys2Proof.Machine
end

