-- ==== Sys2Proof/Machine/Step.lean ====
section
/-! DEFINITION. One step of the machine: an interleaving point, then the next operation the host has presented (10_state.md R10). -/

namespace Sys2Proof.Machine

/-- One step: the outside world's batch between two operations (R57); then, if the host has presented one, the next operation is
decoded and executed; with nothing presented the CORE waits (R33; log entry 20). -/
def step (s : State) : Host.Outcome State Fault Refusal :=
  match fetch (interleave s) with
  | .wait => .next (interleave s)
  | .reject r => .refused r
  | .issue i t => exec i t

/-- `s` with a table word presented next, in the format of its row (log entries 1, 4). A schedule row is the one that `dec_step` selects
(R81), so `dec_step` is set with it. -/
def State.withFetchWord (s : State) (nbits w : Nat) : State := presentWord s nbits w

end Sys2Proof.Machine
end

