-- ==== Sys2Proof/Safety.lean ====
section
/-! DEFINITION. The terms claims use: what a run may do to the CORE from outside, the invariant of the CORE's state, what a safe
outcome is, the record a payload stands for, and the schedule run row by row. -/

namespace Sys2Proof.Machine

/-! ### The outside world's script -/

/-- No reset is scripted: the environment's two steps are all that happens (R55). -/
def noReset (s : State) : Prop := ∀ batch ∈ s.env.script, Outside.reset ∉ batch

/-- No reset lands on the next interleaving point. -/
def quietPoint (s : State) : Prop := ∀ batch ∈ s.env.script.head?, Outside.reset ∉ batch

/-- The milliseconds a batch lets pass. -/
def ticksIn (batch : List Outside) : Nat :=
  (batch.map (fun o => match o with | .tick d => d | _ => 0)).sum

/-- The milliseconds a script lets pass. -/
def ticksOf (script : List (List Outside)) : Nat := (script.map ticksIn).sum

/-- The bytes a batch brings, in order. -/
def bytesIn (batch : List Outside) : List Byte :=
  batch.filterMap (fun o => match o with | .push b => some b | _ => none)

/-- The bytes a script brings, in order. -/
def bytesOf (script : List (List Outside)) : List Byte := (script.map bytesIn).flatten

/-! ### One received byte -/

/-- R123 to R125 written out: the receiver's registers after the byte `b`, in a receive in progress with capacity `cap`. -/
def receiveByte (cap : Nat) (r : Rx) (b : Byte) : Rx :=
  let buf := Mem.write r.buf r.cnt b
  let cnt := r.cnt + 1
  let header := cnt = 2 ∧ Mem.read buf 0 = some 0x02
  let exp := if header then some (b.toNat + 5) else r.exp
  let len := if header then b.toNat else r.len
  let state := if exp = some cnt ∧ b = 0x03 then RxState.complete
    else if cnt = cap then RxState.overflowed else RxState.accumulating
  { state := state, buf := buf, cnt := cnt, exp := exp, len := len, deadline := r.deadline }

/-! ### The payload and the record it stands for -/

/-- `pay_buf[0..pay_len)`. -/
def payload (s : State) : Option (List Byte) := Mem.readBytes s.val.buf 0 s.val.len

/-- The byte at an index of a sequence that has it. -/
def at8 (p : List Byte) (i : Nat) : Byte := p.getD i 0

/-- The signed 16-bit field at an index. -/
def at16 (p : List Byte) (i : Nat) : Int := (at8 p i ++ at8 p (i + 1) : BitVec 16).toInt

/-- The signed 32-bit field at an index. -/
def at32 (p : List Byte) (i : Nat) : Int :=
  (at8 p i ++ at8 p (i + 1) ++ at8 p (i + 2) ++ at8 p (i + 3) : BitVec 32).toInt

/-- A scaled register. -/
def quot (raw : Int) (scale : Nat) : TReg := .value (.scaled ((raw : Rat) / (scale : Rat)))

/-- The record of a get-values payload: the table of R79, index, width and scale of each field written out. -/
def recordOf (p : List Byte) : Vector TReg 18 := #v[
  quot (at16 p 1) 10, quot (at16 p 3) 10, quot (at32 p 5) 100, quot (at32 p 9) 100, quot (at32 p 13) 1000,
  quot (at32 p 17) 1000, quot (at16 p 21) 1000, quot (at32 p 23) 1, quot (at16 p 27) 10, quot (at32 p 29) 10000,
  quot (at32 p 33) 10000, quot (at32 p 37) 10000, quot (at32 p 41) 10000, .value (.integer (at32 p 45)),
  .value (.integer (at32 p 49)), .value (.byte (at8 p 53)), quot (at32 p 54) 1000000, .value (.byte (at8 p 58))]

/-- A register holds a value of the value set of a field (R12). -/
def fits (op : FieldOp) (r : TReg) : Prop := ∃ bs : List Byte, bs.length = op.width ∧ r = .value (op.value bs)

/-! ### Invariant and safety -/

/-- What holds of the machine between operations, in every state a run reaches. -/
structure Inv (s : State) : Prop where
  /-- R5, D34. -/
  capMin : 5 ≤ s.params.rxCap
  /-- The receive buffer is in canonical form, within its space, and written below the count (R16, R31, R211). -/
  rxBufWf : Mem.wf s.rx.buf
  rxBufSize : ∀ c ∈ s.rx.buf, c.1 < s.params.rxCap
  rxWritten : ∀ i, i < s.rx.cnt → (Mem.read s.rx.buf i).isSome = true
  /-- R17. -/
  rxCount : s.rx.cnt ≤ s.params.rxCap
  /-- The expected size is set exactly when two bytes are in and the first is marker 2 (R18, R19, R124). -/
  rxHeader : s.rx.exp = if 2 ≤ s.rx.cnt ∧ Mem.read s.rx.buf 0 = some Config.markShort then some (s.rx.len + 5) else none
  rxLength : s.rx.exp = none → s.rx.len = 0
  rxDeclared : s.rx.exp ≠ none → Mem.read s.rx.buf 1 = some (byteOf s.rx.len)
  rxLenMax : s.rx.len ≤ 255
  /-- Idle is left only by a receive and entered only by reset (R131); unbound, the receiver is Idle (R129). -/
  rxIdle : s.rx.state = .idle → s.rx.cnt = 0
  rxUnbound : s.bound = false → s.rx.state = .idle
  /-- R122: a receive in progress has room. -/
  rxRoom : s.rx.state = .accumulating → s.rx.cnt < s.params.rxCap
  /-- R132. -/
  rxComplete : s.rx.state = .complete → s.rx.exp = some s.rx.cnt ∧ Mem.read s.rx.buf (s.rx.cnt - 1) = some Config.term
  /-- R186, code 3. -/
  rxOverflow : s.rx.state = .overflowed → s.rx.cnt = s.params.rxCap
  /-- The payload buffer is in canonical form, within its space, and written below the length (R21, R31, R211). -/
  payBufWf : Mem.wf s.val.buf
  payBufSize : ∀ c ∈ s.val.buf, c.1 < 256
  payWritten : ∀ i, i < s.val.len → (Mem.read s.val.buf i).isSome = true
  payLenMax : s.val.len ≤ 255
  /-- A standing validation is of the payload in the buffer (R22). -/
  validated : s.val.ok = true →
    s.val.crcRx = s.val.crcCalc ∧ ∃ p, payload s = some p ∧ s.val.crcCalc = crc16 p
  /-- R23, R30: 8 bits. -/
  curMax : s.cur ≤ 255
  /-- R24: the steps done are staged. -/
  stepMax : s.decStep ≤ 18
  staged : ∀ k : Fin 18, k.val < s.decStep → fits (gvOp k) s.stage[k]
  /-- R12, R163: the record is UNWRITTEN as a whole or written as a whole. -/
  record : (∀ k : Fin 18, s.T[k] = .unwritten) ∨ (∀ k : Fin 18, fits (gvOp k) s.T[k])
  /-- R173. -/
  flag : s.connected = true ↔ s.outcome = .decoded
  flagRecord : s.connected = true → ∀ k : Fin 18, fits (gvOp k) s.T[k]
  /-- R14, R30. -/
  sent : s.txCount ≤ 65541
  /-- R25: every state but Idle is transient inside one REFRESH. -/
  seqIdle : s.seqState = .idle

/-- A safe outcome of a step: a state that keeps the invariant, a refusal, or a receive that never ends (R185); never a read of
unspecified buffer contents. -/
def Safe : Host.Outcome State Fault Refusal → Prop
  | .next t => Inv t
  | .fault f => f = .neverEnds
  | .refused _ => True

/-! ### Rows one after another -/

/-- Execute operations one after another, stopping at the first that gives no next state. -/
def runRows : List Instr → State → Host.Outcome State Fault Refusal
  | [], s => .next s
  | i :: is, s => andThen (exec i s) (runRows is)

/-- The 18 rows of the get-values schedule, in order (R162). -/
def gvRows : List Instr :=
  [.gvTemperatureFet, .gvTemperatureMotor, .gvAvgMotorCurrent, .gvAvgInputCurrent, .gvAvgId, .gvAvgIq, .gvDuty, .gvErpm,
    .gvBatteryVoltage, .gvAmpHoursUsed, .gvAmpHoursCharged, .gvWattHoursUsed, .gvWattHoursCharged, .gvTachometer,
    .gvTachometerAbs, .gvFaultCode, .gvPidPosition, .gvControllerId]

end Sys2Proof.Machine
end

