-- ==== Sys2Proof/Certificates/Slice0/Obligations.lean ====
section
/-! DEFINITION. What is claimed of the model: one definition per statement, each named by what it states. -/

open Sys2Proof Sys2Proof.Machine

/-! ### Reset, steps, encodings -/

/-- R33, R210: reset from any state gives every element of the CORE its reset value and leaves environment and parameters alone;
`State.reset` is such a state, with the default parameters (R5). A reset among the outside world's moves is applied at its interleaving
point, and leaves the bytes the host still means to present (the model's choice, log entry 1); one that comes inside an operation cuts it: no outcome, every element at its reset value (log entry 10). -/
def Obligations.ResetGivesEveryElementItsValue : Prop :=
  (∀ s : State, let t := coreReset s
    t.connected = false ∧ (∀ k : Fin 18, t.T[k] = .unwritten) ∧ t.crc = 0 ∧ t.txCount = 0 ∧ t.rx.state = .idle ∧
    t.rx.cnt = 0 ∧ t.rx.exp = none ∧ t.rx.len = 0 ∧ t.rx.deadline = 0 ∧ t.val.len = 0 ∧ t.val.crcRx = 0 ∧
    t.val.crcCalc = 0 ∧ t.val.ok = false ∧ t.cur = 0 ∧ t.decStep = 0 ∧ t.seqState = .idle ∧ t.outcome = .none ∧
    t.bound = false ∧ t.env = s.env ∧ t.params = s.params) ∧
  State.reset = coreReset State.reset ∧
  State.reset.params = { timeoutMs := 100, rxCap := 256, opcGetValues := 0x04 } ∧
  (∀ (s : State) (batch : List Outside) (more : List (List Outside)), s.env.script = batch :: more → Outside.reset ∈ batch →
    let m := interleave s
    m = coreReset m ∧ m.params = s.params ∧ m.port = s.port ∧ m.env.txLog = s.env.txLog ∧ m.env.script = more ∧
    m.env.rxFifo = s.env.rxFifo ++ bytesIn batch ∧ m.env.now = s.env.now + ticksIn batch ∧
    (s.port = [] → step s = .next m)) ∧
  (∀ (i : Instr) (s t : State) (used : List (List Outside)), exec i s = .next t → s.env.script = used ++ t.env.script →
    (∃ batch ∈ used, Outside.reset ∈ batch) → t = coreReset t ∧ t.params = s.params)

/-- The state after reset meets the invariant. -/
def Obligations.ResetMeetsInvariant : Prop := Inv State.reset

/-- R10, R57, R80, R82, R200 and log entries 1, 3, 20: a step is an interleaving point and then the operation the decoder reads from the port, with
its bytes taken; with nothing on the port the CORE waits; bytes that are no operation are refused and nothing runs. That this refusal comes before Busy,
and that a command without all its operand bytes is such bytes, is the model's choice (log entries 17, 21). -/
def Obligations.StepRunsDecodedOperation : Prop :=
  ∀ s : State, let m := interleave s
    (m.port = [] → step s = .next m) ∧
    (m.port ≠ [] → ∀ i rest, decode m.params.opcGetValues m.sel m.port = .ok (i, rest) →
      step s = exec i { m with port := rest, sel := .cmd }) ∧
    (m.port ≠ [] → ∀ e, decode m.params.opcGetValues m.sel m.port = .error e → step s = .refused (refusalOf e))

/-- R71, R72, R76, R79, R80: words written out from the spec's encodings and the operations they stand for (operand layout: log entry 2). -/
def Obligations.SpecWordsDecode : Prop :=
  decode 0x04 .cmd [0x01] = .ok (.bind, []) ∧
  decode 0x04 .cmd [0x11, 0x31] = .ok (.crcByte 0x31, []) ∧
  decode 0x04 .cmd [0x20, 0, 0, 0, 1, 0x04] = .ok (.encode [0x04], []) ∧
  decode 0x04 .cmd [0x54, 0, 0, 0, 53] = .ok (.curSet 53, []) ∧
  decode 0x04 .frame [0x02, 0x01, 0x04, 0x40, 0x84, 0x03] = .ok (.encShort [0x04], []) ∧
  decode 0x04 .payload [0x04] = .ok (.getValues, []) ∧
  decode 0x04 .gvStep [0x11] = .ok (.gvControllerId, []) ∧
  decode 0x04 .cmd [0x7F] = .error (.badCommand 0x7F)

/-- R80, R82, R200: every code of the command port outside the table of R80 is refused with BadCommand. -/
def Obligations.UnassignedCodesAreBadCommands : Prop :=
  ∀ (s : State) (code : Byte) (rest : List Byte), s.sel = .cmd → s.port = code :: rest →
    code ∉ ([0x01, 0x02, 0x10, 0x11, 0x12, 0x20, 0x30, 0x31, 0x32, 0x33, 0x40, 0x41, 0x50, 0x51, 0x52, 0x53, 0x54, 0x60] : List Byte) →
    step s = .refused .badCommand

/-- In the layouts of log entries 2 and 3 (the model's choices), encoding then decoding gives every well-formed operation back, with every operand and whatever follows. -/
def Obligations.DecodeOfEncode : Prop :=
  ∀ (opc : Byte) (i : Instr) (rest : List Byte), i.wellFormed = true →
    decode opc i.format (encode opc i ++ rest) = .ok (i, rest)

/-- R84; the model's choices of log entry 2 (operand layout) and log entry 3 (a step index in one byte, upper bits zero and not masked):
decoding loses nothing: what is decoded encodes back to the bytes it was read from, in the format it was read in. -/
def Obligations.EncodeOfDecode : Prop :=
  ∀ (opc : Byte) (fmt : Format) (bs rest : List Byte) (i : Instr), decode opc fmt bs = .ok (i, rest) →
    i.format = fmt ∧ encode opc i ++ rest = bs

/-! ### Checksum engine -/

/-- R101, R102, R103: the three commands write `crc`, and nothing else but what they return. For CRC16 of more than 65535 bytes, which
R103 does not speak of, this is the model's choice (log entry 15). -/
def Obligations.ChecksumCommandsWriteCrcOnly : Prop :=
  ∀ s : State, s.seqState = .idle →
    exec .crcClr s = .next { s with crc := 0, result := .none } ∧
    (∀ b, exec (.crcByte b) s = .next { s with crc := crcByte s.crc b, result := .none }) ∧
    (∀ p, exec (.crc16 p) s = .next { s with crc := crc16 p, result := .checksum (crc16 p) })

/-- R100, R102, R104: the byte update is the eight shifts of R102 with the polynomial 0x1021 written out, and it is one table lookup,
where `TAB[i]` is CRC.BYTE `i` from 0; the first row of the printed table and its last entry are as R104 prints them. -/
def Obligations.ByteUpdateIsTableLookup : Prop :=
  let shift : Word16 → Word16 := fun c => if c.getLsbD 15 then (c <<< 1) ^^^ 0x1021 else c <<< 1
  (∀ (c : Word16) (b : Byte),
    crcByte c b = shift (shift (shift (shift (shift (shift (shift (shift (c ^^^ (b ++ (0 : Byte)))))))))) ∧
    crcByte c b = (c <<< 8) ^^^ crcByte 0 (c.extractLsb' 8 8 ^^^ b)) ∧
  ([0, 1, 2, 3, 4, 5, 6, 7, 0xFF] : List Byte).map (crcByte 0) =
    [0x0000, 0x1021, 0x2042, 0x3063, 0x4084, 0x50A5, 0x60C6, 0x70E7, 0x1EF0]

/-- R102: CRC.BYTE is a bijection on `crc` for each byte, and distinct bytes give distinct results. -/
def Obligations.ByteUpdateIsBijective : Prop :=
  (∀ b : Byte, Function.Bijective (fun c : Word16 => crcByte c b)) ∧ (∀ c : Word16, Function.Injective (crcByte c))

/-- R83, R103: CRC16 folds CRC.BYTE over the sequence; the empty sequence gives 0, leading zero bytes change nothing, a sequence followed
by its own checksum gives 0. -/
def Obligations.ChecksumCornerCases : Prop :=
  crc16 [] = 0 ∧
  (∀ (s : List Byte) (b : Byte), crc16 (s ++ [b]) = crcByte (crc16 s) b) ∧
  ∀ s : List Byte, crc16 (0x00 :: s) = crc16 s ∧
    crc16 (s ++ [(crc16 s).extractLsb' 8 8, (crc16 s).extractLsb' 0 8]) = 0

/-- R144: changing any one byte of a sequence, by one bit or more, changes its checksum. -/
def Obligations.ChecksumDetectsOneChangedByte : Prop :=
  ∀ (front back : List Byte) (b b' : Byte), b ≠ b' → crc16 (front ++ b :: back) ≠ crc16 (front ++ b' :: back)

/-- R100: the checksum is linear over GF(2): the checksum of an exclusive-or is the exclusive-or of the checksums. -/
def Obligations.ChecksumIsLinear : Prop :=
  ∀ s t : List Byte, s.length = t.length → crc16 (List.zipWith (· ^^^ ·) s t) = crc16 s ^^^ crc16 t

/-! ### Frame encoder -/

/-- R110, R113: with a transport bound ENCODE logs the one frame of its payload and keeps the count the transport answers. -/
def Obligations.EncodeSendsOneFrame : Prop :=
  ∀ (s : State) (p : List Byte), s.seqState = .idle → s.bound = true → p.length ≤ 65535 →
    let trailer := [(crc16 p).extractLsb' 8 8, (crc16 p).extractLsb' 0 8, (0x03 : Byte)]
    let frame := if p.length ≤ 255 then [0x02, BitVec.ofNat 8 p.length] ++ p ++ trailer
      else [0x03, BitVec.ofNat 8 (p.length / 256), BitVec.ofNat 8 (p.length % 256)] ++ p ++ trailer
    ∃ (k : Nat) (e : Env), k ≤ frame.length ∧ e.txLog = s.env.txLog ++ [frame] ∧ e.rxFifo = s.env.rxFifo ∧
      e.now = s.env.now ∧ e.script = s.env.script ∧
      exec (.encode p) s = .next { s with env := e, txCount := k, result := .count k }

/-- R114: ENCODE unbound reports 0 bytes and makes no transport call. -/
def Obligations.EncodeUnboundSendsNothing : Prop :=
  ∀ (s : State) (p : List Byte), s.seqState = .idle → s.bound = false → p.length ≤ 65535 →
    exec (.encode p) s = .next { s with txCount := 0, result := .count 0 }

/-- R115: more than 65535 bytes are refused; no byte at all is accepted and framed by ENC.SHORT. -/
def Obligations.EncodeLengthDomain : Prop :=
  ∀ s : State, s.seqState = .idle →
    (∀ p : List Byte, 65535 < p.length → exec (.encode p) s = .refused .lengthTooLarge) ∧
    exec (.encode []) s = exec (.encShort []) s ∧
    ∃ t, exec (.encode []) s = .next t ∧ (s.bound = true → t.env.txLog = s.env.txLog ++ [[0x02, 0x00, 0x00, 0x00, 0x03]])

/-- R111, R112, R83: ENC.SHORT and ENC.LONG are ENCODE on the payloads of their arm, and stop on all others (log entry 23). -/
def Obligations.EncoderArmsAreEncode : Prop :=
  ∀ (s : State) (p : List Byte), s.seqState = .idle →
    (p.length ≤ 255 → ∃ t, exec (.encShort p) s = .next t ∧ exec (.encode p) s = .next t) ∧
    (256 ≤ p.length → p.length ≤ 65535 → ∃ t, exec (.encLong p) s = .next t ∧ exec (.encode p) s = .next t) ∧
    (255 < p.length → exec (.encShort p) s = .refused .wrongArm) ∧
    (p.length < 256 → exec (.encLong p) s = .refused .wrongArm) ∧
    (65535 < p.length → exec (.encLong p) s = .refused .lengthTooLarge)

/-! ### Frame receiver -/

/-- R120, and the model's choice of log entry 22 (the outside world's batch before the clock sample): RX.START sets the deadline from the clock sample and clears the count, the expected size, the remembered length and the
standing validation; the buffer and the waiting bytes stay. -/
def Obligations.RxStartBeginsReceive : Prop :=
  ∀ s : State, s.seqState = .idle → s.bound = true → quietPoint s →
    exec .rxStart s = .next { s with
      env := (interleave s).env,
      rx := { s.rx with state := .accumulating, cnt := 0, exp := none, len := 0,
                        deadline := (interleave s).env.now + s.params.timeoutMs },
      val := { s.val with ok := false }, result := .none }

/-- R129: with no transport RX.START and RX.RUN change nothing and RX.RUN reports 0; RX.POLL and RX.BYTE are refused. -/
def Obligations.ReceiverUnboundDoesNothing : Prop :=
  ∀ s : State, Inv s → s.bound = false →
    exec .rxStart s = .next { s with result := .none } ∧ exec .rxRun s = .next { s with result := .length 0 } ∧
    exec .rxPoll s = .refused .badState ∧ exec .rxByte s = .refused .badState ∧ s.rx.state = .idle

/-- R121, R122, R200: RX.POLL outside Accumulating and RX.BYTE where it is not enabled are refused with BadState. -/
def Obligations.ReceiverRefusesBadState : Prop :=
  ∀ s : State, s.seqState = .idle →
    (s.rx.state ≠ .accumulating → exec .rxPoll s = .refused .badState) ∧
    (¬ (s.bound = true ∧ s.rx.state = .accumulating ∧ s.env.rxFifo ≠ []) → exec .rxByte s = .refused .badState)

/-- R121, R130 (d), and the model's choice of log entry 22 (the batch before the clock sample): at or past the deadline RX.POLL times out and reads nothing, whatever waits. -/
def Obligations.RxPollTimesOutAtDeadline : Prop :=
  ∀ s : State, s.seqState = .idle → s.rx.state = .accumulating → quietPoint s → s.rx.deadline ≤ (interleave s).env.now →
    exec .rxPoll s = .next { s with env := (interleave s).env, rx := { s.rx with state := .timedOut }, result := .none }

/-- R60 (a), R121, R123, R130, and the model's choice of log entry 22 (the batches inside a poll): below the deadline RX.POLL drains: the
bytes it takes are the queued ones in their order, none skipped and none twice; each is accumulated as R123 says, and the receive is in
progress before each; a receive still in progress leaves nothing waiting; and only the receiver, the environment and the result change. -/
def Obligations.RxPollDrainsInOrder : Prop :=
  ∀ s : State, s.seqState = .idle → s.rx.state = .accumulating → noReset s → (interleave s).env.now < s.rx.deadline →
    ∃ (t : State) (used : List (List Outside)) (bs : List Byte),
      exec .rxPoll s = .next t ∧
      s.env.script = used ++ t.env.script ∧ s.env.rxFifo ++ bytesOf used = bs ++ t.env.rxFifo ∧
      t.env.now = s.env.now + ticksOf used ∧ t.env.txLog = s.env.txLog ∧
      t.rx = bs.foldl (receiveByte s.params.rxCap) s.rx ∧
      (∀ k, k < bs.length → ((bs.take k).foldl (receiveByte s.params.rxCap) s.rx).state = .accumulating) ∧
      t.rx.buf = Mem.writeBytes s.rx.buf s.rx.cnt bs ∧ t.rx.cnt = s.rx.cnt + bs.length ∧
      t.rx.deadline = s.rx.deadline ∧ t.rx.state ≠ .timedOut ∧
      (t.rx.state = .accumulating → t.env.rxFifo = []) ∧
      t = { s with rx := t.rx, env := t.env, result := .none }

/-- R123, R124, R125, and the model's choice of log entry 22 (the batch before the read): RX.BYTE stores the head byte, counts it, recognises the header at the second byte, completes on the expected count
with terminator 3, and otherwise overflows on the capacity. -/
def Obligations.RxByteAccumulates : Prop :=
  ∀ (s : State) (b : Byte) (q : List Byte), s.seqState = .idle → s.bound = true → s.rx.state = .accumulating → quietPoint s →
    s.env.rxFifo = b :: q →
    ∃ more : List Byte,
      let e := (interleave s).env
      let buf := Mem.write s.rx.buf s.rx.cnt b
      let cnt := s.rx.cnt + 1
      let header := cnt = 2 ∧ Mem.read buf 0 = some 0x02
      let exp := if header then some (b.toNat + 5) else s.rx.exp
      let len := if header then b.toNat else s.rx.len
      let state := if exp = some cnt ∧ b = 0x03 then RxState.complete
        else if cnt = s.params.rxCap then RxState.overflowed else RxState.accumulating
      e.rxFifo = b :: (q ++ more) ∧
      exec .rxByte s = .next { s with
        env := { e with rxFifo := q ++ more },
        rx := { s.rx with state := state, buf := buf, cnt := cnt, exp := exp, len := len }, result := .none }

/-- R60 (a), R83, R127, R128, R130, R131, R187: a receive that ends, ends Complete, TimedOut or Overflowed; the reported length is the
declared one on Complete and 0 otherwise; record, flag, outcome, checksum register, transmit log and payload stay. It is RX.START and then
RX.POLLs, each taken while Accumulating. The bytes it takes are those that waited and arrived, in their order, each accumulated as R123
says in a receive in progress; the receiver's registers are what they give, or TimedOut in place of Accumulating, and TimedOut is
answered at or past the deadline only. -/
def Obligations.RxRunEndsInOneOfThreeStates : Prop :=
  ∀ s t : State, s.seqState = .idle → s.bound = true → noReset s → exec .rxRun s = .next t →
    (t.rx.state = .complete ∨ t.rx.state = .timedOut ∨ t.rx.state = .overflowed) ∧
    t.result = .length (if t.rx.state = .complete then t.rx.len else 0) ∧
    t.env.txLog = s.env.txLog ∧
    t = { s with rx := t.rx, env := t.env, val := { s.val with ok := false }, result := t.result } ∧
    (∃ (n : Nat) (v : State), runRows (.rxStart :: List.replicate n .rxPoll) s = .next v ∧ t = { v with result := t.result }) ∧
    (t.rx.state = .timedOut → t.rx.deadline ≤ t.env.now) ∧
    ∃ (used : List (List Outside)) (bs : List Byte),
      s.env.script = used ++ t.env.script ∧ s.env.rxFifo ++ bytesOf used = bs ++ t.env.rxFifo ∧
      t.env.now = s.env.now + ticksOf used ∧
      let started := { s.rx with
        state := RxState.accumulating, cnt := 0, exp := none, len := 0,
        deadline := s.env.now + ticksOf (s.env.script.take 1) + s.params.timeoutMs }
      let after := fun (k : Nat) => (bs.take k).foldl (receiveByte s.params.rxCap) started
      (∀ k, k < bs.length → (after k).state = .accumulating) ∧
      (t.rx = after bs.length ∨ (after bs.length).state = .accumulating ∧ t.rx = { after bs.length with state := .timedOut })

/-- R127, R228, D31: RX.RUN returns whenever the clock gets past the receive budget after the deadline is set. -/
def Obligations.RxRunReturnsIfClockAdvances : Prop :=
  ∀ s : State, s.seqState = .idle → s.bound = true → noReset s → s.params.timeoutMs ≤ ticksOf s.env.script.tail →
    ∃ t, exec .rxRun s = .next t

/-- R127, R185 (4), R228, and log entry 5 (the fault `neverEnds`): RX.RUN fails to end only when the loop has reached a state that no further poll changes: nothing is scripted,
nothing waits and the clock stands below the deadline. -/
def Obligations.RxRunNeverEndsOnlyWhenStalled : Prop :=
  ∀ (s : State) (f : Fault), exec .rxRun s = .fault f →
    f = .neverEnds ∧ ∃ n, let u := pollLoop n (rxStartOp s)
      u.rx.state = .accumulating ∧ u.env.script = [] ∧ u.env.rxFifo = [] ∧ u.env.now < u.rx.deadline ∧ pollOp u = u

/-- R126, R187: a transport that delivers nothing ends TimedOut with no byte counted, once the clock gets past the budget. -/
def Obligations.SilentLinkTimesOut : Prop :=
  ∀ s : State, s.seqState = .idle → s.bound = true → noReset s → s.params.timeoutMs ≤ ticksOf s.env.script.tail →
    s.env.rxFifo = [] → bytesOf s.env.script = [] →
    ∃ t, exec .rxRun s = .next t ∧ t.rx.state = .timedOut ∧ t.rx.cnt = 0 ∧ t.rx.exp = none ∧ t.result = .length 0

/-- R122 to R125, R128: a complete short frame already waiting is taken in whole, and what is behind it stays. -/
def Obligations.WaitingFrameCompletes : Prop :=
  ∀ (s : State) (p tail : List Byte) (hi lo : Byte), s.seqState = .idle → s.bound = true → s.env.script = [] →
    0 < s.params.timeoutMs → p.length ≤ 255 → p.length + 5 ≤ s.params.rxCap →
    s.env.rxFifo = [0x02, BitVec.ofNat 8 p.length] ++ p ++ [hi, lo, 0x03] ++ tail →
    exec .rxRun s = .next { s with
      env := { s.env with rxFifo := tail },
      rx := { state := .complete, buf := Mem.writeBytes s.rx.buf 0 ([0x02, BitVec.ofNat 8 p.length] ++ p ++ [hi, lo, 0x03]),
              cnt := p.length + 5, exp := some (p.length + 5), len := p.length,
              deadline := s.env.now + s.params.timeoutMs },
      val := { s.val with ok := false }, result := .length p.length }

/-- R126: a receive whose first byte is not 2, whose declared length does not fit the capacity, or whose byte at the declared end is not 3
never ends Complete, whether these bytes already wait or arrive during the receive. -/
def Obligations.UnreceivableFramesNeverComplete : Prop :=
  ∀ s t : State, s.seqState = .idle → s.bound = true → noReset s → 5 ≤ s.params.rxCap → exec .rxRun s = .next t →
    let stream := s.env.rxFifo ++ bytesOf s.env.script
    ((∃ b q, stream = b :: q ∧ b ≠ 0x02) ∨
     (∃ l q, stream = 0x02 :: l :: q ∧ s.params.rxCap < l.toNat + 5) ∨
     (∃ l q b, stream = 0x02 :: l :: q ∧ stream[l.toNat + 4]? = some b ∧ b ≠ 0x03)) →
    t.rx.state = .timedOut ∨ t.rx.state = .overflowed

/-! ### Frame validator -/

/-- R142: a frame that breaks the structure is MALFORMED: nothing is copied, `pay_len` and `val_ok` are cleared, the checksums stay;
a frame that keeps it is never MALFORMED. -/
def Obligations.ValidateXRejectsMalformed : Prop :=
  ∀ (s : State) (f : List Byte), s.seqState = .idle →
    let sound := 5 ≤ f.length ∧ f[0]? = some 0x02 ∧ (∃ l, f[1]? = some l ∧ f.length = l.toNat + 5) ∧ f[f.length - 1]? = some 0x03
    (¬ sound →
      exec (.validateX f f.length) s = .next { s with val := { s.val with ok := false, len := 0 }, result := .failure .malformed }) ∧
    (sound → ∃ t, exec (.validateX f f.length) s = .next t ∧ t.result ≠ .failure .malformed)

/-- R141, R143, R145: a sound frame's payload is copied, its length, both checksums and the verdict are recorded, nothing else changes. -/
def Obligations.ValidateXComparesChecksums : Prop :=
  ∀ (s : State) (p : List Byte) (hi lo : Byte), s.seqState = .idle → p.length ≤ 255 →
    exec (.validateX ([0x02, BitVec.ofNat 8 p.length] ++ p ++ [hi, lo, 0x03]) (p.length + 5)) s = .next { s with
      val := { buf := Mem.writeBytes s.val.buf 0 p, len := p.length, crcRx := hi ++ lo, crcCalc := crc16 p,
               ok := decide ((hi ++ lo : Word16) = crc16 p) },
      result := if (hi ++ lo : Word16) = crc16 p then .success else .failure .checksumMismatch }

/-- R116: encoding a payload then validating it always succeeds and leaves the payload in `pay_buf`. -/
def Obligations.EncodeThenValidateSucceeds : Prop :=
  ∀ (s : State) (p : List Byte), s.seqState = .idle → p.length ≤ 255 →
    ∃ t, exec (.validateX (frameOf p) (p.length + 5)) s = .next t ∧ t.result = .success ∧ t.val.ok = true ∧ payload t = some p

/-- R140: VALIDATE, code 0x40, is VALIDATE.X on the completed frame, never answers MALFORMED, and is refused unless the receiver is Complete. -/
def Obligations.ValidateActsOnCompletedFrame : Prop :=
  (∀ opc rest, decode opc .cmd (0x40 :: rest) = .ok (.validate, rest)) ∧ ∀ s : State, Inv s →
    (s.rx.state ≠ .complete → exec .validate s = .refused .badState) ∧
    (s.rx.state = .complete → ∃ (n : Nat) (f : List Byte) (t : State),
      s.rx.exp = some n ∧ Mem.readBytes s.rx.buf 0 n = some f ∧ exec .validate s = .next t ∧
      exec (.validateX f n) s = .next t ∧ t.result ≠ .failure .malformed)

/-- R144: a frame with one payload byte changed fails with CHECKSUM_MISMATCH and the record and flag stay. -/
def Obligations.CorruptedPayloadIsRejected : Prop :=
  ∀ (s : State) (front back : List Byte) (b b' : Byte), s.seqState = .idle → (front ++ b :: back).length ≤ 255 → b ≠ b' →
    let p := front ++ b :: back
    ∃ t, exec (.validateX ([0x02, BitVec.ofNat 8 p.length] ++ (front ++ b' :: back) ++
        [(crc16 p).extractLsb' 8 8, (crc16 p).extractLsb' 0 8, 0x03]) (p.length + 5)) s = .next t ∧
      t.result = .failure .checksumMismatch ∧ t.val.ok = false ∧ t.T = s.T ∧ t.connected = s.connected

/-- R16, R21, R123, R141, R142: a byte of a buffer changes only where it is stored to: VALIDATE.X stores the payload at indices 0 up
(from its sequence, as far as that goes: log entry 14), RX.BYTE the byte read at index `rx_cnt`; no operation but VALIDATE, VALIDATE.X and REFRESH touches `pay_buf` or `pay_len`. -/
def Obligations.BuffersChangeOnlyWhereStored : Prop :=
  (∀ (s t : State) (f : List Byte) (n : Nat), exec (.validateX f n) s = .next t →
    t.rx = s.rx ∧ (f.length = n → ∀ a, a < t.val.len → Mem.read t.val.buf a = f[a + 2]?) ∧
    (∀ a, a < t.val.len → ∃ b, Mem.read t.val.buf a = some b ∧ (a + 2 < f.length → f[a + 2]? = some b)) ∧
    ∀ a, t.val.len ≤ a → Mem.read t.val.buf a = Mem.read s.val.buf a) ∧
  (∀ (s t : State) (b : Byte) (q : List Byte), quietPoint s → s.env.rxFifo = b :: q → exec .rxByte s = .next t →
    t.val = s.val ∧ ∀ a, Mem.read t.rx.buf a = if a = s.rx.cnt then some b else Mem.read s.rx.buf a) ∧
  (∀ (i : Instr) (s t : State), noReset s → exec i s = .next t → i ≠ .refresh → i ≠ .validate →
    (∀ f n, i ≠ .validateX f n) → t.val.buf = s.val.buf ∧ t.val.len = s.val.len)

/-! ### Field reader -/

/-- R150, R151, R158: RD.S16Q reads two bytes big-endian in two's complement, divides exactly, and moves the cursor by 2. -/
def Obligations.RdS16qReadsScaledField : Prop :=
  ∀ (s : State) (scale : Nat) (a b : Byte), s.seqState = .idle → 1 ≤ scale → s.cur + 2 ≤ s.val.len →
    Mem.read s.val.buf s.cur = some a → Mem.read s.val.buf (s.cur + 1) = some b →
    exec (.rdS16q scale) s = .next { s with
      cur := s.cur + 2, result := .field (.scaled (((a ++ b : BitVec 16).toInt : Rat) / (scale : Rat))) }

/-- R150, R152, R158: RD.S32Q reads four bytes big-endian in two's complement, divides exactly, and moves the cursor by 4. -/
def Obligations.RdS32qReadsScaledField : Prop :=
  ∀ (s : State) (scale : Nat) (a b c d : Byte), s.seqState = .idle → 1 ≤ scale → s.cur + 4 ≤ s.val.len →
    Mem.read s.val.buf s.cur = some a → Mem.read s.val.buf (s.cur + 1) = some b →
    Mem.read s.val.buf (s.cur + 2) = some c → Mem.read s.val.buf (s.cur + 3) = some d →
    exec (.rdS32q scale) s = .next { s with
      cur := s.cur + 4, result := .field (.scaled (((a ++ b ++ c ++ d : BitVec 32).toInt : Rat) / (scale : Rat))) }

/-- R150, R153: RD.S32 reads a signed 32-bit integer, unscaled, and moves the cursor by 4; past the end it is refused. -/
def Obligations.RdS32ReadsRawInteger : Prop :=
  ∀ s : State, s.seqState = .idle →
    (s.val.len < s.cur + 4 → exec .rdS32 s = .refused .readPastEnd) ∧
    (∀ a b c d : Byte, s.cur + 4 ≤ s.val.len →
      Mem.read s.val.buf s.cur = some a → Mem.read s.val.buf (s.cur + 1) = some b →
      Mem.read s.val.buf (s.cur + 2) = some c → Mem.read s.val.buf (s.cur + 3) = some d →
      exec .rdS32 s = .next { s with cur := s.cur + 4, result := .field (.integer (a ++ b ++ c ++ d : BitVec 32).toInt) })

/-- R154: RD.U8, code 0x53, reads one unsigned byte and moves the cursor by 1; past the end it is refused. -/
def Obligations.RdU8ReadsRawByte : Prop :=
  (∀ opc rest, decode opc .cmd (0x53 :: rest) = .ok (.rdU8, rest)) ∧ ∀ s : State, s.seqState = .idle →
    (s.val.len < s.cur + 1 → exec .rdU8 s = .refused .readPastEnd) ∧
    (∀ b : Byte, s.cur + 1 ≤ s.val.len → Mem.read s.val.buf s.cur = some b →
      exec .rdU8 s = .next { s with cur := s.cur + 1, result := .field (.byte b) })

/-- R155, R194: a scaled read with divisor 0 is refused with ScaleZero, also past the end; any read past the end with ReadPastEnd. -/
def Obligations.ReadsAreRefusedInOrder : Prop :=
  ∀ s : State, s.seqState = .idle →
    exec (.rdS16q 0) s = .refused .scaleZero ∧ exec (.rdS32q 0) s = .refused .scaleZero ∧
    (∀ scale, 1 ≤ scale → s.val.len < s.cur + 2 → exec (.rdS16q scale) s = .refused .readPastEnd) ∧
    (∀ scale, 1 ≤ scale → s.val.len < s.cur + 4 → exec (.rdS32q scale) s = .refused .readPastEnd) ∧
    (s.val.len < s.cur + 4 → exec .rdS32 s = .refused .readPastEnd) ∧
    (s.val.len < s.cur + 1 → exec .rdU8 s = .refused .readPastEnd)

/-- R157: CUR.SET, code 0x54, moves the cursor to any index up to `pay_len` and is refused beyond. -/
def Obligations.CurSetMovesCursor : Prop :=
  (∀ opc rest i r, decode opc .cmd (0x54 :: rest) = .ok (i, r) → ∃ k, i = .curSet k) ∧ ∀ (s : State) (k : Nat), s.seqState = .idle →
    (k ≤ s.val.len → exec (.curSet k) s = .next { s with cur := k, result := .none }) ∧
    (s.val.len < k → exec (.curSet k) s = .refused .readPastEnd)

/-- R158: a register's value determines the bytes it was read from: with a positive scale no two fields read alike. -/
def Obligations.FieldValueDeterminesBytes : Prop :=
  ∀ (op : FieldOp) (bs bs' : List Byte), op.zeroScale = false → bs.length = op.width → bs'.length = op.width →
    op.value bs = op.value bs' → bs = bs'

/-! ### Payload decoder -/

/-- R160: DECODE without a standing validation is refused. -/
def Obligations.DecodeNeedsValidation : Prop :=
  ∀ s : State, s.seqState = .idle → s.val.ok = false → exec .decode s = .refused .badState

/-- R161, R190: an empty payload or another opcode answers UNSUPPORTED_OPCODE and changes nothing. -/
def Obligations.DecodeUnsupportedChangesNothing : Prop :=
  ∀ s : State, s.seqState = .idle → s.val.ok = true →
    (s.val.len = 0 ∨ ∃ b, Mem.read s.val.buf 0 = some b ∧ b ≠ s.params.opcGetValues) →
    exec .decode s = .next { s with result := .outcome .unsupportedOpcode }

/-- R164: a get-values payload of fewer than 59 bytes answers SHORT_PAYLOAD, through DECODE and through its arm, and changes nothing. -/
def Obligations.ShortPayloadChangesNothing : Prop :=
  ∀ s : State, s.seqState = .idle → s.val.ok = true → 0 < s.val.len → s.val.len < 59 →
    Mem.read s.val.buf 0 = some s.params.opcGetValues →
    exec .decode s = .next { s with result := .outcome .shortPayload } ∧
    exec .getValues s = .next { s with result := .outcome .shortPayload }

/-- R79, R160, R162, R163, R164: DECODE of a get-values payload of at least 59 bytes writes all 18 registers together, each from its own
index with its own width and scale; bytes from index 59 on play no part; the arm GET_VALUES does the same. -/
def Obligations.DecodeCommitsTheRecord : Prop :=
  ∀ (s : State) (p : List Byte), s.seqState = .idle → s.val.ok = true → 59 ≤ s.val.len → payload s = some p →
    p[0]? = some s.params.opcGetValues →
    let t := { s with T := recordOf p, stage := recordOf p, cur := 59, decStep := 0, result := .outcome .decoded }
    exec .decode s = .next t ∧ exec .getValues s = .next t ∧ recordOf p = recordOf (p.take 59)

/-- R141, R160; the model's choices of log entries 3 and 14: the arm GET_VALUES stops when no validated get-values payload selects it;
VALIDATE.X with a number `n` that is not its sequence's length runs, as on a frame of `n` bytes that has the sequence's bytes as far as
they go and free values after them. -/
def Obligations.OperandsOutsideTheRules : Prop :=
  (∀ s : State, (s.val.ok = false ∨ s.val.len = 0 ∨ Mem.read s.val.buf 0 ≠ some s.params.opcGetValues) →
    exec .getValues s = .refused .badState) ∧
  (∀ (s : State) (f : List Byte) (n : Nat), s.seqState = .idle →
    ∃ (g : List Byte) (t u : State), g.length = n ∧ g.take f.length = f.take n ∧
      exec (.validateX g n) s = .next u ∧ exec (.validateX f n) s = .next t ∧
      t = { u with env := t.env } ∧ t.env = { s.env with draws := t.env.draws })

/-- R162, R24, R81: each row GV.TEMPERATURE_FET to GV.CONTROLLER_ID, being the step `dec_step` selects, reads its field at the cursor into
its staged register, moves the cursor by the field's width and counts the step; nothing else changes. That the last row commits nothing
(`dec_step` 18, `T` untouched) and that a row not selected stops are the model's choices (log entry 3). -/
def Obligations.ScheduleStepStagesOneField : Prop :=
  ∀ (s : State) (k : Fin 18) (i : Instr), gvInstr k.val = some i →
    (s.decStep ≠ k.val → exec i s = .refused .badState) ∧
    (s.decStep = k.val → s.val.len < s.cur + (gvOp k).width → exec i s = .refused .readPastEnd) ∧
    (∀ bs, s.decStep = k.val → s.cur + (gvOp k).width ≤ s.val.len →
      Mem.readBytes s.val.buf s.cur (gvOp k).width = some bs →
      exec i s = .next { s with
        cur := s.cur + (gvOp k).width, stage := s.stage.set k.val (.value ((gvOp k).value bs)), decStep := k.val + 1,
        result := .none })

/-- R79: the schedule's widths place its fields at the indices of the layout table, and the last ends at 59. -/
def Obligations.ScheduleLayoutIsTheTable : Prop :=
  (gvOrder.map (fun k => (gvOp k).width)).scanl (· + ·) 1 =
    [1, 3, 5, 9, 13, 17, 21, 23, 27, 29, 33, 37, 41, 45, 49, 53, 54, 58, 59]

/-- R24, R83, R162, R163: stepping the decoder row by row from `cur = 1`, `dec_step = 0` and then committing is DECODE. That no
row commits, so that `dec_step` is 18 and `T` untouched before the commit, is the model's choice (log entry 3). -/
def Obligations.RowByRowIsDecode : Prop :=
  ∀ (s : State) (p : List Byte), s.seqState = .idle → s.val.ok = true → 59 ≤ s.val.len → payload s = some p →
    p[0]? = some s.params.opcGetValues →
    ∃ u, runRows gvRows { s with cur := 1, decStep := 0 } = .next u ∧ u.decStep = 18 ∧ u.T = s.T ∧
      exec .decode s = .next { commit u with result := .outcome .decoded }

/-! ### Sequencer and whole machine -/

/-- R170: BIND, code 0x01, taken when the sequencer is Idle, sets `bound`, is idempotent and changes nothing else; no operation unbinds. -/
def Obligations.BindSetsBound : Prop :=
  (∀ opc rest, decode opc .cmd (0x01 :: rest) = .ok (.bind, rest)) ∧ ∀ s : State, (s.seqState ≠ .idle → exec .bind s = .refused .busy) ∧ (s.seqState = .idle →
    exec .bind s = .next { s with bound := true, result := .none } ∧
    (∀ t, exec .bind s = .next t → exec .bind t = .next t) ∧
    (∀ i t, noReset s → s.bound = true → exec i s = .next t → t.bound = true))

/-- R177, R200: while the sequencer is not Idle every operation of the command port is refused with Busy. -/
def Obligations.BusyRefusesEveryCommand : Prop :=
  ∀ (s : State) (i : Instr), s.seqState ≠ .idle → i.format = .cmd → exec i s = .refused .busy

/-- R174, R191: REFRESH with no transport ends UNBOUND: nothing is sent, the flag is false, the record stays. -/
def Obligations.RefreshUnbound : Prop :=
  ∀ s : State, s.seqState = .idle → s.bound = false →
    exec .refresh s = .next { s with txCount := 0, outcome := .unbound, connected := false, result := .record false s.T }

/-- R83, R172, R173, R175, R187, R195, R196: however a REFRESH ends: Idle again; the flag true exactly on DECODED; the record untouched on every
other outcome; the request logged once; the receiver's state the one the outcome says; the work registers as the failing step left
them; `crc`, parameters and `bound` never touched. With a transport bound, receiver and environment are those that RX.RUN answers after
ENCODE of the request. Unbound nothing ran; after a receive that did not complete only the validation flag is
cleared; after a completed one the validator's registers are those of VALIDATE.X on the received frame, a mismatch of the checksums is
CHECKSUM_MISMATCH, and otherwise the validated payload gives the outcome and, on DECODED, the record. -/
def Obligations.RefreshEndsAsItsOutcomeSays : Prop :=
  ∀ s t : State, s.seqState = .idle → noReset s → exec .refresh s = .next t →
    t.seqState = .idle ∧ (t.connected = true ↔ t.outcome = .decoded) ∧ t.result = .record t.connected t.T ∧
    (t.outcome ≠ .decoded → t.T = s.T) ∧
    t.outcome ≠ .none ∧ t.outcome ≠ .malformed ∧
    (t.outcome = .unbound ↔ s.bound = false) ∧
    (t.outcome = .timeout ↔ s.bound = true ∧ t.rx.state = .timedOut) ∧
    (t.outcome = .overflow ↔ s.bound = true ∧ t.rx.state = .overflowed) ∧
    (t.outcome ∈ [OutcomeCode.checksumMismatch, .unsupportedOpcode, .shortPayload, .decoded] ↔
      s.bound = true ∧ t.rx.state = .complete) ∧
    (t.outcome ≠ .decoded → t.cur = s.cur ∧ t.stage = s.stage ∧ t.decStep = s.decStep) ∧
    (t.outcome = .unbound → t.rx = s.rx ∧ t.val = s.val) ∧
    (s.bound = true → ∃ m r : State, exec (.encode [s.params.opcGetValues]) s = .next m ∧ exec .rxRun m = .next r ∧
      t.rx = r.rx ∧ t.env = r.env ∧ t.txCount = r.txCount) ∧
    (t.outcome = .timeout ∨ t.outcome = .overflow → t.val = { s.val with ok := false }) ∧
    (s.bound = true → t.rx.state = .complete → ∃ (n : Nat) (f : List Byte) (u : State),
      t.rx.exp = some n ∧ Mem.readBytes t.rx.buf 0 n = some f ∧ exec (.validateX f n) s = .next u ∧ t.val = u.val ∧
      (t.val.ok = false → t.outcome = .checksumMismatch) ∧
      (t.val.ok = true → ∃ p, payload t = some p ∧
        t.outcome = (if p[0]? ≠ some s.params.opcGetValues then .unsupportedOpcode
          else if p.length < 59 then .shortPayload else .decoded) ∧
        (t.outcome = .decoded → t.T = recordOf p ∧ t.stage = recordOf p ∧ t.cur = 59 ∧ t.decStep = 0))) ∧
    (s.bound = true → t.env.txLog = s.env.txLog ++ [shortFrame [s.params.opcGetValues]]) ∧
    t.crc = s.crc ∧ t.params = s.params ∧ t.bound = s.bound

/-- R172, R174, R178, D31: REFRESH returns: at once when unbound, and when bound whenever the clock gets past the receive budget. -/
def Obligations.RefreshReturnsIfClockAdvances : Prop :=
  ∀ s : State, Inv s → noReset s → (s.bound = false ∨ s.params.timeoutMs ≤ ticksOf s.env.script.tail) →
    ∃ t, exec .refresh s = .next t

/-- R172, R173, R189, R190, R194, R221: REFRESH with a complete short frame already waiting: CHECKSUM_MISMATCH, then UNSUPPORTED_OPCODE, then
SHORT_PAYLOAD, then DECODED, the first that applies; the record is the payload's on DECODED and untouched otherwise; bytes behind the
frame stay in the transport. -/
def Obligations.RefreshOnWaitingFrame : Prop :=
  ∀ (s : State) (p tail : List Byte) (hi lo : Byte), s.seqState = .idle → s.bound = true → s.env.script = [] →
    0 < s.params.timeoutMs → p.length ≤ 255 → p.length + 5 ≤ s.params.rxCap →
    s.env.rxFifo = [0x02, BitVec.ofNat 8 p.length] ++ p ++ [hi, lo, 0x03] ++ tail →
    let out : OutcomeCode :=
      if (hi ++ lo : Word16) ≠ crc16 p then .checksumMismatch
      else if p[0]? ≠ some s.params.opcGetValues then .unsupportedOpcode
      else if p.length < 59 then .shortPayload
      else .decoded
    ∃ t, exec .refresh s = .next t ∧ t.outcome = out ∧ t.connected = decide (out = .decoded) ∧
      t.T = (if out = .decoded then recordOf p else s.T) ∧
      t.result = .record t.connected t.T ∧ t.env.rxFifo = tail ∧ t.env.now = s.env.now ∧
      t.env.txLog = s.env.txLog ++ [shortFrame [s.params.opcGetValues]] ∧ t.seqState = .idle

/-- R11 to R14, R21 to R27, R29, R205: who writes what, over every operation: parameters nothing; the flag and the outcome REFRESH; the
record REFRESH, DECODE and its arm; `crc` the checksum commands; `bound` BIND; the transmit count and log the encoder and REFRESH; the
receiver and the receive queue the receiver and REFRESH; `val_ok` the validations, RX.START, RX.RUN and REFRESH; the payload and the two
compared checksums the validations and REFRESH; `cur` CUR.SET, the reads, DECODE, its arm and rows, and REFRESH; `dec_step` and `stage` DECODE,
its arm and rows, and REFRESH; no operation leaves `seq_state` changed. -/
def Obligations.EachRegisterHasItsWriters : Prop :=
  ∀ (i : Instr) (s t : State), noReset s → exec i s = .next t →
    t.params = s.params ∧
    (i ≠ .refresh → t.connected = s.connected ∧ t.outcome = s.outcome) ∧
    (i ≠ .refresh → i ≠ .decode → i ≠ .getValues → t.T = s.T) ∧
    (i ≠ .crcClr → (∀ b, i ≠ .crcByte b) → (∀ p, i ≠ .crc16 p) → t.crc = s.crc) ∧
    (i ≠ .bind → t.bound = s.bound) ∧ (s.bound = true → t.bound = true) ∧
    (i ≠ .refresh → (∀ p, i ≠ .encode p) → (∀ p, i ≠ .encShort p) → (∀ p, i ≠ .encLong p) →
      t.txCount = s.txCount ∧ t.env.txLog = s.env.txLog) ∧
    (i ≠ .refresh → i ≠ .rxStart → i ≠ .rxPoll → i ≠ .rxRun → i ≠ .rxByte →
      t.rx = s.rx ∧ t.env.rxFifo = s.env.rxFifo ∧ t.env.now = s.env.now) ∧
    (i ≠ .refresh → i ≠ .validate → (∀ f n, i ≠ .validateX f n) →
      t.val.buf = s.val.buf ∧ t.val.len = s.val.len ∧ t.val.crcRx = s.val.crcRx ∧ t.val.crcCalc = s.val.crcCalc ∧
      (i ≠ .rxStart → i ≠ .rxRun → t.val.ok = s.val.ok)) ∧
    (i ≠ .refresh → i ≠ .decode → i ≠ .getValues → i.format ≠ .gvStep →
      t.decStep = s.decStep ∧ t.stage = s.stage ∧
      ((∀ k, i ≠ .curSet k) → (∀ n, i ≠ .rdS16q n) → (∀ n, i ≠ .rdS32q n) → i ≠ .rdS32 → i ≠ .rdU8 → t.cur = s.cur)) ∧
    t.seqState = s.seqState

/-- R32, R54, R60: over every step, resets included: the clock never goes back, the transmit log only grows, and the receive queue loses
bytes at its head only and gains only what the script brings. -/
def Obligations.EnvironmentOnlyMovesForward : Prop :=
  ∀ s t : State, step s = .next t →
    s.env.now ≤ t.env.now ∧ s.env.txLog <+: t.env.txLog ∧
    ∃ used, s.env.script = used ++ t.env.script ∧ t.env.now = s.env.now + ticksOf used ∧
      t.env.rxFifo <:+ s.env.rxFifo ++ bytesOf used

/-- R17, R21, R23, R28, R124, R132, R163, R173 and log entry 13: every step keeps the invariant, and no step reads unspecified buffer contents. -/
def Obligations.StepKeepsInvariant : Prop :=
  ∀ s : State, Inv s → Safe (step s)

/-- R171, U1: the host's read of a written register is its value; of an UNWRITTEN register it is some value of the register's value set. -/
def Obligations.HostReadsRecord : Prop :=
  ∀ (s : State) (i : Fin 18) (n : Nat),
    (∀ v, s.T[i] = .value v → hostReadT s i n = v) ∧
    (s.T[i] = .unwritten → fits (gvOp i) (.value (hostReadT s i n)))
end

