-- ==== Sys2Proof/Laws/State.lean ====
section
/-! SUPPORT. One lemma per field per update of the state, true by `rfl`: no later proof unfolds a record update. -/

namespace Sys2Proof.Machine

variable (s : State)

/-! ### withEnv -/

@[simp] theorem State.withEnv_params (e : Env) : (s.withEnv e).params = s.params := rfl
@[simp] theorem State.withEnv_connected (e : Env) : (s.withEnv e).connected = s.connected := rfl
@[simp] theorem State.withEnv_T (e : Env) : (s.withEnv e).T = s.T := rfl
@[simp] theorem State.withEnv_crc (e : Env) : (s.withEnv e).crc = s.crc := rfl
@[simp] theorem State.withEnv_txCount (e : Env) : (s.withEnv e).txCount = s.txCount := rfl
@[simp] theorem State.withEnv_rx (e : Env) : (s.withEnv e).rx = s.rx := rfl
@[simp] theorem State.withEnv_val (e : Env) : (s.withEnv e).val = s.val := rfl
@[simp] theorem State.withEnv_cur (e : Env) : (s.withEnv e).cur = s.cur := rfl
@[simp] theorem State.withEnv_decStep (e : Env) : (s.withEnv e).decStep = s.decStep := rfl
@[simp] theorem State.withEnv_stage (e : Env) : (s.withEnv e).stage = s.stage := rfl
@[simp] theorem State.withEnv_seqState (e : Env) : (s.withEnv e).seqState = s.seqState := rfl
@[simp] theorem State.withEnv_outcome (e : Env) : (s.withEnv e).outcome = s.outcome := rfl
@[simp] theorem State.withEnv_bound (e : Env) : (s.withEnv e).bound = s.bound := rfl
@[simp] theorem State.withEnv_env (e : Env) : (s.withEnv e).env = e := rfl
@[simp] theorem State.withEnv_port (e : Env) : (s.withEnv e).port = s.port := rfl
@[simp] theorem State.withEnv_sel (e : Env) : (s.withEnv e).sel = s.sel := rfl
@[simp] theorem State.withEnv_result (e : Env) : (s.withEnv e).result = s.result := rfl

/-! ### withRx -/

@[simp] theorem State.withRx_params (r : Rx) : (s.withRx r).params = s.params := rfl
@[simp] theorem State.withRx_connected (r : Rx) : (s.withRx r).connected = s.connected := rfl
@[simp] theorem State.withRx_T (r : Rx) : (s.withRx r).T = s.T := rfl
@[simp] theorem State.withRx_crc (r : Rx) : (s.withRx r).crc = s.crc := rfl
@[simp] theorem State.withRx_txCount (r : Rx) : (s.withRx r).txCount = s.txCount := rfl
@[simp] theorem State.withRx_rx (r : Rx) : (s.withRx r).rx = r := rfl
@[simp] theorem State.withRx_val (r : Rx) : (s.withRx r).val = s.val := rfl
@[simp] theorem State.withRx_cur (r : Rx) : (s.withRx r).cur = s.cur := rfl
@[simp] theorem State.withRx_decStep (r : Rx) : (s.withRx r).decStep = s.decStep := rfl
@[simp] theorem State.withRx_stage (r : Rx) : (s.withRx r).stage = s.stage := rfl
@[simp] theorem State.withRx_seqState (r : Rx) : (s.withRx r).seqState = s.seqState := rfl
@[simp] theorem State.withRx_outcome (r : Rx) : (s.withRx r).outcome = s.outcome := rfl
@[simp] theorem State.withRx_bound (r : Rx) : (s.withRx r).bound = s.bound := rfl
@[simp] theorem State.withRx_env (r : Rx) : (s.withRx r).env = s.env := rfl
@[simp] theorem State.withRx_port (r : Rx) : (s.withRx r).port = s.port := rfl
@[simp] theorem State.withRx_sel (r : Rx) : (s.withRx r).sel = s.sel := rfl
@[simp] theorem State.withRx_result (r : Rx) : (s.withRx r).result = s.result := rfl

/-! ### withVal -/

@[simp] theorem State.withVal_params (v : Val) : (s.withVal v).params = s.params := rfl
@[simp] theorem State.withVal_connected (v : Val) : (s.withVal v).connected = s.connected := rfl
@[simp] theorem State.withVal_T (v : Val) : (s.withVal v).T = s.T := rfl
@[simp] theorem State.withVal_crc (v : Val) : (s.withVal v).crc = s.crc := rfl
@[simp] theorem State.withVal_txCount (v : Val) : (s.withVal v).txCount = s.txCount := rfl
@[simp] theorem State.withVal_rx (v : Val) : (s.withVal v).rx = s.rx := rfl
@[simp] theorem State.withVal_val (v : Val) : (s.withVal v).val = v := rfl
@[simp] theorem State.withVal_cur (v : Val) : (s.withVal v).cur = s.cur := rfl
@[simp] theorem State.withVal_decStep (v : Val) : (s.withVal v).decStep = s.decStep := rfl
@[simp] theorem State.withVal_stage (v : Val) : (s.withVal v).stage = s.stage := rfl
@[simp] theorem State.withVal_seqState (v : Val) : (s.withVal v).seqState = s.seqState := rfl
@[simp] theorem State.withVal_outcome (v : Val) : (s.withVal v).outcome = s.outcome := rfl
@[simp] theorem State.withVal_bound (v : Val) : (s.withVal v).bound = s.bound := rfl
@[simp] theorem State.withVal_env (v : Val) : (s.withVal v).env = s.env := rfl
@[simp] theorem State.withVal_port (v : Val) : (s.withVal v).port = s.port := rfl
@[simp] theorem State.withVal_sel (v : Val) : (s.withVal v).sel = s.sel := rfl
@[simp] theorem State.withVal_result (v : Val) : (s.withVal v).result = s.result := rfl

/-! ### withSeq -/

@[simp] theorem State.withSeq_params (q : SeqState) : (s.withSeq q).params = s.params := rfl
@[simp] theorem State.withSeq_connected (q : SeqState) : (s.withSeq q).connected = s.connected := rfl
@[simp] theorem State.withSeq_T (q : SeqState) : (s.withSeq q).T = s.T := rfl
@[simp] theorem State.withSeq_crc (q : SeqState) : (s.withSeq q).crc = s.crc := rfl
@[simp] theorem State.withSeq_txCount (q : SeqState) : (s.withSeq q).txCount = s.txCount := rfl
@[simp] theorem State.withSeq_rx (q : SeqState) : (s.withSeq q).rx = s.rx := rfl
@[simp] theorem State.withSeq_val (q : SeqState) : (s.withSeq q).val = s.val := rfl
@[simp] theorem State.withSeq_cur (q : SeqState) : (s.withSeq q).cur = s.cur := rfl
@[simp] theorem State.withSeq_decStep (q : SeqState) : (s.withSeq q).decStep = s.decStep := rfl
@[simp] theorem State.withSeq_stage (q : SeqState) : (s.withSeq q).stage = s.stage := rfl
@[simp] theorem State.withSeq_seqState (q : SeqState) : (s.withSeq q).seqState = q := rfl
@[simp] theorem State.withSeq_outcome (q : SeqState) : (s.withSeq q).outcome = s.outcome := rfl
@[simp] theorem State.withSeq_bound (q : SeqState) : (s.withSeq q).bound = s.bound := rfl
@[simp] theorem State.withSeq_env (q : SeqState) : (s.withSeq q).env = s.env := rfl
@[simp] theorem State.withSeq_port (q : SeqState) : (s.withSeq q).port = s.port := rfl
@[simp] theorem State.withSeq_sel (q : SeqState) : (s.withSeq q).sel = s.sel := rfl
@[simp] theorem State.withSeq_result (q : SeqState) : (s.withSeq q).result = s.result := rfl

/-! ### withResult -/

@[simp] theorem State.withResult_params (r : Result) : (s.withResult r).params = s.params := rfl
@[simp] theorem State.withResult_connected (r : Result) : (s.withResult r).connected = s.connected := rfl
@[simp] theorem State.withResult_T (r : Result) : (s.withResult r).T = s.T := rfl
@[simp] theorem State.withResult_crc (r : Result) : (s.withResult r).crc = s.crc := rfl
@[simp] theorem State.withResult_txCount (r : Result) : (s.withResult r).txCount = s.txCount := rfl
@[simp] theorem State.withResult_rx (r : Result) : (s.withResult r).rx = s.rx := rfl
@[simp] theorem State.withResult_val (r : Result) : (s.withResult r).val = s.val := rfl
@[simp] theorem State.withResult_cur (r : Result) : (s.withResult r).cur = s.cur := rfl
@[simp] theorem State.withResult_decStep (r : Result) : (s.withResult r).decStep = s.decStep := rfl
@[simp] theorem State.withResult_stage (r : Result) : (s.withResult r).stage = s.stage := rfl
@[simp] theorem State.withResult_seqState (r : Result) : (s.withResult r).seqState = s.seqState := rfl
@[simp] theorem State.withResult_outcome (r : Result) : (s.withResult r).outcome = s.outcome := rfl
@[simp] theorem State.withResult_bound (r : Result) : (s.withResult r).bound = s.bound := rfl
@[simp] theorem State.withResult_env (r : Result) : (s.withResult r).env = s.env := rfl
@[simp] theorem State.withResult_port (r : Result) : (s.withResult r).port = s.port := rfl
@[simp] theorem State.withResult_sel (r : Result) : (s.withResult r).sel = s.sel := rfl
@[simp] theorem State.withResult_result (r : Result) : (s.withResult r).result = r := rfl

/-! ### withCur -/

@[simp] theorem State.withCur_params (k : Nat) : (s.withCur k).params = s.params := rfl
@[simp] theorem State.withCur_connected (k : Nat) : (s.withCur k).connected = s.connected := rfl
@[simp] theorem State.withCur_T (k : Nat) : (s.withCur k).T = s.T := rfl
@[simp] theorem State.withCur_crc (k : Nat) : (s.withCur k).crc = s.crc := rfl
@[simp] theorem State.withCur_txCount (k : Nat) : (s.withCur k).txCount = s.txCount := rfl
@[simp] theorem State.withCur_rx (k : Nat) : (s.withCur k).rx = s.rx := rfl
@[simp] theorem State.withCur_val (k : Nat) : (s.withCur k).val = s.val := rfl
@[simp] theorem State.withCur_cur (k : Nat) : (s.withCur k).cur = k := rfl
@[simp] theorem State.withCur_decStep (k : Nat) : (s.withCur k).decStep = s.decStep := rfl
@[simp] theorem State.withCur_stage (k : Nat) : (s.withCur k).stage = s.stage := rfl
@[simp] theorem State.withCur_seqState (k : Nat) : (s.withCur k).seqState = s.seqState := rfl
@[simp] theorem State.withCur_outcome (k : Nat) : (s.withCur k).outcome = s.outcome := rfl
@[simp] theorem State.withCur_bound (k : Nat) : (s.withCur k).bound = s.bound := rfl
@[simp] theorem State.withCur_env (k : Nat) : (s.withCur k).env = s.env := rfl
@[simp] theorem State.withCur_port (k : Nat) : (s.withCur k).port = s.port := rfl
@[simp] theorem State.withCur_sel (k : Nat) : (s.withCur k).sel = s.sel := rfl
@[simp] theorem State.withCur_result (k : Nat) : (s.withCur k).result = s.result := rfl

/-! ### withRxState -/

@[simp] theorem State.withRxState_params (q : RxState) : (s.withRxState q).params = s.params := rfl
@[simp] theorem State.withRxState_connected (q : RxState) : (s.withRxState q).connected = s.connected := rfl
@[simp] theorem State.withRxState_T (q : RxState) : (s.withRxState q).T = s.T := rfl
@[simp] theorem State.withRxState_crc (q : RxState) : (s.withRxState q).crc = s.crc := rfl
@[simp] theorem State.withRxState_txCount (q : RxState) : (s.withRxState q).txCount = s.txCount := rfl
@[simp] theorem State.withRxState_val (q : RxState) : (s.withRxState q).val = s.val := rfl
@[simp] theorem State.withRxState_cur (q : RxState) : (s.withRxState q).cur = s.cur := rfl
@[simp] theorem State.withRxState_decStep (q : RxState) : (s.withRxState q).decStep = s.decStep := rfl
@[simp] theorem State.withRxState_stage (q : RxState) : (s.withRxState q).stage = s.stage := rfl
@[simp] theorem State.withRxState_seqState (q : RxState) : (s.withRxState q).seqState = s.seqState := rfl
@[simp] theorem State.withRxState_outcome (q : RxState) : (s.withRxState q).outcome = s.outcome := rfl
@[simp] theorem State.withRxState_bound (q : RxState) : (s.withRxState q).bound = s.bound := rfl
@[simp] theorem State.withRxState_env (q : RxState) : (s.withRxState q).env = s.env := rfl
@[simp] theorem State.withRxState_port (q : RxState) : (s.withRxState q).port = s.port := rfl
@[simp] theorem State.withRxState_sel (q : RxState) : (s.withRxState q).sel = s.sel := rfl
@[simp] theorem State.withRxState_result (q : RxState) : (s.withRxState q).result = s.result := rfl
@[simp] theorem State.withRxState_rx_buf (q : RxState) : (s.withRxState q).rx.buf = s.rx.buf := rfl
@[simp] theorem State.withRxState_rx_cnt (q : RxState) : (s.withRxState q).rx.cnt = s.rx.cnt := rfl
@[simp] theorem State.withRxState_rx_exp (q : RxState) : (s.withRxState q).rx.exp = s.rx.exp := rfl
@[simp] theorem State.withRxState_rx_len (q : RxState) : (s.withRxState q).rx.len = s.rx.len := rfl
@[simp] theorem State.withRxState_rx_deadline (q : RxState) : (s.withRxState q).rx.deadline = s.rx.deadline := rfl
@[simp] theorem State.withRxState_rx_state (q : RxState) : (s.withRxState q).rx.state = q := rfl

/-! ### coreReset (R33, R210) -/

@[simp] theorem coreReset_params : (coreReset s).params = s.params := rfl
@[simp] theorem coreReset_connected : (coreReset s).connected = false := rfl
@[simp] theorem coreReset_T : (coreReset s).T = Vector.replicate 18 .unwritten := rfl
@[simp] theorem coreReset_crc : (coreReset s).crc = 0 := rfl
@[simp] theorem coreReset_txCount : (coreReset s).txCount = 0 := rfl
@[simp] theorem coreReset_rx : (coreReset s).rx = Rx.reset := rfl
@[simp] theorem coreReset_val : (coreReset s).val = Val.reset := rfl
@[simp] theorem coreReset_cur : (coreReset s).cur = 0 := rfl
@[simp] theorem coreReset_decStep : (coreReset s).decStep = 0 := rfl
@[simp] theorem coreReset_stage : (coreReset s).stage = Vector.replicate 18 .unwritten := rfl
@[simp] theorem coreReset_seqState : (coreReset s).seqState = .idle := rfl
@[simp] theorem coreReset_outcome : (coreReset s).outcome = .none := rfl
@[simp] theorem coreReset_bound : (coreReset s).bound = false := rfl
@[simp] theorem coreReset_env : (coreReset s).env = s.env := rfl
@[simp] theorem coreReset_port : (coreReset s).port = s.port := rfl
@[simp] theorem coreReset_sel : (coreReset s).sel = s.sel := rfl
@[simp] theorem coreReset_result : (coreReset s).result = .none := rfl

/-! ### taken -/

@[simp] theorem taken_params (rest : List Byte) : (taken s rest).params = s.params := rfl
@[simp] theorem taken_connected (rest : List Byte) : (taken s rest).connected = s.connected := rfl
@[simp] theorem taken_T (rest : List Byte) : (taken s rest).T = s.T := rfl
@[simp] theorem taken_crc (rest : List Byte) : (taken s rest).crc = s.crc := rfl
@[simp] theorem taken_txCount (rest : List Byte) : (taken s rest).txCount = s.txCount := rfl
@[simp] theorem taken_rx (rest : List Byte) : (taken s rest).rx = s.rx := rfl
@[simp] theorem taken_val (rest : List Byte) : (taken s rest).val = s.val := rfl
@[simp] theorem taken_cur (rest : List Byte) : (taken s rest).cur = s.cur := rfl
@[simp] theorem taken_decStep (rest : List Byte) : (taken s rest).decStep = s.decStep := rfl
@[simp] theorem taken_stage (rest : List Byte) : (taken s rest).stage = s.stage := rfl
@[simp] theorem taken_seqState (rest : List Byte) : (taken s rest).seqState = s.seqState := rfl
@[simp] theorem taken_outcome (rest : List Byte) : (taken s rest).outcome = s.outcome := rfl
@[simp] theorem taken_bound (rest : List Byte) : (taken s rest).bound = s.bound := rfl
@[simp] theorem taken_env (rest : List Byte) : (taken s rest).env = s.env := rfl
@[simp] theorem taken_port (rest : List Byte) : (taken s rest).port = rest := rfl
@[simp] theorem taken_sel (rest : List Byte) : (taken s rest).sel = .cmd := rfl
@[simp] theorem taken_result (rest : List Byte) : (taken s rest).result = s.result := rfl

/-! ### startReceive (R120) -/

@[simp] theorem startReceive_params : (startReceive s).params = s.params := rfl
@[simp] theorem startReceive_connected : (startReceive s).connected = s.connected := rfl
@[simp] theorem startReceive_T : (startReceive s).T = s.T := rfl
@[simp] theorem startReceive_crc : (startReceive s).crc = s.crc := rfl
@[simp] theorem startReceive_txCount : (startReceive s).txCount = s.txCount := rfl
@[simp] theorem startReceive_cur : (startReceive s).cur = s.cur := rfl
@[simp] theorem startReceive_decStep : (startReceive s).decStep = s.decStep := rfl
@[simp] theorem startReceive_stage : (startReceive s).stage = s.stage := rfl
@[simp] theorem startReceive_seqState : (startReceive s).seqState = s.seqState := rfl
@[simp] theorem startReceive_outcome : (startReceive s).outcome = s.outcome := rfl
@[simp] theorem startReceive_bound : (startReceive s).bound = s.bound := rfl
@[simp] theorem startReceive_env : (startReceive s).env = s.env := rfl
@[simp] theorem startReceive_port : (startReceive s).port = s.port := rfl
@[simp] theorem startReceive_sel : (startReceive s).sel = s.sel := rfl
@[simp] theorem startReceive_result : (startReceive s).result = s.result := rfl
@[simp] theorem startReceive_rx_state : (startReceive s).rx.state = .accumulating := rfl
@[simp] theorem startReceive_rx_buf : (startReceive s).rx.buf = s.rx.buf := rfl
@[simp] theorem startReceive_rx_cnt : (startReceive s).rx.cnt = 0 := rfl
@[simp] theorem startReceive_rx_exp : (startReceive s).rx.exp = none := rfl
@[simp] theorem startReceive_rx_len : (startReceive s).rx.len = 0 := rfl
@[simp] theorem startReceive_rx_deadline : (startReceive s).rx.deadline = s.env.now + s.params.timeoutMs := rfl
@[simp] theorem startReceive_val_buf : (startReceive s).val.buf = s.val.buf := rfl
@[simp] theorem startReceive_val_len : (startReceive s).val.len = s.val.len := rfl
@[simp] theorem startReceive_val_crcRx : (startReceive s).val.crcRx = s.val.crcRx := rfl
@[simp] theorem startReceive_val_crcCalc : (startReceive s).val.crcCalc = s.val.crcCalc := rfl
@[simp] theorem startReceive_val_ok : (startReceive s).val.ok = false := rfl

/-! ### accumulate (R123): the receiver's registers only -/

@[simp] theorem accumulate_params (b : Byte) : (accumulate b s).params = s.params := rfl
@[simp] theorem accumulate_connected (b : Byte) : (accumulate b s).connected = s.connected := rfl
@[simp] theorem accumulate_T (b : Byte) : (accumulate b s).T = s.T := rfl
@[simp] theorem accumulate_crc (b : Byte) : (accumulate b s).crc = s.crc := rfl
@[simp] theorem accumulate_txCount (b : Byte) : (accumulate b s).txCount = s.txCount := rfl
@[simp] theorem accumulate_val (b : Byte) : (accumulate b s).val = s.val := rfl
@[simp] theorem accumulate_cur (b : Byte) : (accumulate b s).cur = s.cur := rfl
@[simp] theorem accumulate_decStep (b : Byte) : (accumulate b s).decStep = s.decStep := rfl
@[simp] theorem accumulate_stage (b : Byte) : (accumulate b s).stage = s.stage := rfl
@[simp] theorem accumulate_seqState (b : Byte) : (accumulate b s).seqState = s.seqState := rfl
@[simp] theorem accumulate_outcome (b : Byte) : (accumulate b s).outcome = s.outcome := rfl
@[simp] theorem accumulate_bound (b : Byte) : (accumulate b s).bound = s.bound := rfl
@[simp] theorem accumulate_env (b : Byte) : (accumulate b s).env = s.env := rfl
@[simp] theorem accumulate_port (b : Byte) : (accumulate b s).port = s.port := rfl
@[simp] theorem accumulate_sel (b : Byte) : (accumulate b s).sel = s.sel := rfl
@[simp] theorem accumulate_result (b : Byte) : (accumulate b s).result = s.result := rfl
@[simp] theorem accumulate_rx_buf (b : Byte) : (accumulate b s).rx.buf = Mem.write s.rx.buf s.rx.cnt b := rfl
@[simp] theorem accumulate_rx_cnt (b : Byte) : (accumulate b s).rx.cnt = s.rx.cnt + 1 := rfl
@[simp] theorem accumulate_rx_deadline (b : Byte) : (accumulate b s).rx.deadline = s.rx.deadline := rfl

/-! ### the end of a REFRESH (R195, R196) -/

@[simp] theorem returnToIdle_params : (returnToIdle s).params = s.params := rfl
@[simp] theorem returnToIdle_connected : (returnToIdle s).connected = s.connected := rfl
@[simp] theorem returnToIdle_T : (returnToIdle s).T = s.T := rfl
@[simp] theorem returnToIdle_crc : (returnToIdle s).crc = s.crc := rfl
@[simp] theorem returnToIdle_txCount : (returnToIdle s).txCount = s.txCount := rfl
@[simp] theorem returnToIdle_rx : (returnToIdle s).rx = s.rx := rfl
@[simp] theorem returnToIdle_val : (returnToIdle s).val = s.val := rfl
@[simp] theorem returnToIdle_cur : (returnToIdle s).cur = s.cur := rfl
@[simp] theorem returnToIdle_decStep : (returnToIdle s).decStep = s.decStep := rfl
@[simp] theorem returnToIdle_stage : (returnToIdle s).stage = s.stage := rfl
@[simp] theorem returnToIdle_seqState : (returnToIdle s).seqState = .idle := rfl
@[simp] theorem returnToIdle_outcome : (returnToIdle s).outcome = s.outcome := rfl
@[simp] theorem returnToIdle_bound : (returnToIdle s).bound = s.bound := rfl
@[simp] theorem returnToIdle_env : (returnToIdle s).env = s.env := rfl
@[simp] theorem returnToIdle_port : (returnToIdle s).port = s.port := rfl
@[simp] theorem returnToIdle_sel : (returnToIdle s).sel = s.sel := rfl
@[simp] theorem returnToIdle_result : (returnToIdle s).result = .record s.connected s.T := rfl

@[simp] theorem failRefresh_params (via : SeqState) (code : OutcomeCode) : (failRefresh via code s).params = s.params := rfl
@[simp] theorem failRefresh_connected (via : SeqState) (code : OutcomeCode) : (failRefresh via code s).connected = false := rfl
@[simp] theorem failRefresh_T (via : SeqState) (code : OutcomeCode) : (failRefresh via code s).T = s.T := rfl
@[simp] theorem failRefresh_crc (via : SeqState) (code : OutcomeCode) : (failRefresh via code s).crc = s.crc := rfl
@[simp] theorem failRefresh_txCount (via : SeqState) (code : OutcomeCode) : (failRefresh via code s).txCount = s.txCount := rfl
@[simp] theorem failRefresh_rx (via : SeqState) (code : OutcomeCode) : (failRefresh via code s).rx = s.rx := rfl
@[simp] theorem failRefresh_val (via : SeqState) (code : OutcomeCode) : (failRefresh via code s).val = s.val := rfl
@[simp] theorem failRefresh_cur (via : SeqState) (code : OutcomeCode) : (failRefresh via code s).cur = s.cur := rfl
@[simp] theorem failRefresh_decStep (via : SeqState) (code : OutcomeCode) : (failRefresh via code s).decStep = s.decStep := rfl
@[simp] theorem failRefresh_stage (via : SeqState) (code : OutcomeCode) : (failRefresh via code s).stage = s.stage := rfl
@[simp] theorem failRefresh_seqState (via : SeqState) (code : OutcomeCode) : (failRefresh via code s).seqState = .idle := rfl
@[simp] theorem failRefresh_outcome (via : SeqState) (code : OutcomeCode) : (failRefresh via code s).outcome = code := rfl
@[simp] theorem failRefresh_bound (via : SeqState) (code : OutcomeCode) : (failRefresh via code s).bound = s.bound := rfl
@[simp] theorem failRefresh_env (via : SeqState) (code : OutcomeCode) : (failRefresh via code s).env = s.env := rfl
@[simp] theorem failRefresh_port (via : SeqState) (code : OutcomeCode) : (failRefresh via code s).port = s.port := rfl
@[simp] theorem failRefresh_sel (via : SeqState) (code : OutcomeCode) : (failRefresh via code s).sel = s.sel := rfl
@[simp] theorem failRefresh_result (via : SeqState) (code : OutcomeCode) : (failRefresh via code s).result = .record false s.T := rfl

@[simp] theorem succeedRefresh_params : (succeedRefresh s).params = s.params := rfl
@[simp] theorem succeedRefresh_connected : (succeedRefresh s).connected = true := rfl
@[simp] theorem succeedRefresh_T : (succeedRefresh s).T = s.T := rfl
@[simp] theorem succeedRefresh_crc : (succeedRefresh s).crc = s.crc := rfl
@[simp] theorem succeedRefresh_txCount : (succeedRefresh s).txCount = s.txCount := rfl
@[simp] theorem succeedRefresh_rx : (succeedRefresh s).rx = s.rx := rfl
@[simp] theorem succeedRefresh_val : (succeedRefresh s).val = s.val := rfl
@[simp] theorem succeedRefresh_cur : (succeedRefresh s).cur = s.cur := rfl
@[simp] theorem succeedRefresh_decStep : (succeedRefresh s).decStep = s.decStep := rfl
@[simp] theorem succeedRefresh_stage : (succeedRefresh s).stage = s.stage := rfl
@[simp] theorem succeedRefresh_seqState : (succeedRefresh s).seqState = .idle := rfl
@[simp] theorem succeedRefresh_outcome : (succeedRefresh s).outcome = .decoded := rfl
@[simp] theorem succeedRefresh_bound : (succeedRefresh s).bound = s.bound := rfl
@[simp] theorem succeedRefresh_env : (succeedRefresh s).env = s.env := rfl
@[simp] theorem succeedRefresh_port : (succeedRefresh s).port = s.port := rfl
@[simp] theorem succeedRefresh_sel : (succeedRefresh s).sel = s.sel := rfl
@[simp] theorem succeedRefresh_result : (succeedRefresh s).result = .record true s.T := rfl

/-! ### commit (R163) -/

@[simp] theorem commit_params : (commit s).params = s.params := rfl
@[simp] theorem commit_connected : (commit s).connected = s.connected := rfl
@[simp] theorem commit_T : (commit s).T = s.stage := rfl
@[simp] theorem commit_crc : (commit s).crc = s.crc := rfl
@[simp] theorem commit_txCount : (commit s).txCount = s.txCount := rfl
@[simp] theorem commit_rx : (commit s).rx = s.rx := rfl
@[simp] theorem commit_val : (commit s).val = s.val := rfl
@[simp] theorem commit_cur : (commit s).cur = s.cur := rfl
@[simp] theorem commit_decStep : (commit s).decStep = 0 := rfl
@[simp] theorem commit_stage : (commit s).stage = s.stage := rfl
@[simp] theorem commit_seqState : (commit s).seqState = s.seqState := rfl
@[simp] theorem commit_outcome : (commit s).outcome = s.outcome := rfl
@[simp] theorem commit_bound : (commit s).bound = s.bound := rfl
@[simp] theorem commit_env : (commit s).env = s.env := rfl
@[simp] theorem commit_port : (commit s).port = s.port := rfl
@[simp] theorem commit_sel : (commit s).sel = s.sel := rfl
@[simp] theorem commit_result : (commit s).result = s.result := rfl

end Sys2Proof.Machine
end

