-- ==== Sys2Proof/Laws/Ops.lean ====
section
/-! SUPPORT. One lemma per shared operation: what it can do when it answers a next state, and what the outside world can do at an
interleaving point. -/

namespace Sys2Proof.Machine

/-! ### Results -/

@[simp] theorem andThen_next {α β : Type} (a : α) (k : α → Res β) : andThen (.next a) k = k a := rfl
@[simp] theorem andThen_fault {α β : Type} (f : Fault) (k : α → Res β) : andThen (.fault f) k = .fault f := rfl
@[simp] theorem andThen_refused {α β : Type} (r : Refusal) (k : α → Res β) : andThen (.refused r) k = .refused r := rfl

theorem andThen_eq_next {α β : Type} {x : Res α} {k : α → Res β} {b : β} :
    andThen x k = .next b ↔ ∃ a, x = .next a ∧ k a = .next b := by
  cases x <;> simp

theorem andThen_eq_fault {α β : Type} {x : Res α} {k : α → Res β} {f : Fault} :
    andThen x k = .fault f ↔ x = .fault f ∨ ∃ a, x = .next a ∧ k a = .fault f := by
  cases x <;> simp

@[simp] theorem whenIdle_idle {s : State} (h : s.seqState = .idle) (k : Res State) : whenIdle s k = k := by
  simp [whenIdle, h]

@[simp] theorem whenIdle_busy {s : State} (h : s.seqState ≠ .idle) (k : Res State) : whenIdle s k = .refused .busy := by
  simp [whenIdle, h]

theorem whenIdle_eq_next {s : State} {k : Res State} {t : State} :
    whenIdle s k = .next t ↔ s.seqState = .idle ∧ k = .next t := by
  by_cases h : s.seqState = .idle <;> simp [whenIdle, h]

theorem whenIdle_eq_fault {s : State} {k : Res State} {f : Fault} :
    whenIdle s k = .fault f ↔ s.seqState = .idle ∧ k = .fault f := by
  by_cases h : s.seqState = .idle <;> simp [whenIdle, h]

theorem done_eq_next {r : Result} {s t : State} : done r s = .next t ↔ s.withResult r = t := by
  simp [done]

@[simp] theorem done_ne_fault {r : Result} {s : State} {f : Fault} : done r s ≠ .fault f := by simp [done]

/-! ### The outside world -/

@[simp] theorem applyOutside_params (s : State) (o : Outside) : (applyOutside s o).params = s.params := by cases o <;> rfl
@[simp] theorem applyOutside_port (s : State) (o : Outside) : (applyOutside s o).port = s.port := by cases o <;> rfl
@[simp] theorem applyOutside_sel (s : State) (o : Outside) : (applyOutside s o).sel = s.sel := by cases o <;> rfl

/-- The environment after a batch: the batch's bytes are queued, its milliseconds have passed. A reset in it changes nothing here (R210). -/
theorem foldl_applyOutside_env (batch : List Outside) : ∀ s : State,
    (batch.foldl applyOutside s).env =
      { s.env with rxFifo := s.env.rxFifo ++ bytesIn batch, now := s.env.now + ticksIn batch } := by
  induction batch with
  | nil => intro s; simp [bytesIn, ticksIn]
  | cons o batch ih =>
    intro s
    simp only [List.foldl_cons, ih]
    cases o <;> simp [applyOutside, bytesIn, ticksIn, Nat.add_assoc]

/-- The CORE after a batch: untouched, or reset. -/
theorem foldl_applyOutside_core (batch : List Outside) : ∀ s : State,
    (Outside.reset ∉ batch ∧ batch.foldl applyOutside s = s.withEnv (batch.foldl applyOutside s).env) ∨
    (Outside.reset ∈ batch ∧ batch.foldl applyOutside s = (coreReset s).withEnv (batch.foldl applyOutside s).env) := by
  induction batch with
  | nil => intro s; left; exact ⟨by simp, rfl⟩
  | cons o batch ih =>
    intro s
    rw [List.foldl_cons]
    cases o with
    | reset =>
      right
      refine ⟨by simp, ?_⟩
      rcases ih (applyOutside s .reset) with ⟨_, h⟩ | ⟨_, h⟩ <;> (rw [h]; rfl)
    | push b =>
      rcases ih (applyOutside s (.push b)) with ⟨hn, h⟩ | ⟨hn, h⟩
      · left; refine ⟨by simpa using hn, ?_⟩; rw [h]; rfl
      · right; refine ⟨by simpa using hn, ?_⟩; rw [h]; rfl
    | tick d =>
      rcases ih (applyOutside s (.tick d)) with ⟨hn, h⟩ | ⟨hn, h⟩
      · left; refine ⟨by simpa using hn, ?_⟩; rw [h]; rfl
      · right; refine ⟨by simpa using hn, ?_⟩; rw [h]; rfl

/-- The environment after an interleaving point. -/
theorem interleave_env (s : State) : (interleave s).env =
    { s.env with
      rxFifo := s.env.rxFifo ++ bytesIn (s.env.script.headD []), now := s.env.now + ticksIn (s.env.script.headD []),
      script := s.env.script.tail } := by
  unfold interleave
  split
  · rename_i h
    cases hs : s.env with
    | mk f n l sc r d => rw [hs] at h; simp only at h; subst h; simp [bytesIn, ticksIn]
  · rename_i batch rest h
    rw [foldl_applyOutside_env, h]; rfl

/-- The CORE after an interleaving point with no reset: untouched. -/
theorem interleave_quiet {s : State} (h : quietPoint s) : interleave s = s.withEnv (interleave s).env := by
  unfold interleave
  split
  · rfl
  · rename_i batch rest hs
    have hb : Outside.reset ∉ batch := h batch (by rw [hs]; rfl)
    rcases foldl_applyOutside_core batch (s.withEnv { s.env with script := rest }) with ⟨_, e⟩ | ⟨hr, _⟩
    · rw [e]; rfl
    · exact absurd hr hb

/-- The CORE after an interleaving point: untouched, or reset. -/
theorem interleave_core (s : State) :
    interleave s = s.withEnv (interleave s).env ∨ interleave s = (coreReset s).withEnv (interleave s).env := by
  unfold interleave
  split
  · exact .inl rfl
  · rename_i batch rest hs
    rcases foldl_applyOutside_core batch (s.withEnv { s.env with script := rest }) with ⟨_, e⟩ | ⟨_, e⟩
    · left; rw [e]; rfl
    · right; rw [e]; rfl

/-- The CORE after an interleaving point with a reset: reset. -/
theorem interleave_reset {s : State} {batch : List Outside} {more : List (List Outside)} (hs : s.env.script = batch :: more)
    (hr : Outside.reset ∈ batch) : interleave s = coreReset (interleave s) := by
  unfold interleave
  rw [hs]
  rcases foldl_applyOutside_core batch (s.withEnv { s.env with script := more }) with ⟨hn, _⟩ | ⟨_, e⟩
  · exact absurd hr hn
  · simp only; rw [e]; rfl

theorem coreReset_withEnv {s : State} (h : s = coreReset s) (e : Env) : s.withEnv e = coreReset (s.withEnv e) := by
  rw [h]; rfl

@[simp] theorem interleave_params (s : State) : (interleave s).params = s.params := by
  rcases interleave_core s with h | h <;> (rw [h]; rfl)
@[simp] theorem interleave_port (s : State) : (interleave s).port = s.port := by
  rcases interleave_core s with h | h <;> (rw [h]; rfl)
@[simp] theorem interleave_sel (s : State) : (interleave s).sel = s.sel := by
  rcases interleave_core s with h | h <;> (rw [h]; rfl)

@[simp] theorem interleave_script (s : State) : (interleave s).env.script = s.env.script.tail := by
  rw [interleave_env]

theorem interleave_nil {s : State} (h : s.env.script = []) : interleave s = s := by
  unfold interleave; rw [h]

theorem noReset.quiet {s : State} (h : noReset s) : quietPoint s := by
  intro b hb
  exact h b (List.mem_of_mem_head? hb)

/-- No reset is left after an interleaving point either, wherever the rest of the script is kept. -/
theorem noReset.tail {s t : State} (h : noReset s) (ht : t.env.script = s.env.script.tail) : noReset t := by
  intro b hb
  rw [ht] at hb
  exact h b (List.mem_of_mem_tail hb)

theorem noReset.interleave {s : State} (h : noReset s) : noReset (interleave s) := h.tail (interleave_script s)

/-! ### The transport -/

theorem writeReply_le (e : Env) (n : Nat) : writeReply e n ≤ n := by
  unfold writeReply
  split
  · exact Nat.min_le_right _ _
  · exact Nat.le_of_lt_succ (Nat.mod_lt _ (Nat.succ_pos n))

@[simp] theorem writeEnv_txLog (e : Env) (f : List Byte) : (writeEnv e f).txLog = e.txLog ++ [f] := by
  unfold writeEnv; split <;> rfl
@[simp] theorem writeEnv_rxFifo (e : Env) (f : List Byte) : (writeEnv e f).rxFifo = e.rxFifo := by
  unfold writeEnv; split <;> rfl
@[simp] theorem writeEnv_now (e : Env) (f : List Byte) : (writeEnv e f).now = e.now := by
  unfold writeEnv; split <;> rfl
@[simp] theorem writeEnv_script (e : Env) (f : List Byte) : (writeEnv e f).script = e.script := by
  unfold writeEnv; split <;> rfl

theorem transmit_bound {s : State} (h : s.bound = true) (f : List Byte) : transmit f s =
    { s with env := writeEnv s.env f, txCount := writeReply s.env f.length, result := .count (writeReply s.env f.length) } := by
  simp [transmit, h]

theorem transmit_unbound {s : State} (h : s.bound = false) (f : List Byte) :
    transmit f s = { s with txCount := 0, result := .count 0 } := by
  simp [transmit, h]

/-- All that a transmission can do: the environment's log and reply, the count, the result. -/
theorem transmit_cases (f : List Byte) (s : State) : ∃ e n,
    transmit f s = { s with env := e, txCount := n, result := .count n } ∧ n ≤ f.length ∧
      e.rxFifo = s.env.rxFifo ∧ e.now = s.env.now ∧ e.script = s.env.script ∧
      ((s.bound = true ∧ e.txLog = s.env.txLog ++ [f]) ∨ (s.bound = false ∧ e = s.env ∧ n = 0)) := by
  by_cases h : s.bound = true
  · exact ⟨_, _, transmit_bound h f, writeReply_le _ _, by simp, by simp, by simp, .inl ⟨h, by simp⟩⟩
  · have h : s.bound = false := by simpa using h
    exact ⟨s.env, 0, transmit_unbound h f, Nat.zero_le _, rfl, rfl, rfl, .inr ⟨h, rfl, rfl⟩⟩

end Sys2Proof.Machine
end

