-- ==== Sys2Proof/Laws/Receiver.lean ====
section
/-! SUPPORT. What the receiver's loops do: with no reset scripted, each is a run of interleaving points and accumulated bytes. -/

namespace Sys2Proof.Machine

/-! ### Accumulating a sequence of bytes -/

/-- Accumulate bytes one after another. -/
def absorb (bs : List Byte) (s : State) : State := bs.foldl (fun s b => accumulate b s) s

@[simp] theorem absorb_nil (s : State) : absorb [] s = s := rfl
@[simp] theorem absorb_cons (b : Byte) (bs : List Byte) (s : State) : absorb (b :: bs) s = absorb bs (accumulate b s) := rfl

theorem accumulate_withEnv (b : Byte) (s : State) (e : Env) :
    accumulate b (s.withEnv e) = (accumulate b s).withEnv e := rfl

theorem absorb_withEnv (bs : List Byte) : ∀ (s : State) (e : Env), absorb bs (s.withEnv e) = (absorb bs s).withEnv e := by
  induction bs with
  | nil => intro s e; rfl
  | cons b bs ih => intro s e; simp only [absorb_cons, accumulate_withEnv, ih]

/-- Only the receiver's registers change. -/
theorem absorb_core (bs : List Byte) : ∀ s : State, absorb bs s = s.withRx (absorb bs s).rx := by
  induction bs with
  | nil => intro s; rfl
  | cons b bs ih => intro s; rw [absorb_cons, ih]; rfl

@[simp] theorem absorb_env (bs : List Byte) (s : State) : (absorb bs s).env = s.env := by rw [absorb_core]; rfl
@[simp] theorem absorb_params (bs : List Byte) (s : State) : (absorb bs s).params = s.params := by rw [absorb_core]; rfl

theorem absorb_rx_cnt (bs : List Byte) : ∀ s : State, (absorb bs s).rx.cnt = s.rx.cnt + bs.length := by
  induction bs with
  | nil => intro s; rfl
  | cons b bs ih => intro s; rw [absorb_cons, ih]; simp; omega

theorem absorb_rx_buf (bs : List Byte) : ∀ s : State,
    (absorb bs s).rx.buf = Mem.writeBytes s.rx.buf s.rx.cnt bs := by
  induction bs with
  | nil => intro s; rfl
  | cons b bs ih => intro s; rw [absorb_cons, ih]; rfl

@[simp] theorem absorb_rx_deadline (bs : List Byte) : ∀ s : State, (absorb bs s).rx.deadline = s.rx.deadline := by
  induction bs with
  | nil => intro s; rfl
  | cons b bs ih => intro s; rw [absorb_cons, ih]; rfl

theorem stateAfterByte_ne_timedOut {cap cnt : Nat} {exp : Option Nat} {b : Byte} {old : RxState} (h : old ≠ .timedOut) :
    stateAfterByte cap exp cnt b old ≠ .timedOut := by
  unfold stateAfterByte; split
  · simp
  · split
    · simp
    · exact h

theorem stateAfterByte_ne_idle {cap cnt : Nat} {exp : Option Nat} {b : Byte} {old : RxState} (h : old ≠ .idle) :
    stateAfterByte cap exp cnt b old ≠ .idle := by
  unfold stateAfterByte; split
  · simp
  · split
    · simp
    · exact h

@[simp] theorem accumulate_rx_state (b : Byte) (s : State) : (accumulate b s).rx.state =
    stateAfterByte s.params.rxCap
      (if headerSeen (Mem.write s.rx.buf s.rx.cnt b) (s.rx.cnt + 1) then some (b.toNat + 5) else s.rx.exp)
      (s.rx.cnt + 1) b s.rx.state := rfl

/-- Accumulating in a receive in progress is R123 as written out. -/
theorem accumulate_rx {s : State} (ha : s.rx.state = .accumulating) (b : Byte) :
    (accumulate b s).rx = receiveByte s.params.rxCap s.rx b := by
  simp only [accumulate, State.withRx, headerSeen, stateAfterByte, receiveByte, Config.markShort, Config.term, ha]
  simp

/-- A stretch of bytes, the receive in progress before each, is R123 byte by byte. -/
theorem absorb_rx : ∀ (bs : List Byte) (s : State), (∀ k, k < bs.length → (absorb (bs.take k) s).rx.state = .accumulating) →
    (absorb bs s).rx = bs.foldl (receiveByte s.params.rxCap) s.rx := by
  intro bs
  induction bs with
  | nil => intro s _; rfl
  | cons b bs ih =>
    intro s h
    have ha : s.rx.state = .accumulating := h 0 (by simp)
    rw [absorb_cons, ih (accumulate b s) (fun k hk => h (k + 1) (by simpa using hk)), accumulate_rx ha]
    rfl

/-- Every beginning of a stretch is one too. -/
theorem absorb_rx_take {bs : List Byte} {s : State} (h : ∀ k, k < bs.length → (absorb (bs.take k) s).rx.state = .accumulating)
    {k : Nat} (hk : k < bs.length) : (absorb (bs.take k) s).rx = (bs.take k).foldl (receiveByte s.params.rxCap) s.rx :=
  absorb_rx _ _ (fun j hj => by
    have hj' : j < k := by simp at hj; omega
    rw [List.take_take, Nat.min_eq_left (by omega)]; exact h j (by omega))

/-! ### A stretch of the receive without reset -/

/-- From `s` to `t` the outside world used up `used` of the script and the CORE accumulated `bs`, each byte while Accumulating. -/
structure Stretch (s t : State) (used : List (List Outside)) (bs : List Byte) : Prop where
  core : t = (absorb bs s).withEnv t.env
  script : s.env.script = used ++ t.env.script
  queue : s.env.rxFifo ++ bytesOf used = bs ++ t.env.rxFifo
  clock : t.env.now = s.env.now + ticksOf used
  rest : t.env = { s.env with rxFifo := t.env.rxFifo, now := t.env.now, script := t.env.script }
  live : ∀ k, k < bs.length → (absorb (bs.take k) s).rx.state = .accumulating

@[simp] theorem bytesOf_nil : bytesOf [] = [] := rfl
@[simp] theorem ticksOf_nil : ticksOf [] = 0 := rfl
theorem bytesOf_append (a b : List (List Outside)) : bytesOf (a ++ b) = bytesOf a ++ bytesOf b := by simp [bytesOf]
theorem ticksOf_append (a b : List (List Outside)) : ticksOf (a ++ b) = ticksOf a + ticksOf b := by simp [ticksOf]
@[simp] theorem bytesOf_cons (a : List Outside) (b : List (List Outside)) : bytesOf (a :: b) = bytesIn a ++ bytesOf b := rfl
@[simp] theorem ticksOf_cons (a : List Outside) (b : List (List Outside)) : ticksOf (a :: b) = ticksIn a + ticksOf b := by
  simp [ticksOf]

theorem Stretch.refl (s : State) : Stretch s s [] [] where
  core := rfl
  script := rfl
  queue := by simp
  clock := by simp
  rest := rfl
  live := by simp

theorem Stretch.trans {s t u : State} {used₁ used₂ : List (List Outside)} {bs₁ bs₂ : List Byte}
    (h₁ : Stretch s t used₁ bs₁) (h₂ : Stretch t u used₂ bs₂) : Stretch s u (used₁ ++ used₂) (bs₁ ++ bs₂) where
  core := by
    rw [h₂.core, h₁.core, absorb_withEnv]
    simp only [absorb, List.foldl_append]
    rfl
  script := by rw [h₁.script, h₂.script, List.append_assoc]
  queue := by rw [bytesOf_append, ← List.append_assoc, h₁.queue, List.append_assoc, h₂.queue, List.append_assoc]
  clock := by rw [ticksOf_append, h₂.clock, h₁.clock]; omega
  rest := by rw [h₂.rest, h₁.rest]
  live := by
    intro k hk
    by_cases hk₁ : k < bs₁.length
    · rw [List.take_append_of_le_length (by omega)]; exact h₁.live k hk₁
    · have := h₂.live (k - bs₁.length) (by simp at hk; omega)
      rw [h₁.core, absorb_withEnv] at this
      rw [List.take_append, List.take_of_length_le (by omega)]
      simpa [absorb, List.foldl_append] using this

/-- The transmit log stays. -/
theorem Stretch.log {s t : State} {used : List (List Outside)} {bs : List Byte} (h : Stretch s t used bs) :
    t.env.txLog = s.env.txLog := by
  rw [h.rest]

theorem Stretch.noReset {s t : State} {used : List (List Outside)} {bs : List Byte} (h : Stretch s t used bs)
    (hs : noReset s) : noReset t := by
  intro b hb
  exact hs b (by rw [h.script]; exact List.mem_append_right _ hb)

/-- An interleaving point with no reset is a stretch without bytes. -/
theorem Stretch.point {s : State} (h : quietPoint s) :
    ∃ used, Stretch s (interleave s) used [] ∧ used = s.env.script.take 1 := by
  refine ⟨s.env.script.take 1, ⟨interleave_quiet h, ?_, ?_, ?_, ?_, by simp⟩, rfl⟩
  · rw [interleave_script]; cases s.env.script <;> simp
  · rw [interleave_env]; cases s.env.script <;> simp [bytesIn]
  · rw [interleave_env]; cases s.env.script <;> simp [ticksIn]
  · rw [interleave_env]

/-- Reading and accumulating the head byte is a stretch of one byte. -/
theorem Stretch.read {s : State} {b : Byte} {q : List Byte} (hq : s.env.rxFifo = b :: q) (ha : s.rx.state = .accumulating) :
    Stretch s (readAndAccumulate s) [] [b] := by
  have e : readAndAccumulate s = (accumulate b s).withEnv { s.env with rxFifo := q } := by
    unfold readAndAccumulate; rw [hq]; rfl
  rw [e]
  refine ⟨rfl, rfl, by simp [hq], by simp, rfl, ?_⟩
  intro k hk
  have : k = 0 := by simpa using hk
  subst this; simpa using ha

/-- RX.BYTE, with a byte waiting, is a stretch of that byte. -/
theorem Stretch.rxByte {s : State} {b : Byte} {q : List Byte} (hs : quietPoint s) (hq : s.env.rxFifo = b :: q)
    (ha : s.rx.state = .accumulating) :
    Stretch s (rxByteOp s) (s.env.script.take 1) [b] := by
  obtain ⟨used, hp, rfl⟩ := Stretch.point hs
  have hq' : (interleave s).env.rxFifo = b :: (q ++ bytesIn (s.env.script.headD [])) := by
    rw [interleave_env, hq]; rfl
  have ha' : (interleave s).rx.state = .accumulating := by rw [interleave_quiet hs]; exact ha
  have := hp.trans (Stretch.read hq' ha')
  unfold rxByteOp
  simp only [ha', if_true]
  simpa using this

theorem pushesIn_eq (batch : List Outside) : pushesIn batch = (bytesIn batch).length := by
  induction batch with
  | nil => rfl
  | cons o batch ih => cases o <;> simp_all [pushesIn, bytesIn]

theorem bytesToCome_eq (e : Env) : bytesToCome e = e.rxFifo.length + (bytesOf e.script).length := by
  unfold bytesToCome
  congr 1
  induction e.script with
  | nil => rfl
  | cons b l ih => simp [pushesIn_eq, ih]

theorem Stretch.toCome {s t : State} {used : List (List Outside)} {bs : List Byte} (h : Stretch s t used bs) :
    bytesToCome t.env + bs.length = bytesToCome s.env := by
  have := congrArg List.length h.queue
  rw [bytesToCome_eq, bytesToCome_eq, h.script, bytesOf_append]
  simp at this ⊢
  omega

/-- The drain with no reset: a stretch, after which a receive still in progress leaves nothing waiting. -/
theorem drain_stretch : ∀ (fuel : Nat) (s : State), noReset s → bytesToCome s.env < fuel →
    ∃ used bs, Stretch s (drain fuel s) used bs ∧
      ((drain fuel s).rx.state = .accumulating → (drain fuel s).env.rxFifo = []) := by
  intro fuel
  induction fuel with
  | zero => intro s _ h; omega
  | succ fuel ih =>
    intro s hs hf
    unfold drain
    split
    · rename_i ha
      obtain ⟨used, hp, hu⟩ := Stretch.point hs.quiet
      have ha' : (interleave s).rx.state = .accumulating := by rw [interleave_quiet hs.quiet]; exact ha
      have hs' := hs.interleave
      cases hq : (interleave s).env.rxFifo with
      | nil =>
        rw [if_neg (by simp [transportAvailable, hq])]
        exact ⟨_, _, hp, fun _ => hq⟩
      | cons b q =>
        rw [if_pos ⟨ha', by simp [transportAvailable, hq]⟩]
        have hb := Stretch.rxByte hs'.quiet hq ha'
        have hpb := hp.trans hb
        obtain ⟨used', bs, hd, hend⟩ := ih (rxByteOp (interleave s)) (hb.noReset hs') (by
          have := hpb.toCome; simp at this; omega)
        exact ⟨_, _, hpb.trans hd, hend⟩
    · rename_i ha
      exact ⟨_, _, Stretch.refl s, fun h => absurd h ha⟩

/-- A poll iteration past the deadline: the clock sample, and TimedOut (R121). -/
theorem pollOp_late {s : State} (hs : quietPoint s) (ha : s.rx.state = .accumulating)
    (hd : s.rx.deadline ≤ (interleave s).env.now) : pollOp s = (interleave s).withRxState .timedOut := by
  have hq := interleave_quiet hs
  have ha' : (interleave s).rx.state = .accumulating := by rw [hq]; exact ha
  have hd' : (interleave s).rx.deadline = s.rx.deadline := by rw [hq]; rfl
  unfold pollOp
  simp only [ha', if_true, deadlinePassed, transportNow, hd', hd, decide_true]

/-- A poll iteration below the deadline: a stretch that begins with the clock sample's interleaving point (R121). -/
theorem pollOp_drains {s : State} (hs : noReset s) (ha : s.rx.state = .accumulating)
    (hd : (interleave s).env.now < s.rx.deadline) :
    ∃ used bs, Stretch s (pollOp s) (s.env.script.take 1 ++ used) bs ∧
      ((pollOp s).rx.state = .accumulating → (pollOp s).env.rxFifo = []) := by
  have hq := interleave_quiet hs.quiet
  have ha' : (interleave s).rx.state = .accumulating := by rw [hq]; exact ha
  have hd' : (interleave s).rx.deadline = s.rx.deadline := by rw [hq]; rfl
  have e : pollOp s = drain (bytesToCome (interleave s).env + 1) (interleave s) := by
    unfold pollOp
    simp [ha', deadlinePassed, transportNow, hd', Nat.not_le.mpr hd]
  obtain ⟨_, hp, rfl⟩ := Stretch.point hs.quiet
  obtain ⟨used, bs, hdr, hend⟩ := drain_stretch _ (interleave s) hs.interleave (Nat.lt_succ_self _)
  rw [e]
  exact ⟨used, bs, by simpa using hp.trans hdr, hend⟩

/-- The receive loop with no reset: a stretch, which the deadline may have cut. -/
theorem pollLoop_stretch : ∀ (n : Nat) (s : State), noReset s →
    ∃ used bs u, Stretch s u used bs ∧
      (pollLoop n s = u ∨
        (u.rx.state = .accumulating ∧ u.rx.deadline ≤ u.env.now ∧ pollLoop n s = u.withRxState .timedOut)) := by
  intro n
  induction n with
  | zero => intro s _; exact ⟨_, _, s, Stretch.refl s, .inl rfl⟩
  | succ n ih =>
    intro s hs
    unfold pollLoop
    split
    · rename_i ha
      by_cases hd : (interleave s).env.now < s.rx.deadline
      · obtain ⟨used, bs, hp, _⟩ := pollOp_drains hs ha hd
        obtain ⟨used', bs', u, hu, h⟩ := ih (pollOp s) (hp.noReset hs)
        exact ⟨_, _, u, hp.trans hu, h⟩
      · rw [pollOp_late hs.quiet ha (by omega)]
        have hq := interleave_quiet hs.quiet
        have e : ∀ n t, t.rx.state = RxState.timedOut → pollLoop n t = t := by
          intro n t ht; cases n <;> simp [pollLoop, ht]
        rw [e _ _ rfl]
        obtain ⟨_, hp, _⟩ := Stretch.point hs.quiet
        exact ⟨_, _, interleave s, hp, .inr ⟨by rw [hq]; exact ha, by rw [hq]; simp only [State.withEnv_rx]; simpa using hd, rfl⟩⟩
    · exact ⟨_, _, s, Stretch.refl s, .inl rfl⟩

/-- With nothing scripted, nothing waiting and the deadline ahead, a poll changes nothing (R121, R131). -/
theorem pollOp_quiet {s : State} (h0 : s.env.script = []) (hf : s.env.rxFifo = []) (ha : s.rx.state = .accumulating)
    (hd : s.env.now < s.rx.deadline) : pollOp s = s := by
  simp [pollOp, drain, interleave_nil h0, ha, deadlinePassed, transportNow, transportAvailable, hf, Nat.not_le.mpr hd]

/-- With nothing scripted, a poll that leaves the receive in progress has reached a state that polling does not change. -/
theorem pollOp_stalled {s : State} (h0 : s.env.script = []) (ha : s.rx.state = .accumulating)
    (ha' : (pollOp s).rx.state = .accumulating) :
    (pollOp s).env.script = [] ∧ (pollOp s).env.rxFifo = [] ∧ (pollOp s).env.now < (pollOp s).rx.deadline ∧
      pollOp (pollOp s) = pollOp s := by
  have hs : noReset s := by intro b hb; rw [h0] at hb; cases hb
  have hi := interleave_nil h0
  by_cases hd : s.rx.deadline ≤ s.env.now
  · rw [pollOp_late hs.quiet ha (by rw [hi]; exact hd)] at ha'
    simp at ha'
  · obtain ⟨used, bs, hp, hend⟩ := pollOp_drains hs ha (by rw [hi]; omega)
    have hsc := hp.script
    rw [h0] at hsc
    have hu : used = [] := by have := congrArg List.length hsc; simp at this; exact List.length_eq_zero_iff.mp (by omega)
    have hsc' : (pollOp s).env.script = [] := by
      have := congrArg List.length hsc; simp at this; exact List.length_eq_zero_iff.mp (by omega)
    have hnow : (pollOp s).env.now < (pollOp s).rx.deadline := by
      have hdl : (pollOp s).rx.deadline = s.rx.deadline := by rw [hp.core]; simp
      have := hp.clock
      rw [h0, hu] at this; simp at this
      rw [hdl]; omega
    exact ⟨hsc', hend ha', hnow, pollOp_quiet hsc' (hend ha') ha' hnow⟩

/-! ### The script only shrinks, resets or not -/

theorem rxByteOp_script (s : State) : (rxByteOp s).env.script = s.env.script.tail := by
  unfold rxByteOp
  simp only
  split
  · unfold readAndAccumulate
    split <;> simp
  · simp

theorem drain_script_length : ∀ (n : Nat) (s : State), (drain n s).env.script.length ≤ s.env.script.length := by
  intro n
  induction n with
  | zero => intro s; exact Nat.le_refl _
  | succ n ih =>
    intro s
    unfold drain
    split
    · simp only
      split
      · refine (ih _).trans ?_
        rw [rxByteOp_script, interleave_script]; simp; omega
      · simp
    · exact Nat.le_refl _

theorem pollOp_script_length (s : State) : (pollOp s).env.script.length ≤ s.env.script.length - 1 := by
  unfold pollOp
  simp only
  split
  · split
    · simp
    · exact (drain_script_length _ _).trans (by simp)
  · simp

/-- A loop with more polls than batches that leaves the receive in progress has stalled. -/
theorem pollLoop_stalled : ∀ (n : Nat) (s : State), s.env.script.length ≤ n → s.rx.state = .accumulating →
    (pollLoop (n + 1) s).rx.state = .accumulating →
    let u := pollLoop (n + 1) s
    u.env.script = [] ∧ u.env.rxFifo = [] ∧ u.env.now < u.rx.deadline ∧ pollOp u = u := by
  intro n
  induction n with
  | zero =>
    intro s hl ha hacc
    have e : pollLoop (0 + 1) s = pollOp s := by simp [pollLoop, ha]
    rw [e] at hacc ⊢
    exact pollOp_stalled (List.length_eq_zero_iff.mp (by omega)) ha hacc
  | succ n ih =>
    intro s hl ha hacc
    have e : pollLoop (n + 1 + 1) s = pollLoop (n + 1) (pollOp s) := by rw [pollLoop, if_pos ha]
    rw [e] at hacc ⊢
    have hp : (pollOp s).rx.state = .accumulating := by
      by_cases h : (pollOp s).rx.state = .accumulating
      · exact h
      · rw [pollLoop, if_neg h] at hacc; exact absurd hacc h
    exact ih _ (by have := pollOp_script_length s; omega) hp hacc

/-! ### RX.RUN -/

/-- RX.START with a transport bound and no reset at its clock sample (R120). -/
theorem rxStartOp_bound {s : State} (hb : s.bound = true) (hs : quietPoint s) :
    rxStartOp s = startReceive (interleave s) := by
  have : (interleave s).bound = true := by rw [interleave_quiet hs]; exact hb
  simp [rxStartOp, hb, this]

theorem runReceive_eq_fault {s : State} {f : Fault} (h : runReceive s = .fault f) :
    f = .neverEnds ∧ (pollLoop ((rxStartOp s).env.script.length + 1) (rxStartOp s)).rx.state = .accumulating := by
  unfold runReceive at h
  simp only at h
  split at h
  · rename_i ha; cases h; exact ⟨rfl, ha⟩
  · cases h

theorem runReceive_eq_next {s t : State} (h : runReceive s = .next t) :
    t = pollLoop ((rxStartOp s).env.script.length + 1) (rxStartOp s) ∧ t.rx.state ≠ .accumulating := by
  unfold runReceive at h
  simp only at h
  split at h
  · cases h
  · rename_i ha; cases h; exact ⟨rfl, ha⟩

/-- The whole receive with no reset: a stretch from the state RX.START leaves, which the deadline may have cut. -/
theorem runReceive_stretch {s : State} (hb : s.bound = true) (hs : noReset s) :
    ∃ used bs u, Stretch (startReceive (interleave s)) u used bs ∧
      ((runReceive s = .next u ∧ u.rx.state ≠ .accumulating) ∨
       (runReceive s = .next (u.withRxState .timedOut) ∧ u.rx.state = .accumulating ∧ u.rx.deadline ≤ u.env.now) ∨
       (runReceive s = .fault .neverEnds ∧ u.rx.state = .accumulating ∧ u.env.script = [] ∧ u.env.rxFifo = [] ∧
         u.env.now < u.rx.deadline)) := by
  have e := rxStartOp_bound hb hs.quiet
  have hs' : noReset (startReceive (interleave s)) := hs.tail (by simp)
  obtain ⟨used, bs, u, hu, h⟩ := pollLoop_stretch ((startReceive (interleave s)).env.script.length + 1) _ hs'
  refine ⟨used, bs, u, hu, ?_⟩
  unfold runReceive
  simp only [e]
  rcases h with h | ⟨ha, hd, h⟩
  · by_cases hacc : u.rx.state = .accumulating
    · right; right
      have := pollLoop_stalled _ (startReceive (interleave s)) (Nat.le_refl _) rfl (by rw [h]; exact hacc)
      simp only [h] at this ⊢
      exact ⟨by simp [hacc], hacc, this.1, this.2.1, this.2.2.1⟩
    · left; rw [h]; simp [hacc]
  · right; left; rw [h]; simp [ha, hd]

end Sys2Proof.Machine
end

