-- ==== Sys2Proof/Laws/ReceiveKeeps.lean ====
section
/-! SUPPORT. One induction for the whole receiver: what its four primitive moves keep, every receiver operation keeps, resets included. -/

namespace Sys2Proof.Machine

/-- A property that the receiver's primitive moves keep: an interleaving point, the reading of one byte, the timeout, the start. -/
structure ReceiveKeeps (P : State → Prop) : Prop where
  point : ∀ {s}, P s → P (interleave s)
  read : ∀ {s}, P s → s.rx.state = .accumulating → P (readAndAccumulate s)
  late : ∀ {s}, P s → s.rx.state = .accumulating → P (s.withRxState .timedOut)
  start : ∀ {s}, P s → s.bound = true → P (startReceive s)

variable {P : State → Prop}

theorem ReceiveKeeps.rxStartOp (k : ReceiveKeeps P) {s : State} (h : P s) : P (rxStartOp s) := by
  unfold Machine.rxStartOp
  split
  · simp only
    split
    · exact k.start (k.point h) ‹_›
    · exact k.point h
  · exact h

theorem ReceiveKeeps.rxByteOp (k : ReceiveKeeps P) {s : State} (h : P s) : P (rxByteOp s) := by
  unfold Machine.rxByteOp
  simp only
  split
  · exact k.read (k.point h) ‹_›
  · exact k.point h

theorem ReceiveKeeps.drain (k : ReceiveKeeps P) : ∀ (n : Nat) {s : State}, P s → P (drain n s) := by
  intro n
  induction n with
  | zero => intro s h; exact h
  | succ n ih =>
    intro s h
    unfold Machine.drain
    split
    · simp only
      split
      · exact ih (k.rxByteOp (k.point h))
      · exact k.point h
    · exact h

theorem ReceiveKeeps.pollOp (k : ReceiveKeeps P) {s : State} (h : P s) : P (pollOp s) := by
  unfold Machine.pollOp
  simp only
  split
  · split
    · exact k.late (k.point h) ‹_›
    · exact k.drain _ (k.point h)
  · exact k.point h

theorem ReceiveKeeps.pollLoop (k : ReceiveKeeps P) : ∀ (n : Nat) {s : State}, P s → P (pollLoop n s) := by
  intro n
  induction n with
  | zero => intro s h; exact h
  | succ n ih =>
    intro s h
    unfold Machine.pollLoop
    split
    · exact ih (k.pollOp h)
    · exact h

theorem ReceiveKeeps.runReceive (k : ReceiveKeeps P) {s t : State} (h : P s) (hr : runReceive s = .next t) : P t := by
  rw [(runReceive_eq_next hr).1]; exact k.pollLoop _ (k.rxStartOp h)

/-- An Idle sequencer stays Idle. -/
theorem seqIdle_keeps : ReceiveKeeps (fun s => s.seqState = .idle) where
  point := by
    intro s h
    rcases interleave_core s with e | e
    · rw [e]; exact h
    · rw [e]; rfl
  read := by intro s h _; unfold readAndAccumulate; split <;> exact h
  late := fun h _ => h
  start := fun h _ => h

/-- A receiver that is Idle is one that a reset has made so: the sequencer is Idle with it. -/
def CutIdle (s : State) : Prop := s.rx.state = .idle → s.seqState = .idle

theorem cutIdle_keeps : ReceiveKeeps CutIdle where
  point := by
    intro s h
    rcases interleave_core s with e | e
    · rw [e]; exact h
    · rw [e]; exact fun _ => rfl
  read := by
    intro s _ ha e
    unfold readAndAccumulate at e
    split at e
    · exact absurd e (stateAfterByte_ne_idle (by simp [ha]))
    · rw [ha] at e; cases e
  late := by intro s _ _ e; cases e
  start := by intro s _ _ e; cases e

/-- However a receive with a transport bound returns, an Idle receiver means an Idle sequencer (R210). -/
theorem runReceive_cutIdle {s t : State} (hb : s.bound = true) (h : runReceive s = .next t) : CutIdle t := by
  rw [(runReceive_eq_next h).1]
  refine cutIdle_keeps.pollLoop _ ?_
  unfold rxStartOp
  rw [if_pos hb]
  simp only
  split
  · intro e; cases e
  · rename_i hn
    rcases interleave_core s with e | e
    · exact absurd (by rw [e]; exact hb) hn
    · rw [e]; exact fun _ => rfl

/-- From `s` to `u` the script lost some batches, and either none of them held a reset or the CORE stands reset. -/
def Cut (s u : State) : Prop :=
  u.params = s.params ∧ ∃ used, s.env.script = used ++ u.env.script ∧
    ((∀ batch ∈ used, Outside.reset ∉ batch) ∨ u = coreReset u)

theorem Cut.refl (s : State) : Cut s s := ⟨rfl, [], rfl, .inl (by simp)⟩

/-- Every receiver operation, cut or not (R210). -/
theorem cut_keeps (s : State) : ReceiveKeeps (Cut s) where
  point := by
    rintro u ⟨hp, used, hsc, hu⟩
    refine ⟨by simpa using hp, used ++ u.env.script.take 1, ?_, ?_⟩
    · rw [hsc, interleave_script]; cases u.env.script <;> simp
    · rcases hu with hu | hu
      · cases hs : u.env.script with
        | nil => left; simpa using hu
        | cons batch more =>
          by_cases hr : Outside.reset ∈ batch
          · right; exact interleave_reset hs hr
          · left; intro b hb
            simp at hb
            rcases hb with hb | rfl
            · exact hu b hb
            · exact hr
      · right
        rcases interleave_core u with e | e
        · rw [e]; exact coreReset_withEnv hu _
        · rw [e]; rfl
  read := by
    rintro u ⟨hp, used, hsc, hu⟩ ha
    unfold readAndAccumulate
    split
    · refine ⟨hp, used, hsc, .inl ?_⟩
      rcases hu with hu | hu
      · exact hu
      · rw [hu] at ha; cases ha
    · exact ⟨hp, used, hsc, hu⟩
  late := by
    rintro u ⟨hp, used, hsc, hu⟩ ha
    refine ⟨hp, used, hsc, .inl ?_⟩
    rcases hu with hu | hu
    · exact hu
    · rw [hu] at ha; cases ha
  start := by
    rintro u ⟨hp, used, hsc, hu⟩ hb
    refine ⟨hp, used, hsc, .inl ?_⟩
    rcases hu with hu | hu
    · exact hu
    · rw [hu] at hb; cases hb

/-- A receiver operation that met a reset has left the CORE reset (R210). -/
theorem Cut.reset {s u : State} (hc : Cut s u) {used : List (List Outside)} (h : s.env.script = used ++ u.env.script)
    (hr : ∃ batch ∈ used, Outside.reset ∈ batch) : u = coreReset u ∧ u.params = s.params := by
  obtain ⟨hp, used', h', hu⟩ := hc
  have : used' = used := List.append_cancel_right (h'.symm.trans h)
  subst this
  rcases hu with hu | hu
  · obtain ⟨b, hb, hr⟩ := hr; exact absurd hr (hu b hb)
  · exact ⟨hu, hp⟩

end Sys2Proof.Machine
end

