-- ==== Sys2Proof/Laws/Aside.lean ====
section
/-! SUPPORT. The receiver neither reads nor, without a reset, writes the sequencer's state and the last result: with other values of
these it does the same. So RX.RUN is RX.START and then RX.POLL while Accumulating (R83, R127). -/

namespace Sys2Proof.Machine

/-- `s` with another sequencer state and another result. -/
def aside (q : SeqState) (r : Result) (s : State) : State := { s with seqState := q, result := r }

@[simp] theorem aside_env (q : SeqState) (r : Result) (s : State) : (aside q r s).env = s.env := rfl
@[simp] theorem aside_rx (q : SeqState) (r : Result) (s : State) : (aside q r s).rx = s.rx := rfl
@[simp] theorem aside_bound (q : SeqState) (r : Result) (s : State) : (aside q r s).bound = s.bound := rfl
@[simp] theorem aside_params (q : SeqState) (r : Result) (s : State) : (aside q r s).params = s.params := rfl
@[simp] theorem aside_seqState (q : SeqState) (r : Result) (s : State) : (aside q r s).seqState = q := rfl
@[simp] theorem aside_aside (q q' : SeqState) (r r' : Result) (s : State) : aside q r (aside q' r' s) = aside q r s := rfl
@[simp] theorem transportAvailable_aside (q : SeqState) (r : Result) (s : State) :
    transportAvailable (aside q r s) = transportAvailable s := rfl
@[simp] theorem deadlinePassed_aside (q : SeqState) (r : Result) (s : State) : deadlinePassed (aside q r s) = deadlinePassed s := rfl
@[simp] theorem aside_withEnv (q : SeqState) (r : Result) (s : State) (e : Env) :
    (aside q r s).withEnv e = aside q r (s.withEnv e) := rfl

/-- No reset stays scripted through the receiver's moves. -/
theorem noReset_keeps : ReceiveKeeps noReset where
  point := fun h => h.interleave
  read := by intro s h _; unfold readAndAccumulate; split <;> exact h
  late := fun h _ => h
  start := fun h _ => h

variable {q : SeqState} {r : Result} {s t : State}

theorem noReset.aside (h : noReset s) (q : SeqState) (r : Result) : noReset (aside q r s) := h

theorem interleave_aside (h : quietPoint s) : interleave (aside q r s) = aside q r (interleave s) := by
  have e : (interleave (aside q r s)).env = (interleave s).env := by simp only [interleave_env, aside_env]
  have h' : quietPoint (aside q r s) := h
  rw [interleave_quiet h', interleave_quiet h, e]; rfl

theorem readAndAccumulate_aside : readAndAccumulate (aside q r s) = aside q r (readAndAccumulate s) := by
  unfold readAndAccumulate
  rw [aside_env]
  split <;> rfl

theorem rxByteOp_aside (h : quietPoint s) : rxByteOp (aside q r s) = aside q r (rxByteOp s) := by
  unfold rxByteOp
  simp only [interleave_aside h, aside_rx, readAndAccumulate_aside]
  split <;> rfl

theorem drain_aside : ∀ (n : Nat) (s : State), noReset s → drain n (aside q r s) = aside q r (drain n s) := by
  intro n
  induction n with
  | zero => intro s _; rfl
  | succ n ih =>
    intro s h
    unfold drain
    simp only [interleave_aside h.quiet, aside_rx, transportAvailable_aside, rxByteOp_aside h.interleave.quiet]
    split_ifs
    · exact ih _ (noReset_keeps.rxByteOp h.interleave)
    · rfl
    · rfl

theorem pollOp_aside (h : noReset s) : pollOp (aside q r s) = aside q r (pollOp s) := by
  unfold pollOp
  simp only [interleave_aside h.quiet, aside_rx, aside_env, deadlinePassed_aside, drain_aside _ _ h.interleave]
  split_ifs <;> rfl

theorem pollLoop_aside : ∀ (n : Nat) (s : State), noReset s → pollLoop n (aside q r s) = aside q r (pollLoop n s) := by
  intro n
  induction n with
  | zero => intro s _; rfl
  | succ n ih =>
    intro s h
    unfold pollLoop
    simp only [aside_rx, pollOp_aside h]
    split
    · exact ih _ (noReset_keeps.pollOp h)
    · rfl

theorem rxStartOp_aside (h : noReset s) : rxStartOp (aside q r s) = aside q r (rxStartOp s) := by
  unfold rxStartOp
  simp only [aside_bound, interleave_aside h.quiet]
  split
  · split <;> rfl
  · rfl

/-- A receive is the same whatever the sequencer's state and the last result. -/
theorem runReceive_aside (h : noReset s) (ht : runReceive s = .next t) (q : SeqState) (r : Result) :
    runReceive (aside q r s) = .next (aside q r t) := by
  obtain ⟨rfl, hs⟩ := runReceive_eq_next ht
  unfold runReceive
  simp only [rxStartOp_aside h, aside_env, pollLoop_aside _ _ (noReset_keeps.rxStartOp h), aside_rx]
  rw [if_neg hs]

/-- The receive loop is RX.POLL repeated while Accumulating (R127). -/
theorem pollLoop_rows : ∀ (n : Nat) (s : State), noReset s → s.seqState = .idle → (pollLoop n s).rx.state ≠ .accumulating →
    ∃ k r, runRows (List.replicate k .rxPoll) s = .next (aside .idle r (pollLoop n s)) := by
  intro n
  induction n with
  | zero => intro s _ hi _; exact ⟨0, s.result, by simp only [pollLoop]; rw [← hi]; rfl⟩
  | succ n ih =>
    intro s h hi hn
    unfold pollLoop at hn ⊢
    split
    · rename_i ha
      rw [if_pos ha] at hn
      have hi' : (pollOp s).seqState = .idle := seqIdle_keeps.pollOp hi
      have e : (pollOp s).withResult .none = aside .idle .none (pollOp s) := by rw [← hi']; rfl
      obtain ⟨k, r, hk⟩ := ih (aside .idle .none (pollOp s)) ((noReset_keeps.pollOp h).aside _ _) rfl
        (by rw [pollLoop_aside _ _ (noReset_keeps.pollOp h)]; exact hn)
      refine ⟨k + 1, r, ?_⟩
      rw [List.replicate_succ, runRows]
      simp only [exec, execRxPoll, whenIdle_idle hi, if_pos ha, done, andThen_next, e]
      rw [hk, pollLoop_aside _ _ (noReset_keeps.pollOp h)]; rfl
    · exact ⟨0, s.result, by rw [← hi]; rfl⟩

/-- A receive is RX.START and then RX.POLL repeated while Accumulating (R83, R127). -/
theorem runReceive_rows (h : noReset s) (hi : s.seqState = .idle) (ht : runReceive s = .next t) :
    ∃ k r, runRows (.rxStart :: List.replicate k .rxPoll) s = .next (aside .idle r t) := by
  obtain ⟨rfl, hs⟩ := runReceive_eq_next ht
  have h' := noReset_keeps.rxStartOp h
  have hi' : (rxStartOp s).seqState = .idle := seqIdle_keeps.rxStartOp hi
  have e : (rxStartOp s).withResult .none = aside .idle .none (rxStartOp s) := by rw [← hi']; rfl
  obtain ⟨k, r, hk⟩ := pollLoop_rows ((rxStartOp s).env.script.length + 1) (aside .idle .none (rxStartOp s)) (h'.aside _ _) rfl
    (by rw [pollLoop_aside _ _ h']; exact hs)
  refine ⟨k, r, ?_⟩
  rw [runRows]
  simp only [exec, execRxStart, whenIdle_idle hi, done, andThen_next, e]
  rw [hk, pollLoop_aside _ _ h']; rfl

end Sys2Proof.Machine
end

