-- ==== Sys2Proof/Laws/Crc.lean ====
section
/-! SUPPORT. The algebra of the checksum: the shift is linear over GF(2) and injective. -/

namespace Sys2Proof

theorem crcShift_xor (a b : Word16) : crcShift (a ^^^ b) = crcShift a ^^^ crcShift b := by
  unfold crcShift
  rw [BitVec.msb_xor, BitVec.shiftLeft_xor_distrib]
  cases a.msb <;> cases b.msb <;> simp [Config.crcPoly]
  all_goals
    apply BitVec.eq_of_getLsbD_eq
    intro i hi
    simp only [BitVec.getLsbD_xor]
    cases (a <<< 1).getLsbD i <;> cases (b <<< 1).getLsbD i <;> simp

/-- The low bit of a shifted register is the bit that was shifted out. -/
theorem crcShift_low (c : Word16) : (crcShift c).getLsbD 0 = c.msb := by
  unfold crcShift
  cases h : c.msb <;> simp [Config.crcPoly]

theorem crcShift_injective : Function.Injective crcShift := by
  intro a b h
  have hm : a.msb = b.msb := by rw [← crcShift_low, h, crcShift_low]
  have hs : a <<< 1 = b <<< 1 := by
    unfold crcShift at h
    rw [hm] at h
    cases hb : b.msb <;> simp [hb] at h
    · exact h
    · exact h
  apply BitVec.eq_of_getLsbD_eq
  intro i hi
  by_cases h15 : i = 15
  · subst h15; simpa [BitVec.msb_eq_getLsbD_last] using hm
  · have := congrArg (fun v => BitVec.getLsbD v (i + 1)) hs
    simpa only [BitVec.getLsbD_shiftLeft, show i + 1 < 16 by omega, Nat.add_sub_cancel, decide_true, Bool.true_and,
      show ¬ i + 1 < 1 by omega, decide_false, Bool.not_false] using this

theorem crcShifts_xor : ∀ (n : Nat) (a b : Word16), crcShifts n (a ^^^ b) = crcShifts n a ^^^ crcShifts n b
  | 0, _, _ => rfl
  | n + 1, a, b => by simp only [crcShifts, crcShift_xor, crcShifts_xor n]

theorem crcShifts_injective : ∀ n, Function.Injective (crcShifts n)
  | 0 => fun _ _ h => h
  | n + 1 => fun _ _ h => crcShift_injective (crcShifts_injective n h)

theorem crcByte_xor (c d : Word16) (a b : Byte) : crcByte (c ^^^ d) (a ^^^ b) = crcByte c a ^^^ crcByte d b := by
  unfold crcByte
  rw [← crcShifts_xor]
  congr 1
  apply BitVec.eq_of_getLsbD_eq
  intro i hi
  simp only [BitVec.getLsbD_xor, BitVec.getLsbD_shiftLeft, BitVec.getLsbD_setWidth]
  cases c.getLsbD i <;> cases d.getLsbD i <;> by_cases h8 : i < 8 <;>
    simp [h8, hi, show i - 8 < 16 by omega]

/-- For a fixed byte the update is injective in the register (R102). -/
theorem crcByte_injective_register (b : Byte) : Function.Injective (fun c => crcByte c b) := by
  intro c d h
  have := crcShifts_injective 8 h
  simpa using this

/-- For a fixed register the update is injective in the byte (R102). -/
theorem crcByte_injective_byte (c : Word16) : Function.Injective (crcByte c) := by
  intro a b h
  have h' : a.setWidth 16 <<< 8 = b.setWidth 16 <<< 8 := by simpa using crcShifts_injective 8 h
  apply BitVec.eq_of_getLsbD_eq
  intro i hi
  have := congrArg (fun v => BitVec.getLsbD v (i + 8)) h'
  simpa [BitVec.getLsbD_shiftLeft, BitVec.getLsbD_setWidth, show i + 8 < 16 by omega, show i < 16 by omega] using this

/-- A register whose high byte is zero is shifted up by a byte, whole. -/
theorem crcShifts_low (b : Byte) : crcShifts 8 (b.setWidth 16) = b.setWidth 16 <<< 8 := by
  revert b; decide

/-- A whole sequence of updates is injective in the register. -/
theorem crcByte_foldl_injective (l : List Byte) : Function.Injective (fun c => l.foldl crcByte c) := by
  induction l with
  | nil => intro a b h; exact h
  | cons x l ih => intro a b h; exact crcByte_injective_register x (ih h)

end Sys2Proof
end

