-- ==== Sys2Proof/Laws/Decode.lean ====
section
/-! SUPPORT. The laws of the decoder's operand readers: exactly which bytes each one reads. -/

namespace Sys2Proof

/-- A natural-number operand that fits four bytes is read back. -/
theorem takeNat32_be32Bytes (n : Nat) (h : n < 2 ^ 32) (rest : List Byte) :
    takeNat32 (be32Bytes n ++ rest) = some (n, rest) := by
  simp only [takeNat32, be32Bytes, List.cons_append, List.nil_append, beNat, List.foldl_cons, List.foldl_nil, byteOf, BitVec.toNat_ofNat]
  congr 2
  omega

/-- A byte-sequence operand is read back. -/
theorem takeSeq_seqBytes (s : List Byte) (h : s.length < 2 ^ 32) (rest : List Byte) :
    takeSeq (seqBytes s ++ rest) = some (s, rest) := by
  simp [takeSeq, seqBytes, List.append_assoc, takeNat32_be32Bytes _ h]

/-- Four bytes are the bytes of their value. -/
theorem be32Bytes_beNat (a b c d : Byte) : be32Bytes (beNat [a, b, c, d]) = [a, b, c, d] := by
  have ha := a.isLt; have hb := b.isLt; have hc := c.isLt; have hd := d.isLt
  simp only [be32Bytes, beNat, List.foldl_cons, List.foldl_nil, byteOf, List.cons.injEq, and_true]
  refine ⟨?_, ?_, ?_, ?_⟩ <;> apply BitVec.eq_of_toNat_eq <;> rw [BitVec.toNat_ofNat] <;> omega

/-- Exactly which bytes read as a natural-number operand. -/
theorem takeNat32_eq_some {bs rest : List Byte} {n : Nat} :
    takeNat32 bs = some (n, rest) ↔ n < 2 ^ 32 ∧ bs = be32Bytes n ++ rest := by
  constructor
  · intro h
    unfold takeNat32 at h
    split at h
    · rename_i a b c d r
      simp only [Option.some.injEq, Prod.mk.injEq] at h
      obtain ⟨rfl, rfl⟩ := h
      rw [be32Bytes_beNat]
      refine ⟨?_, rfl⟩
      have ha := a.isLt; have hb := b.isLt; have hc := c.isLt; have hd := d.isLt
      simp only [beNat, List.foldl_cons, List.foldl_nil]; omega
    · cases h
  · rintro ⟨h, rfl⟩; exact takeNat32_be32Bytes n h rest

/-- Exactly which bytes read as a byte-sequence operand. -/
theorem takeSeq_eq_some {bs rest s : List Byte} :
    takeSeq bs = some (s, rest) ↔ s.length < 2 ^ 32 ∧ bs = seqBytes s ++ rest := by
  constructor
  · intro h
    unfold takeSeq at h
    split at h
    · cases h
    · rename_i n r hn
      obtain ⟨hlt, rfl⟩ := takeNat32_eq_some.mp hn
      split at h
      · rename_i hl
        simp only [Option.some.injEq, Prod.mk.injEq] at h
        obtain ⟨rfl, rfl⟩ := h
        exact ⟨by omega, by rw [seqBytes, hl]; simp⟩
      · cases h
  · rintro ⟨h, rfl⟩; exact takeSeq_seqBytes s h rest

/-- Exactly which bytes are the body of a frame. -/
theorem takeBody_eq_some {n : Nat} {bs p rest : List Byte} :
    takeBody n bs = some (p, rest) ↔ p.length = n ∧ bs = p ++ frameTrailer p ++ rest := by
  unfold takeBody
  simp only
  constructor
  · intro h
    split at h
    · rename_i hc
      obtain ⟨h1, h2⟩ := hc
      simp only [Option.some.injEq, Prod.mk.injEq] at h
      obtain ⟨rfl, rfl⟩ := h
      refine ⟨h1, ?_⟩
      rw [← h2]; simp
    · cases h
  · rintro ⟨rfl, rfl⟩
    simp [frameTrailer]

/-- An operation with no operand takes no further byte. -/
theorem plainOp_eq {i j : Instr} {bs rest : List Byte} : plainOp i bs = .ok (j, rest) ↔ i = j ∧ bs = rest := by
  simp [plainOp]

/-- Exactly which bytes are an operation with one natural-number operand. -/
theorem natOp_eq {mk : Nat → Instr} {bs rest : List Byte} {i : Instr} :
    natOp mk bs = .ok (i, rest) ↔ ∃ n, n < 2 ^ 32 ∧ bs = be32Bytes n ++ rest ∧ i = mk n := by
  unfold natOp
  constructor
  · intro h; split at h
    · rename_i n r hn; cases h; exact ⟨n, (takeNat32_eq_some.mp hn).1, (takeNat32_eq_some.mp hn).2, rfl⟩
    · cases h
  · rintro ⟨n, h, rfl, rfl⟩; rw [takeNat32_be32Bytes _ h]

/-- Exactly which bytes are an operation with one byte-sequence operand. -/
theorem seqOp_eq {mk : List Byte → Instr} {bs rest : List Byte} {i : Instr} :
    seqOp mk bs = .ok (i, rest) ↔ ∃ s, s.length < 2 ^ 32 ∧ bs = seqBytes s ++ rest ∧ i = mk s := by
  unfold seqOp
  constructor
  · intro h; split at h
    · rename_i n r hn; cases h; exact ⟨n, (takeSeq_eq_some.mp hn).1, (takeSeq_eq_some.mp hn).2, rfl⟩
    · cases h
  · rintro ⟨n, h, rfl, rfl⟩; rw [takeSeq_seqBytes _ h]

/-- Exactly which bytes are an operation with one byte operand. -/
theorem byteOp_eq {mk : Byte → Instr} {bs rest : List Byte} {i : Instr} :
    byteOp mk bs = .ok (i, rest) ↔ ∃ b, bs = b :: rest ∧ i = mk b := by
  cases bs with
  | nil => simp [byteOp]
  | cons b bs => simp [byteOp, eq_comm]; exact ⟨fun h => ⟨h.2, h.1⟩, fun h => ⟨h.2, h.1⟩⟩

/-- Exactly which bytes are VALIDATE.X's operands. -/
theorem validateXOp_eq {bs rest : List Byte} {i : Instr} :
    validateXOp bs = .ok (i, rest) ↔ ∃ n f, n < 2 ^ 32 ∧ f.length < 2 ^ 32 ∧ bs = be32Bytes n ++ seqBytes f ++ rest ∧ i = .validateX f n := by
  unfold validateXOp
  constructor
  · intro h; split at h
    · cases h
    · rename_i n r hn
      obtain ⟨f, hf, rfl, rfl⟩ := seqOp_eq.mp h
      obtain ⟨h1, rfl⟩ := takeNat32_eq_some.mp hn
      exact ⟨n, f, h1, hf, by simp, rfl⟩
  · rintro ⟨n, f, h, hf, rfl, rfl⟩
    rw [List.append_assoc, takeNat32_be32Bytes _ h]
    exact seqOp_eq.mpr ⟨f, hf, rfl, rfl⟩

/-- A schedule row's index, format and byte. -/
theorem gvInstr_eq_some (n : Nat) (i : Instr) (h : gvInstr n = some i) : n < 18 ∧ i.format = .gvStep ∧ ∀ opc, encode opc i = [byteOf n] := by
  unfold gvInstr at h
  split at h <;> first | (cases h; refine ⟨by omega, rfl, fun _ => rfl⟩) | cases h

end Sys2Proof
end

