-- ==== Sys2Proof/Laws/Memory.lean ====
section
/-! SUPPORT. The laws of the buffers: a read after a write, and the canonical form. -/

namespace Sys2Proof.Machine

/-! ### A read after a write -/

theorem Mem.read_write (m : Mem) (i : Nat) (b : Byte) (j : Nat) :
    Mem.read (Mem.write m i b) j = if i = j then some b else Mem.read m j := by
  induction m with
  | nil => simp [Mem.write, Mem.read]
  | cons c m ih =>
    obtain ⟨a, v⟩ := c
    simp only [Mem.write]
    split
    · simp [Mem.read]
    · split
      · subst_vars; simp only [Mem.read]; split <;> simp_all
      · simp only [Mem.read, ih]; split <;> split <;> simp_all

@[simp] theorem Mem.read_write_same (m : Mem) (i : Nat) (b : Byte) : Mem.read (Mem.write m i b) i = some b := by
  simp [Mem.read_write]

theorem Mem.read_write_other (m : Mem) {i j : Nat} (b : Byte) (h : i ≠ j) :
    Mem.read (Mem.write m i b) j = Mem.read m j := by
  simp [Mem.read_write, h]

/-- A byte sequence written from `i` up changes the cells it covers and no other. -/
theorem Mem.read_writeBytes (bs : List Byte) : ∀ (m : Mem) (i j : Nat),
    Mem.read (Mem.writeBytes m i bs) j = if i ≤ j ∧ j < i + bs.length then bs[j - i]? else Mem.read m j := by
  induction bs with
  | nil => intro m i j; simp only [Mem.writeBytes, List.length_nil]; split <;> [omega; rfl]
  | cons b bs ih =>
    intro m i j
    simp only [Mem.writeBytes, ih, Mem.read_write, List.length_cons]
    by_cases hj : i = j
    · subst hj; simp
    · by_cases h : i + 1 ≤ j ∧ j < i + 1 + bs.length
      · rw [if_pos h, if_pos (by omega)]
        obtain ⟨k, rfl⟩ : ∃ k, j = i + 1 + k := ⟨j - (i + 1), by omega⟩
        simp [show i + 1 + k - i = k + 1 by omega]
      · rw [if_neg h, if_neg hj, if_neg (by omega)]

/-- The bytes from `i` up are exactly a sequence when each of its bytes reads there. -/
theorem Mem.readBytes_eq_some (m : Mem) : ∀ (n i : Nat) (bs : List Byte),
    Mem.readBytes m i n = some bs ↔ bs.length = n ∧ ∀ k, k < n → Mem.read m (i + k) = bs[k]? := by
  intro n
  induction n with
  | zero => intro i bs; cases bs <;> simp [Mem.readBytes]
  | succ n ih =>
    intro i bs
    simp only [Mem.readBytes]
    constructor
    · intro h
      split at h
      · rename_i b bs' hb hbs
        obtain ⟨hl, hr⟩ := (ih _ _).mp hbs
        cases h
        refine ⟨by simp [hl], fun k hk => ?_⟩
        cases k with
        | zero => simpa using hb
        | succ k => simpa [Nat.add_assoc, Nat.add_comm 1 k] using hr k (by omega)
      · cases h
    · rintro ⟨hl, hr⟩
      cases bs with
      | nil => simp at hl
      | cons b bs =>
        have h0 : Mem.read m i = some b := by simpa using hr 0 (by omega)
        have h1 : Mem.readBytes m (i + 1) n = some bs := by
          refine (ih _ _).mpr ⟨by simpa using hl, fun k hk => ?_⟩
          simpa [Nat.add_assoc, Nat.add_comm 1 k] using hr (k + 1) (by omega)
        rw [h0, h1]

/-- What was written is read back. -/
@[simp] theorem Mem.readBytes_writeBytes (m : Mem) (i : Nat) (bs : List Byte) :
    Mem.readBytes (Mem.writeBytes m i bs) i bs.length = some bs := by
  refine (Mem.readBytes_eq_some _ _ _ _).mpr ⟨rfl, fun k hk => ?_⟩
  rw [Mem.read_writeBytes, if_pos (by omega)]
  simp

/-- Bytes can be read when each cell was written. -/
theorem Mem.readBytes_isSome (m : Mem) : ∀ (n i : Nat), (∀ k, k < n → (Mem.read m (i + k)).isSome = true) →
    ∃ bs, Mem.readBytes m i n = some bs := by
  intro n
  induction n with
  | zero => intro i _; exact ⟨[], rfl⟩
  | succ n ih =>
    intro i h
    obtain ⟨b, hb⟩ := Option.isSome_iff_exists.mp (h 0 (by omega))
    obtain ⟨bs, hbs⟩ := ih (i + 1) (fun k hk => by
      simpa [Nat.add_assoc, Nat.add_comm 1 k] using h (k + 1) (by omega))
    exact ⟨b :: bs, by simp only [Mem.readBytes]; rw [show Mem.read m i = some b from hb, hbs]⟩

/-! ### The canonical form -/

theorem Mem.mem_write {m : Mem} {i : Nat} {b : Byte} {c : Host.Cell} (h : c ∈ Mem.write m i b) :
    c = (i, b) ∨ c ∈ m := by
  induction m with
  | nil => simpa [Mem.write] using h
  | cons d m ih =>
    obtain ⟨a, v⟩ := d
    simp only [Mem.write] at h
    split at h
    · simpa using h
    · split at h
      · rcases List.mem_cons.mp h with h | h
        · exact .inl h
        · exact .inr (List.mem_cons_of_mem _ h)
      · rcases List.mem_cons.mp h with h | h
        · exact .inr (h ▸ List.mem_cons_self)
        · exact (ih h).imp_right (List.mem_cons_of_mem _)

/-- A write keeps the canonical form. -/
theorem Mem.write_wf {m : Mem} (h : Mem.wf m) (i : Nat) (b : Byte) : Mem.wf (Mem.write m i b) := by
  induction m with
  | nil => simp [Mem.write, Mem.wf]
  | cons c m ih =>
    obtain ⟨a, v⟩ := c
    obtain ⟨hc, hm⟩ := List.pairwise_cons.mp h
    simp only [Mem.write]
    split
    · rename_i hia
      refine List.pairwise_cons.mpr ⟨fun d hd => ?_, h⟩
      rcases List.mem_cons.mp hd with rfl | hd
      · exact hia
      · exact Nat.lt_trans hia (hc d hd)
    · split
      · subst_vars; exact List.pairwise_cons.mpr ⟨hc, hm⟩
      · refine List.pairwise_cons.mpr ⟨fun d hd => ?_, ih hm⟩
        rcases Mem.mem_write hd with rfl | hd
        · change a < i; omega
        · exact hc d hd

/-- A sequence of writes keeps the canonical form. -/
theorem Mem.writeBytes_wf (bs : List Byte) : ∀ {m : Mem} (_ : Mem.wf m) (i : Nat), Mem.wf (Mem.writeBytes m i bs) := by
  induction bs with
  | nil => intro m h i; exact h
  | cons b bs ih => intro m h i; exact ih (Mem.write_wf h i b) (i + 1)

/-- A write stays within a space that holds its index. -/
theorem Mem.write_bound {m : Mem} {n : Nat} (h : ∀ c ∈ m, c.1 < n) {i : Nat} (hi : i < n) (b : Byte) :
    ∀ c ∈ Mem.write m i b, c.1 < n := by
  intro c hc
  rcases Mem.mem_write hc with rfl | hc
  · exact hi
  · exact h c hc

/-- A sequence of writes stays within a space that holds its indices. -/
theorem Mem.writeBytes_bound (bs : List Byte) : ∀ {m : Mem} {n : Nat} (_ : ∀ c ∈ m, c.1 < n) {i : Nat}
    (_ : i + bs.length ≤ n), ∀ c ∈ Mem.writeBytes m i bs, c.1 < n := by
  induction bs with
  | nil => intro m n h i _; exact h
  | cons b bs ih =>
    intro m n h i hi
    simp only [List.length_cons] at hi
    exact ih (Mem.write_bound h (by omega) b) (by omega)

/-- In canonical form two buffers that read alike are the same data. -/
theorem Mem.ext_of_read {m₁ m₂ : Mem} (h₁ : Mem.wf m₁) (h₂ : Mem.wf m₂) (h : ∀ i, Mem.read m₁ i = Mem.read m₂ i) :
    m₁ = m₂ := by
  have below : ∀ {m : Mem} {j : Nat}, (∀ c ∈ m, j < c.1) → Mem.read m j = none := by
    intro m j
    induction m with
    | nil => intro _; rfl
    | cons c m ih =>
      intro hc
      have := hc c List.mem_cons_self
      simp only [Mem.read]
      rw [if_neg (by omega)]
      exact ih (fun d hd => hc d (List.mem_cons_of_mem _ hd))
  induction m₁ generalizing m₂ with
  | nil =>
    cases m₂ with
    | nil => rfl
    | cons c m => have := h c.1; simp [Mem.read] at this
  | cons c m ih =>
    cases m₂ with
    | nil => have := h c.1; simp [Mem.read] at this
    | cons d n =>
      obtain ⟨hc, hm⟩ := List.pairwise_cons.mp h₁
      obtain ⟨hd, hn⟩ := List.pairwise_cons.mp h₂
      have key : c = d := by
        obtain ⟨a, v⟩ := c
        obtain ⟨a', v'⟩ := d
        rcases Nat.lt_trichotomy a a' with hlt | rfl | hlt
        · have := h a
          rw [below (m := (a', v') :: n) (fun e he => by
            rcases List.mem_cons.mp he with rfl | he
            · exact hlt
            · exact Nat.lt_trans hlt (hd e he))] at this
          simp [Mem.read] at this
        · have := h a
          simp [Mem.read] at this
          rw [this]
        · have := h a'
          rw [below (m := (a, v) :: m) (fun e he => by
            rcases List.mem_cons.mp he with rfl | he
            · exact hlt
            · exact Nat.lt_trans hlt (hc e he))] at this
          simp [Mem.read] at this
      subst key
      refine congrArg (c :: ·) (ih hm hn fun i => ?_)
      by_cases hi : c.1 = i
      · subst hi; rw [below hc, below hd]
      · have := h i; simpa [Mem.read, hi] using this

end Sys2Proof.Machine
end

