-- ==== Sys2Proof/Laws/Reader.lean ====
section
/-! SUPPORT. The field reader: what a read can do, and that its values are the two's complement values of the bytes. -/

namespace Sys2Proof.Machine

/-! ### Two's complement -/

theorem sext_eq_toInt {n : Nat} (v : BitVec n) (hn : 0 < n) : sext n v.toNat = v.toInt := by
  obtain ⟨m, rfl⟩ : ∃ m, n = m + 1 := ⟨n - 1, by omega⟩
  unfold sext
  rw [BitVec.toInt_eq_toNat_cond]
  have h2 : 2 ^ (m + 1) = 2 * 2 ^ m := by rw [Nat.pow_succ]; omega
  simp only [Nat.add_sub_cancel]
  by_cases h : v.toNat < 2 ^ m
  · rw [if_pos h, if_pos (by omega)]
  · rw [if_neg h, if_neg (by omega)]; push_cast; rfl

theorem append_byte (x y : Nat) (hy : y < 2 ^ 8) : x <<< 8 ||| y = x * 256 + y := by
  rw [Nat.shiftLeft_eq, Nat.mul_comm, ← Nat.two_pow_add_eq_or_of_lt hy]

theorem beNat_two (a b : Byte) : beNat [a, b] = (a ++ b : BitVec 16).toNat := by
  simp only [beNat, List.foldl_cons, List.foldl_nil, BitVec.toNat_append]
  rw [append_byte _ _ b.isLt]; omega

theorem beNat_four (a b c d : Byte) : beNat [a, b, c, d] = (a ++ b ++ c ++ d : BitVec 32).toNat := by
  simp only [beNat, List.foldl_cons, List.foldl_nil, BitVec.toNat_append]
  rw [append_byte _ _ b.isLt, append_byte _ _ c.isLt, append_byte _ _ d.isLt, Nat.zero_mul, Nat.zero_add]

/-- The scaled value of two bytes is the exact quotient (R151). -/
theorem value_s16q (scale : Nat) (a b : Byte) :
    (FieldOp.s16q scale).value [a, b] = .scaled (((a ++ b : BitVec 16).toInt : Rat) / (scale : Rat)) := by
  simp only [FieldOp.value]
  rw [beNat_two, sext_eq_toInt _ (by omega), Rat.mkRat_eq_div]

/-- The scaled value of four bytes is the exact quotient (R152). -/
theorem value_s32q (scale : Nat) (a b c d : Byte) :
    (FieldOp.s32q scale).value [a, b, c, d] = .scaled (((a ++ b ++ c ++ d : BitVec 32).toInt : Rat) / (scale : Rat)) := by
  simp only [FieldOp.value]
  rw [beNat_four, sext_eq_toInt _ (by omega), Rat.mkRat_eq_div]

/-- The integer of four bytes (R153). -/
theorem value_s32 (a b c d : Byte) : FieldOp.s32.value [a, b, c, d] = .integer (a ++ b ++ c ++ d : BitVec 32).toInt := by
  simp only [FieldOp.value]
  rw [beNat_four, sext_eq_toInt _ (by omega)]

/-- The raw byte (R154). -/
theorem value_u8 (b : Byte) : FieldOp.u8.value [b] = .byte b := by
  simp [FieldOp.value, beNat, byteOf]

/-! ### A read -/

/-- All that a read can do: the scale refusal, the bounds refusal, a fault on unspecified contents, or the value and the cursor. -/
theorem readField_cases (op : FieldOp) (s : State) :
    (op.zeroScale = true ∧ readField op s = .refused .scaleZero) ∨
    (op.zeroScale = false ∧ s.val.len < s.cur + op.width ∧ readField op s = .refused .readPastEnd) ∨
    (op.zeroScale = false ∧ s.cur + op.width ≤ s.val.len ∧ Mem.readBytes s.val.buf s.cur op.width = none ∧
      readField op s = .fault .unspecifiedByte) ∨
    (op.zeroScale = false ∧ s.cur + op.width ≤ s.val.len ∧ ∃ bs, Mem.readBytes s.val.buf s.cur op.width = some bs ∧
      readField op s = .next (op.value bs, s.withCur (s.cur + op.width))) := by
  unfold readField
  by_cases hz : op.zeroScale = true
  · left; simp [hz]
  · have hz : op.zeroScale = false := by simpa using hz
    right
    by_cases hb : s.val.len < s.cur + op.width
    · left; simp [hz, hb]
    · right
      cases hr : Mem.readBytes s.val.buf s.cur op.width with
      | none => left; simp [hz, hb]; omega
      | some bs => right; simp [hz, hb]; omega

theorem readField_next {op : FieldOp} {s : State} {bs : List Byte} (hz : op.zeroScale = false)
    (hb : s.cur + op.width ≤ s.val.len) (hr : Mem.readBytes s.val.buf s.cur op.width = some bs) :
    readField op s = .next (op.value bs, s.withCur (s.cur + op.width)) := by
  simp [readField, hz, Nat.not_lt.mpr hb, hr]

theorem readField_eq_next {op : FieldOp} {s : State} {r : FieldValue × State} (h : readField op s = .next r) :
    ∃ bs, bs.length = op.width ∧ s.cur + op.width ≤ s.val.len ∧ r = (op.value bs, s.withCur (s.cur + op.width)) := by
  rcases readField_cases op s with ⟨_, e⟩ | ⟨_, _, e⟩ | ⟨_, _, _, e⟩ | ⟨_, hl, bs, hr, e⟩
  · rw [e] at h; cases h
  · rw [e] at h; cases h
  · rw [e] at h; cases h
  · rw [e] at h; cases h
    exact ⟨bs, ((Mem.readBytes_eq_some _ _ _ _).mp hr).1, hl, rfl⟩

/-- Every field of the schedule has a positive scale (R79). -/
theorem gvOp_zeroScale (k : Fin 18) : (gvOp k).zeroScale = false := by revert k; decide

end Sys2Proof.Machine
end

