-- ==== Sys2Proof/Laws/Decoder.lean ====
section
/-! SUPPORT. The payload decoder: what a schedule step and a run of steps can do. -/

namespace Sys2Proof.Machine

/-- A schedule step that the cursor and `dec_step` allow (R162). -/
theorem gvStep_next {k : Fin 18} {s : State} {bs : List Byte} (hk : s.decStep = k.val)
    (hb : s.cur + (gvOp k).width ≤ s.val.len) (hr : Mem.readBytes s.val.buf s.cur (gvOp k).width = some bs) :
    gvStep k s = .next { s with
      cur := s.cur + (gvOp k).width, stage := s.stage.set k.val (.value ((gvOp k).value bs)), decStep := k.val + 1 } := by
  simp only [gvStep, if_pos hk, readField_next (gvOp_zeroScale k) hb hr, andThen_next]
  rfl

/-- All that a schedule step can do when it answers a next state. -/
theorem gvStep_eq_next {k : Fin 18} {s t : State} (h : gvStep k s = .next t) :
    s.decStep = k.val ∧ s.cur + (gvOp k).width ≤ s.val.len ∧ ∃ bs, bs.length = (gvOp k).width ∧ t = { s with
      cur := s.cur + (gvOp k).width, stage := s.stage.set k.val (.value ((gvOp k).value bs)), decStep := k.val + 1 } := by
  unfold gvStep at h
  split at h
  · rename_i hk
    obtain ⟨r, hr, h⟩ := andThen_eq_next.mp h
    obtain ⟨bs, hl, hb, rfl⟩ := readField_eq_next hr
    cases h
    exact ⟨hk, hb, bs, hl, rfl⟩
  · cases h

/-- A run of steps changes the cursor, the stage and the step count only. -/
theorem runSteps_frame : ∀ (ks : List (Fin 18)) {s t : State}, runSteps ks s = .next t →
    t = { s with cur := t.cur, stage := t.stage, decStep := t.decStep } := by
  intro ks
  induction ks with
  | nil => intro s t h; cases h; rfl
  | cons k ks ih =>
    intro s t h
    obtain ⟨u, hu, h⟩ := andThen_eq_next.mp h
    obtain ⟨_, _, bs, _, rfl⟩ := gvStep_eq_next hu
    have := ih h
    exact this

/-- The index at which step `k`'s field starts (R79). -/
def gvStart (k : Nat) : Nat := ((gvOrder.take k).map (fun j => (gvOp j).width)).foldl (· + ·) 1

/-- The bytes of step `k`'s field in a payload. -/
def gvBytes (p : List Byte) (k : Fin 18) : List Byte := (p.drop (gvStart k.val)).take (gvOp k).width

/-- The stage after the first `n` steps over a payload. -/
def stagedTo (p : List Byte) (st : Vector TReg 18) : Nat → Vector TReg 18
  | 0 => st
  | n + 1 => if h : n < 18 then (stagedTo p st n).set n (.value ((gvOp ⟨n, h⟩).value (gvBytes p ⟨n, h⟩))) else stagedTo p st n

/-- After a run of steps `dec_step` is the last step's successor. -/
theorem runSteps_decStep : ∀ (ks : List (Fin 18)) {s t : State} (hne : ks ≠ []), runSteps ks s = .next t →
    t.decStep = (ks.getLast hne).val + 1 := by
  intro ks
  induction ks with
  | nil => intro s t h; exact absurd rfl h
  | cons k ks ih =>
    intro s t _ h
    obtain ⟨u, hu, h⟩ := andThen_eq_next.mp h
    obtain ⟨_, _, bs, _, rfl⟩ := gvStep_eq_next hu
    cases ks with
    | nil => cases h; rfl
    | cons k' ks => rw [ih (by simp) h]; simp

/-- All that the get-values arm can do when it answers (R160, R162 to R164). -/
theorem getValuesOp_eq_next {s : State} {r : OutcomeCode × State} (h : getValuesOp s = .next r) :
    (s.val.len < 59 ∧ r = (.shortPayload, s)) ∨
    (59 ≤ s.val.len ∧ ∃ t, runSteps gvOrder { s with cur := 1, decStep := 0 } = .next t ∧ t.decStep = 18 ∧ r = (.decoded, commit t)) := by
  unfold getValuesOp at h
  split at h
  · rename_i hl; cases h; exact .inl ⟨hl, rfl⟩
  · rename_i hl
    obtain ⟨t, ht, h⟩ := andThen_eq_next.mp h
    cases h
    exact .inr ⟨Nat.not_lt.mp hl, t, ht, runSteps_decStep gvOrder (by simp [gvOrder]) ht, rfl⟩

/-- All that DECODE's own steps can do when they answer (R160, R161). -/
theorem decodeOp_eq_next {s : State} {r : OutcomeCode × State} (h : decodeOp s = .next r) :
    (s.val.ok = true ∧ r = (.unsupportedOpcode, s)) ∨ getValuesOp s = .next r := by
  unfold decodeOp at h
  split at h
  · rename_i hok
    split at h
    · cases h; exact .inl ⟨hok, rfl⟩
    · split at h
      · cases h
      · split at h
        · exact .inr h
        · cases h; exact .inl ⟨hok, rfl⟩
  · cases h

/-- Each field starts where the one before it ends (R79). -/
theorem gvStart_succ : ∀ k : Fin 18, gvStart (k.val + 1) = gvStart k.val + (gvOp k).width := by decide

theorem gvStart_le : ∀ k : Fin 18, gvStart k.val + (gvOp k).width ≤ 59 := by decide

/-- The payload's bytes are what a read within it finds. -/
theorem readBytes_payload {s : State} {p : List Byte} (hp : payload s = some p) {i n : Nat} (h : i + n ≤ s.val.len) :
    Mem.readBytes s.val.buf i n = some ((p.drop i).take n) := by
  obtain ⟨hl, hr⟩ := (Mem.readBytes_eq_some _ _ _ _).mp hp
  refine (Mem.readBytes_eq_some _ _ _ _).mpr ⟨by simp; omega, fun k hk => ?_⟩
  have := hr (i + k) (by omega)
  rw [Nat.zero_add] at this
  rw [this, List.getElem?_take, if_pos hk, List.getElem?_drop]

/-- Step `k` over a payload of at least 59 bytes. -/
theorem gvStep_payload {s : State} {p : List Byte} (hl : 59 ≤ s.val.len) (hp : payload s = some p) (st : Vector TReg 18)
    (k : Fin 18) : gvStep k { s with cur := gvStart k.val, stage := stagedTo p st k.val, decStep := k.val } =
    .next { s with cur := gvStart (k.val + 1), stage := stagedTo p st (k.val + 1), decStep := k.val + 1 } := by
  have hb := gvStart_le k
  have := gvStep_next (k := k) (s := { s with cur := gvStart k.val, stage := stagedTo p st k.val, decStep := k.val })
    (bs := gvBytes p k) rfl (by change gvStart k.val + _ ≤ s.val.len; omega)
    (readBytes_payload (s := { s with cur := gvStart k.val, stage := stagedTo p st k.val, decStep := k.val }) hp
      (by change gvStart k.val + _ ≤ s.val.len; omega))
  rw [this, gvStart_succ]
  simp [stagedTo, k.isLt]

/-- The whole schedule over a payload of at least 59 bytes (R162). -/
theorem runSteps_payload {s : State} {p : List Byte} (hl : 59 ≤ s.val.len) (hp : payload s = some p) :
    runSteps gvOrder { s with cur := 1, decStep := 0 } =
      .next { s with cur := 59, stage := stagedTo p s.stage 18, decStep := 18 } := by
  have f := gvStep_payload hl hp s.stage
  have e0 : ({ s with cur := 1, decStep := 0 } : State) =
      { s with cur := gvStart 0, stage := stagedTo p s.stage 0, decStep := 0 } := rfl
  rw [e0]
  simp only [gvOrder, runSteps]
  rw [show gvStart 0 = gvStart (0 : Fin 18).val from rfl]
  have g : ∀ (k : Fin 18) (K : State → Res State),
      andThen (gvStep k { s with cur := gvStart k.val, stage := stagedTo p s.stage k.val, decStep := k.val }) K =
        K { s with cur := gvStart (k.val + 1), stage := stagedTo p s.stage (k.val + 1), decStep := k.val + 1 } :=
    fun k K => by rw [f k]; rfl
  refine (g 0 _).trans ?_
  refine (g 1 _).trans ?_
  refine (g 2 _).trans ?_
  refine (g 3 _).trans ?_
  refine (g 4 _).trans ?_
  refine (g 5 _).trans ?_
  refine (g 6 _).trans ?_
  refine (g 7 _).trans ?_
  refine (g 8 _).trans ?_
  refine (g 9 _).trans ?_
  refine (g 10 _).trans ?_
  refine (g 11 _).trans ?_
  refine (g 12 _).trans ?_
  refine (g 13 _).trans ?_
  refine (g 14 _).trans ?_
  refine (g 15 _).trans ?_
  refine (g 16 _).trans ?_
  refine (g 17 _).trans ?_
  rfl

theorem at8_get {p : List Byte} {i : Nat} (h : i < p.length) : at8 p i = p[i] := by simp [at8, h]

theorem take2 {p : List Byte} {i : Nat} (h : i + 2 ≤ p.length) : (p.drop i).take 2 = [at8 p i, at8 p (i + 1)] := by
  rw [at8_get (by omega), at8_get (by omega), List.drop_eq_getElem_cons (by omega), List.drop_eq_getElem_cons (by omega)]; simp only [List.take_succ_cons, List.take_zero]

theorem take4 {p : List Byte} {i : Nat} (h : i + 4 ≤ p.length) :
    (p.drop i).take 4 = [at8 p i, at8 p (i + 1), at8 p (i + 2), at8 p (i + 3)] := by
  rw [at8_get (by omega), at8_get (by omega), at8_get (by omega), at8_get (by omega),
    List.drop_eq_getElem_cons (by omega), List.drop_eq_getElem_cons (by omega),
    List.drop_eq_getElem_cons (by omega), List.drop_eq_getElem_cons (by omega)]; simp only [List.take_succ_cons, List.take_zero]

theorem take1 {p : List Byte} {i : Nat} (h : i + 1 ≤ p.length) : (p.drop i).take 1 = [at8 p i] := by
  rw [at8_get (by omega), List.drop_eq_getElem_cons (by omega)]; simp only [List.take_succ_cons, List.take_zero]

/-- A signed 16-bit field of the payload, as the schedule reads it and as the table says it (R79, R151). -/
theorem value_at16 {p : List Byte} {i n : Nat} (h : i + 2 ≤ p.length) :
    TReg.value ((FieldOp.s16q n).value ((p.drop i).take 2)) = quot (at16 p i) n := by
  rw [take2 h, value_s16q]; rfl

/-- A scaled 32-bit field (R79, R152). -/
theorem value_at32 {p : List Byte} {i n : Nat} (h : i + 4 ≤ p.length) :
    TReg.value ((FieldOp.s32q n).value ((p.drop i).take 4)) = quot (at32 p i) n := by
  rw [take4 h, value_s32q]; rfl

/-- A raw 32-bit field (R79, R153). -/
theorem value_raw32 {p : List Byte} {i : Nat} (h : i + 4 ≤ p.length) :
    TReg.value (FieldOp.s32.value ((p.drop i).take 4)) = .value (.integer (at32 p i)) := by
  rw [take4 h, value_s32]; rfl

/-- A raw byte field (R79, R154). -/
theorem value_at8 {p : List Byte} {i : Nat} (h : i + 1 ≤ p.length) :
    TReg.value (FieldOp.u8.value ((p.drop i).take 1)) = .value (.byte (at8 p i)) := by
  rw [take1 h, value_u8]

/-- Each step done has staged its field. -/
theorem stagedTo_get {p : List Byte} {st : Vector TReg 18} : ∀ (n : Nat), n ≤ 18 → ∀ k : Fin 18, k.val < n →
    (stagedTo p st n)[k] = .value ((gvOp k).value (gvBytes p k)) := by
  intro n
  induction n with
  | zero => intro _ k hk; omega
  | succ n ih =>
    intro hn k hk
    have hn' : n < 18 := by omega
    simp only [stagedTo, hn', dif_pos]
    by_cases h : k.val = n
    · subst h; simp
    · have := ih (by omega) k (by omega)
      simp only [Fin.getElem_fin] at this ⊢
      rw [Vector.getElem_set_ne _ _ (by omega)]
      exact this

/-- What the schedule stages is the record of the payload. -/
theorem stagedTo_record {p : List Byte} (st : Vector TReg 18) (hl : 59 ≤ p.length) : stagedTo p st 18 = recordOf p := by
  apply Vector.ext
  intro i hi
  have := stagedTo_get (p := p) (st := st) 18 (Nat.le_refl _) ⟨i, hi⟩ hi
  simp only [Fin.getElem_fin] at this
  rw [this]
  clear this
  match i, hi with
  | 0, _ => exact value_at16 (i := 1) (by omega)
  | 1, _ => exact value_at16 (i := 3) (by omega)
  | 2, _ => exact value_at32 (i := 5) (by omega)
  | 3, _ => exact value_at32 (i := 9) (by omega)
  | 4, _ => exact value_at32 (i := 13) (by omega)
  | 5, _ => exact value_at32 (i := 17) (by omega)
  | 6, _ => exact value_at16 (i := 21) (by omega)
  | 7, _ => exact value_at32 (i := 23) (by omega)
  | 8, _ => exact value_at16 (i := 27) (by omega)
  | 9, _ => exact value_at32 (i := 29) (by omega)
  | 10, _ => exact value_at32 (i := 33) (by omega)
  | 11, _ => exact value_at32 (i := 37) (by omega)
  | 12, _ => exact value_at32 (i := 41) (by omega)
  | 13, _ => exact value_raw32 (i := 45) (by omega)
  | 14, _ => exact value_raw32 (i := 49) (by omega)
  | 15, _ => exact value_at8 (i := 53) (by omega)
  | 16, _ => exact value_at32 (i := 54) (by omega)
  | 17, _ => exact value_at8 (i := 58) (by omega)
  | n + 18, h => omega

/-- DECODE's own steps on a get-values payload of at least 59 bytes (R160, R163). -/
theorem decodeOp_record {s : State} {p : List Byte} (hok : s.val.ok = true) (hl : 59 ≤ s.val.len)
    (hp : payload s = some p) (h0 : p[0]? = some s.params.opcGetValues) :
    decodeOp s = .next (.decoded, { s with T := recordOf p, stage := recordOf p, cur := 59, decStep := 0 }) ∧
      getValuesOp s = decodeOp s ∧ Mem.read s.val.buf 0 = some s.params.opcGetValues := by
  have hr : Mem.read s.val.buf 0 = some s.params.opcGetValues := by
    have := ((Mem.readBytes_eq_some _ _ _ _).mp hp).2 0 (by omega)
    rw [← h0]; simpa using this
  have hpl : p.length = s.val.len := ((Mem.readBytes_eq_some _ _ _ _).mp hp).1
  have e : getValuesOp s =
      .next (.decoded, { s with T := recordOf p, stage := recordOf p, cur := 59, decStep := 0 }) := by
    unfold getValuesOp
    rw [if_neg (by simp [Config.gvMinLen]; omega), runSteps_payload hl hp, andThen_next, stagedTo_record _ (by omega)]; rfl
  have e' : decodeOp s = getValuesOp s := by
    simp [decodeOp, hok, hr, show s.val.len ≠ 0 by omega]
  exact ⟨e'.trans e, e'.symm, hr⟩

/-- All that DECODE answers on a validated payload (R160, R161, R163, R164). -/
theorem decodeOp_payload {w : State} {p : List Byte} (hok : w.val.ok = true) (hl : w.val.len = p.length) (hp : payload w = some p)
    {out : OutcomeCode} (ho : out = if p[0]? ≠ some w.params.opcGetValues then .unsupportedOpcode
      else if p.length < 59 then .shortPayload else .decoded) :
    decodeOp w = .next (out,
      if out = .decoded then { w with T := recordOf p, stage := recordOf p, cur := 59, decStep := 0 } else w) := by
  have hr : ∀ k, k < p.length → Mem.read w.val.buf k = p[k]? := by
    intro k hk
    have := ((Mem.readBytes_eq_some _ _ _ _).mp hp).2 k (by omega)
    simpa using this
  by_cases h0 : p[0]? = some w.params.opcGetValues
  · by_cases h59 : p.length < 59
    · have hout : out = .shortPayload := by simp [ho, h0, h59]
      have hpos : 0 < p.length := by
        rcases Nat.eq_zero_or_pos p.length with h | h
        · rw [List.length_eq_zero_iff.mp h] at h0; cases h0
        · exact h
      have : Mem.read w.val.buf 0 = some w.params.opcGetValues := by rw [hr 0 hpos, h0]
      rw [hout]
      simp [decodeOp, hok, hl, show p.length ≠ 0 by omega, this, getValuesOp, Config.gvMinLen, h59]
    · have hout : out = .decoded := by simp [ho, h0, h59]
      rw [hout, if_pos rfl]
      exact (decodeOp_record hok (by omega) hp h0).1
  · have hout : out = .unsupportedOpcode := by simp [ho, h0]
    rw [hout]
    rcases Nat.eq_zero_or_pos p.length with h | h
    · simp [decodeOp, hok, hl, h]
    · have h1 := hr 0 h
      rw [List.getElem?_eq_getElem h] at h1 h0
      have : ¬ p[0] = w.params.opcGetValues := fun e => h0 (by rw [e])
      simp [decodeOp, hok, hl, show p.length ≠ 0 by omega, h1, this]

/-- Bytes from index 59 on play no part in the record (R164). -/
theorem recordOf_take {p : List Byte} (hl : 59 ≤ p.length) : recordOf p = recordOf (p.take 59) := by
  have hb : ∀ k : Fin 18, gvBytes (p.take 59) k = gvBytes p k := by
    intro k
    have := gvStart_le k
    unfold gvBytes
    rw [List.drop_take, List.take_take, Nat.min_eq_left (by omega)]
  have hs : ∀ n, stagedTo (p.take 59) State.reset.stage n = stagedTo p State.reset.stage n := by
    intro n
    induction n with
    | zero => rfl
    | succ n ih => simp only [stagedTo, ih, hb]
  rw [← stagedTo_record State.reset.stage hl,
    ← stagedTo_record State.reset.stage (p := p.take 59) (by rw [List.length_take]; omega), hs]

end Sys2Proof.Machine
end

