-- ==== Sys2Proof/Laws/RxInvariant.lean ====
section
/-! SUPPORT. The receiver's part of the invariant, and that every operation on the receiver keeps it. -/

namespace Sys2Proof.Machine

/-- The receiver's part of `Inv`, at a capacity, but for the extent of its buffer. -/
structure RxInv (cap : Nat) (r : Rx) : Prop where
  written : ∀ i, i < r.cnt → (Mem.read r.buf i).isSome = true
  count : r.cnt ≤ cap
  header : r.exp = if 2 ≤ r.cnt ∧ Mem.read r.buf 0 = some Config.markShort then some (r.len + 5) else none
  length : r.exp = none → r.len = 0
  declared : r.exp ≠ none → Mem.read r.buf 1 = some (byteOf r.len)
  lenMax : r.len ≤ 255
  idle : r.state = .idle → r.cnt = 0
  room : r.state = .accumulating → r.cnt < cap
  complete : r.state = .complete → r.exp = some r.cnt ∧ Mem.read r.buf (r.cnt - 1) = some Config.term
  overflow : r.state = .overflowed → r.cnt = cap

theorem Inv.rxInv {s : State} (h : Inv s) : RxInv s.params.rxCap s.rx :=
  ⟨h.rxWritten, h.rxCount, h.rxHeader, h.rxLength, h.rxDeclared, h.rxLenMax, h.rxIdle, h.rxRoom,
    h.rxComplete, h.rxOverflow⟩

theorem RxInv.reset (cap : Nat) : RxInv cap Rx.reset := by
  constructor <;> simp [Rx.reset]

/-- The start of a receive keeps the buffer and begins the rest anew (R120). -/
theorem RxInv.start {cap : Nat} (hc : 5 ≤ cap) (buf : Mem) (d : Nat) :
    RxInv cap { state := .accumulating, buf := buf, cnt := 0, exp := none, len := 0, deadline := d } := by
  constructor <;> simp
  omega

/-- A timeout keeps everything but the state (R130). -/
theorem RxInv.timedOut {cap : Nat} {r : Rx} (h : RxInv cap r) : RxInv cap { r with state := .timedOut } :=
  ⟨h.written, h.count, h.header, h.length, h.declared, h.lenMax, by simp, by simp, by simp, by simp⟩

theorem stateAfterByte_accumulating {cap cnt : Nat} {exp : Option Nat} {b : Byte}
    (h : stateAfterByte cap exp cnt b .accumulating = .accumulating) : cnt ≠ cap := by
  unfold stateAfterByte at h
  split at h
  · cases h
  · split at h
    · cases h
    · assumption

theorem stateAfterByte_complete {cap cnt : Nat} {exp : Option Nat} {b : Byte}
    (h : stateAfterByte cap exp cnt b .accumulating = .complete) : exp = some cnt ∧ b = Config.term := by
  unfold stateAfterByte at h
  split at h
  · assumption
  · split at h <;> cases h

theorem stateAfterByte_overflowed {cap cnt : Nat} {exp : Option Nat} {b : Byte}
    (h : stateAfterByte cap exp cnt b .accumulating = .overflowed) : cnt = cap := by
  unfold stateAfterByte at h
  split at h
  · cases h
  · split at h
    · assumption
    · cases h

theorem byteOf_toNat (b : Byte) : byteOf b.toNat = b := by simp [byteOf]

/-- The accumulation of one byte (R123 to R125). -/
theorem RxInv.accumulate {s : State} (h : RxInv s.params.rxCap s.rx) (ha : s.rx.state = .accumulating) (b : Byte) :
    RxInv s.params.rxCap (accumulate b s).rx := by
  have hroom := h.room ha
  have hread : ∀ i, Mem.read (Mem.write s.rx.buf s.rx.cnt b) i = if s.rx.cnt = i then some b else Mem.read s.rx.buf i :=
    Mem.read_write _ _ _
  have hseen : headerSeen (Mem.write s.rx.buf s.rx.cnt b) (s.rx.cnt + 1) = true ↔
      s.rx.cnt = 1 ∧ Mem.read s.rx.buf 0 = some Config.markShort := by
    simp only [headerSeen, Bool.and_eq_true, decide_eq_true_eq, beq_iff_eq, hread]
    constructor
    · rintro ⟨h1, h2⟩; rw [if_neg (by omega)] at h2; exact ⟨by omega, h2⟩
    · rintro ⟨h1, h2⟩; rw [if_neg (by omega)]; exact ⟨by omega, h2⟩
  have hhead := h.header
  have hlast := stateAfterByte_ne_idle (cap := s.params.rxCap) (cnt := s.rx.cnt + 1)
    (exp := if headerSeen (Mem.write s.rx.buf s.rx.cnt b) (s.rx.cnt + 1) then some (b.toNat + 5) else s.rx.exp) (b := b)
    (old := s.rx.state) (by simp [ha])
  constructor
  · intro i hi
    change (Mem.read (Mem.write s.rx.buf s.rx.cnt b) i).isSome = true
    rw [hread]
    split
    · rfl
    · exact h.written i (by change i < s.rx.cnt + 1 at hi; omega)
  · exact hroom
  · change (if headerSeen (Mem.write s.rx.buf s.rx.cnt b) (s.rx.cnt + 1) then some (b.toNat + 5) else s.rx.exp) =
      if 2 ≤ s.rx.cnt + 1 ∧ Mem.read (Mem.write s.rx.buf s.rx.cnt b) 0 = some Config.markShort then
        some ((if headerSeen (Mem.write s.rx.buf s.rx.cnt b) (s.rx.cnt + 1) then b.toNat else s.rx.len) + 5) else none
    by_cases h0 : s.rx.cnt = 0
    · have : s.rx.exp = none := by rw [hhead, if_neg (by omega)]
      have hs : ¬ headerSeen (Mem.write s.rx.buf s.rx.cnt b) (s.rx.cnt + 1) = true := by rw [hseen]; omega
      rw [if_neg hs, if_neg (by omega), this]
    · rw [hread 0, if_neg h0]
      by_cases h1 : s.rx.cnt = 1 ∧ Mem.read s.rx.buf 0 = some Config.markShort
      · rw [if_pos (hseen.mpr h1), if_pos (hseen.mpr h1), if_pos ⟨by omega, h1.2⟩]
      · have hs := mt hseen.mp h1
        rw [if_neg hs, if_neg hs, hhead]
        by_cases h2 : Mem.read s.rx.buf 0 = some Config.markShort
        · have : 2 ≤ s.rx.cnt := by
            rcases Nat.lt_or_ge s.rx.cnt 2 with hlt | hge
            · exact absurd ⟨by omega, h2⟩ h1
            · exact hge
          rw [if_pos ⟨this, h2⟩, if_pos ⟨by omega, h2⟩]
        · rw [if_neg (fun hh => h2 hh.2), if_neg (fun hh => h2 hh.2)]
  · change (if headerSeen (Mem.write s.rx.buf s.rx.cnt b) (s.rx.cnt + 1) then some (b.toNat + 5) else s.rx.exp) = none →
      (if headerSeen (Mem.write s.rx.buf s.rx.cnt b) (s.rx.cnt + 1) then b.toNat else s.rx.len) = 0
    split
    · intro hh; cases hh
    · exact h.length
  · change (if headerSeen (Mem.write s.rx.buf s.rx.cnt b) (s.rx.cnt + 1) then some (b.toNat + 5) else s.rx.exp) ≠ none →
      Mem.read (Mem.write s.rx.buf s.rx.cnt b) 1 =
        some (byteOf (if headerSeen (Mem.write s.rx.buf s.rx.cnt b) (s.rx.cnt + 1) then b.toNat else s.rx.len))
    split
    · rename_i hs
      intro _
      rw [hread, if_pos (hseen.mp hs).1, byteOf_toNat]
    · intro hne
      rw [hread, if_neg]
      · exact h.declared hne
      · intro h1
        apply hne
        rw [hhead, if_neg (by omega)]
  · change (if headerSeen (Mem.write s.rx.buf s.rx.cnt b) (s.rx.cnt + 1) then b.toNat else s.rx.len) ≤ 255
    split
    · have := b.isLt; omega
    · exact h.lenMax
  · intro hh; exact absurd hh hlast
  · intro hh
    rw [accumulate_rx_state, ha] at hh
    have := stateAfterByte_accumulating hh
    change s.rx.cnt + 1 < s.params.rxCap
    omega
  · intro hh
    rw [accumulate_rx_state, ha] at hh
    obtain ⟨he, rfl⟩ := stateAfterByte_complete hh
    refine ⟨he, ?_⟩
    change Mem.read (Mem.write s.rx.buf s.rx.cnt Config.term) s.rx.cnt = _
    exact Mem.read_write_same _ _ _
  · intro hh
    rw [accumulate_rx_state, ha] at hh
    exact stateAfterByte_overflowed hh

/-- The accumulation of bytes while the receive is in progress. -/
theorem RxInv.absorb (bs : List Byte) : ∀ {s : State} (_ : RxInv s.params.rxCap s.rx)
    (_ : ∀ k, k < bs.length → (absorb (bs.take k) s).rx.state = .accumulating), RxInv s.params.rxCap (absorb bs s).rx := by
  induction bs with
  | nil => intro s h _; exact h
  | cons b bs ih =>
    intro s h hl
    exact ih (s := Machine.accumulate b s) (h.accumulate (hl 0 (by simp)) b) (fun k hk => hl (k + 1) (by simpa using hk))

/-- What a receive in progress leads to, from its start (R120, R127). -/
theorem RxInv.stretch {s t : State} {used : List (List Outside)} {bs : List Byte} (h : Stretch s t used bs)
    (hr : RxInv s.params.rxCap s.rx) : RxInv s.params.rxCap t.rx := by
  rw [h.core]; exact hr.absorb bs h.live

end Sys2Proof.Machine
end

