-- ==== Sys2Proof/Laws/Validator.lean ====
section
/-! SUPPORT. The validator: which frames are structurally sound, and what validation can do. -/

namespace Sys2Proof.Machine

/-- The structural test (R142). -/
theorem frameOk_iff (f : List Byte) (n : Nat) : frameOk f n = true ↔
    5 ≤ n ∧ f[0]? = some 0x02 ∧ (∃ l, f[1]? = some l ∧ n = l.toNat + 5) ∧ f[n - 1]? = some 0x03 := by
  unfold frameOk
  simp only [Bool.and_eq_true, decide_eq_true_eq, beq_iff_eq, Config.markShort, Config.term]
  constructor
  · rintro ⟨⟨⟨h1, h2⟩, h3⟩, h4⟩
    refine ⟨h1, h2, ?_, h4⟩
    split at h3
    · rename_i l hl; exact ⟨l, hl, by simpa using h3⟩
    · cases h3
  · rintro ⟨h1, h2, ⟨l, hl, h3⟩, h4⟩
    exact ⟨⟨⟨h1, h2⟩, by rw [hl]; simpa using h3⟩, h4⟩

/-- Where the parts of a short frame stand (R71). -/
theorem shortFrame_parts (p : List Byte) (hi lo : Byte) :
    let f := [0x02, byteOf p.length] ++ p ++ [hi, lo, 0x03]
    f.length = p.length + 5 ∧ f[p.length + 2]? = some hi ∧ f[p.length + 3]? = some lo ∧ f[p.length + 4]? = some 0x03 ∧
      (f.drop 2).take p.length = p := by
  refine ⟨by simp, ?_, ?_, ?_, ?_⟩
  · simp [List.getElem?_append]
  · simp [List.getElem?_append]
  · simp [List.getElem?_append]
  · simp

/-- Every frame of the short layout is structurally sound (R142). -/
theorem frameOk_short (p : List Byte) (hi lo : Byte) (hp : p.length ≤ 255) :
    frameOk ([0x02, byteOf p.length] ++ p ++ [hi, lo, 0x03]) (p.length + 5) = true := by
  obtain ⟨h1, h2, h3, h4, h5⟩ := shortFrame_parts p hi lo
  refine (frameOk_iff _ _).mpr ⟨by omega, by simp, ⟨_, by simp; rfl, by simp [byteOf]; omega⟩, h4⟩

/-- What checking a frame of the short layout records (R141, R145). -/
theorem checkFrame_short (s : State) (p : List Byte) (hi lo : Byte) :
    checkFrame ([0x02, byteOf p.length] ++ p ++ [hi, lo, 0x03]) (p.length + 5) s =
      s.withVal { buf := Mem.writeBytes s.val.buf 0 p, len := p.length, crcRx := hi ++ lo, crcCalc := crc16 p,
                  ok := decide ((hi ++ lo : Word16) = crc16 p) } := by
  obtain ⟨h1, h2, h3, h4, h5⟩ := shortFrame_parts p hi lo
  have hc : frameChecksum ([0x02, byteOf p.length] ++ p ++ [hi, lo, 0x03]) (p.length + 5) = hi ++ lo := by
    unfold frameChecksum
    rw [show p.length + 5 - 3 = p.length + 2 by omega, show p.length + 5 - 2 = p.length + 3 by omega, h2, h3]; rfl
  unfold checkFrame
  simp only [hc, Nat.add_sub_cancel, h5]
  rfl

/-- The two checksum bytes, high first, make the checksum (R43, R73). -/
theorem hiByte_append_loByte (v : Word16) : (hiByte v ++ loByte v : Word16) = v := by
  apply BitVec.eq_of_getLsbD_eq
  intro i hi
  rw [BitVec.getLsbD_append]
  by_cases h8 : i < 8
  · simp [h8, hi, loByte]
  · simp [h8, hi, hiByte, show i - 8 < 8 by omega, show 8 + (i - 8) = i by omega]

/-! ### The frame of VALIDATE.X (R141, log entry 14) -/

@[simp] theorem frameBytes_length (f : List Byte) (n : Nat) (s : State) : (frameBytes f n s).length = n := by
  simp [frameBytes]; omega

/-- A sequence of exactly `n` bytes is the frame, and nothing is drawn. -/
@[simp] theorem frameBytes_exact (f : List Byte) (s : State) : frameBytes f f.length s = f := by simp [frameBytes]
@[simp] theorem frameDrawn_exact (f : List Byte) (s : State) : frameDrawn f f.length s = s := by simp [frameDrawn]

/-- The frame has the sequence's bytes as far as they go. -/
theorem frameBytes_take (f : List Byte) (n : Nat) (s : State) : (frameBytes f n s).take f.length = f.take n := by
  rcases Nat.le_total n f.length with h | h
  · rw [List.take_of_length_le (by rw [frameBytes_length]; exact h)]
    simp [frameBytes, Nat.sub_eq_zero_of_le h]
  · rw [frameBytes, List.take_of_length_le h, List.take_left]

/-- Only the count of draws moves. -/
theorem frameDrawn_frame (f : List Byte) (n : Nat) (s : State) : ∃ d, frameDrawn f n s = s.withEnv { s.env with draws := d } := by
  unfold frameDrawn
  split
  · exact ⟨_, rfl⟩
  · exact ⟨s.env.draws, rfl⟩

/-- Validation neither reads nor writes the environment. -/
theorem validateOp_withEnv (f : List Byte) (n : Nat) (s : State) (e : Env) :
    validateOp f n (s.withEnv e) = (validateOp f n s).withEnv e := by
  unfold validateOp; split <;> rfl

/-- All that VALIDATE.X answers: the validation of some `n` bytes, which are `f` where `f` has `n` bytes. -/
theorem execValidateX_idle {s : State} (hi : s.seqState = .idle) (f : List Byte) (n : Nat) : ∃ d, execValidateX f n s =
    .next (((validateOp (frameBytes f n s) n s).withEnv { s.env with draws := d }).withResult
      (verdict (frameBytes f n s) n (validateOp (frameBytes f n s) n s))) := by
  obtain ⟨d, hd⟩ := frameDrawn_frame f n s
  refine ⟨d, ?_⟩
  simp only [execValidateX, whenIdle_idle hi, validateFrame, done, hd, validateOp_withEnv]
  rfl

/-- VALIDATE.X on operands of R141. -/
theorem execValidateX_exact {s : State} (hi : s.seqState = .idle) {f : List Byte} {n : Nat} (hn : f.length = n) :
    execValidateX f n s = .next ((validateOp f n s).withResult (verdict f n (validateOp f n s))) := by
  subst hn
  simp only [execValidateX, whenIdle_idle hi, frameBytes_exact, frameDrawn_exact, validateFrame, done]

/-- All that validating the receiver's frame can do when it answers (R140). -/
theorem validateRx_eq_next {s t : State} (h : validateRx s = .next t) :
    s.rx.state = .complete ∧ ∃ n f, s.rx.exp = some n ∧ Mem.readBytes s.rx.buf 0 n = some f ∧
      t = (validateOp f n s).withResult (verdict f n (validateOp f n s)) := by
  unfold validateRx at h
  split at h
  · rename_i hc
    split at h
    · rename_i n he
      split at h
      · rename_i f hf
        cases h
        exact ⟨hc, n, f, he, hf, rfl⟩
      · cases h
    · cases h
  · cases h

/-- Validation changes the validator's registers only. -/
theorem validateOp_frame (f : List Byte) (n : Nat) (s : State) : validateOp f n s = s.withVal (validateOp f n s).val := by
  unfold validateOp; split <;> rfl

/-- A validated frame leaves its payload in `pay_buf` (R141, R145). -/
theorem validateOp_payload {f : List Byte} {n : Nat} (s : State) (hl : f.length = n) (h : (validateOp f n s).val.ok = true) :
    ∃ p, payload (validateOp f n s) = some p ∧ (validateOp f n s).val.len = p.length := by
  unfold validateOp at h ⊢
  split at h
  · rename_i ho
    rw [if_pos ho]
    have h5 := ((frameOk_iff _ _).mp ho).1
    have hpl : ((f.drop 2).take (n - 5)).length = n - 5 := by simp; omega
    refine ⟨(f.drop 2).take (n - 5), ?_, ?_⟩
    · refine (Mem.readBytes_eq_some _ _ _ _).mpr ⟨hpl, fun k hk => ?_⟩
      have hk' : k < n - 5 := hk
      change Mem.read (Mem.writeBytes s.val.buf 0 _) _ = _
      rw [Mem.read_writeBytes, if_pos (by omega)]; simp
    · exact hpl.symm
  · cases h

end Sys2Proof.Machine
end

