-- ==== Sys2Proof/Laws/Invariant.lean ====
section
/-! SUPPORT. The invariant, operation by operation. REFRESH works with `seq_state` not Idle: what holds then is `Steady`. -/

namespace Sys2Proof.Machine

/-- The invariant but for `seq_state`, which is not Idle inside a REFRESH. -/
def Steady (s : State) : Prop := Inv (s.withSeq .idle)

theorem Inv.steady {s : State} (h : Inv s) : Steady s := { h with seqIdle := rfl }

theorem Steady.inv {s : State} (h : Steady s) (hi : s.seqState = .idle) : Inv s := { h with seqIdle := hi }

theorem Steady.withSeq {s : State} (h : Steady s) (q : SeqState) : Steady (s.withSeq q) := h

theorem Steady.withEnv {s : State} (h : Steady s) (e : Env) : Steady (s.withEnv e) := { h with }

theorem Steady.withResult {s : State} (h : Steady s) (r : Result) : Steady (s.withResult r) := { h with }

theorem Steady.taken {s : State} (h : Steady s) (rest : List Byte) : Steady (taken s rest) := { h with }

theorem Steady.withCrc {s : State} (h : Steady s) (c : Word16) : Steady { s with crc := c } := { h with }

theorem Steady.bind {s : State} (h : Steady s) : Steady { s with bound := true } := { h with rxUnbound := by intro h; cases h }

/-- Reset gives every element its value, whatever it was (R210). -/
theorem coreReset_inv {s : State} (h : 5 ≤ s.params.rxCap) : Inv (coreReset s) := by
  constructor <;> simp [coreReset, State.reset, Rx.reset, Val.reset, Mem.wf]
  · exact h

theorem Steady.interleave {s : State} (h : Steady s) : Steady (interleave s) := by
  rcases interleave_core s with e | e
  · rw [e]; exact h.withEnv _
  · rw [e]; exact (coreReset_inv h.capMin).steady.withEnv _

theorem Inv.interleave {s : State} (h : Inv s) : Inv (interleave s) := by
  refine h.steady.interleave.inv ?_
  rcases interleave_core s with e | e
  · rw [e]; exact h.seqIdle
  · rw [e]; rfl

/-! ### The receiver -/

/-- New receiver registers that meet the receiver's part. -/
theorem Steady.withRx {s : State} (h : Steady s) {r : Rx} (hr : RxInv s.params.rxCap r) (hw : Mem.wf r.buf)
    (hs : ∀ c ∈ r.buf, c.1 < s.params.rxCap) (hb : s.bound = false → r.state = .idle) : Steady (s.withRx r) :=
  { h with
    rxBufWf := hw, rxBufSize := hs, rxWritten := hr.written, rxCount := hr.count, rxHeader := hr.header,
    rxLength := hr.length, rxDeclared := hr.declared, rxLenMax := hr.lenMax, rxIdle := hr.idle, rxUnbound := hb,
    rxRoom := hr.room, rxComplete := hr.complete, rxOverflow := hr.overflow }

theorem Steady.rx {s : State} (h : Steady s) : RxInv s.params.rxCap s.rx := Inv.rxInv (s := s.withSeq .idle) h

theorem Steady.clearOk {s : State} (h : Steady s) : Steady (s.withVal { s.val with ok := false }) :=
  { h with validated := by intro h; cases h }

/-- A receiver that is not Idle has a transport (R129). -/
theorem Steady.bound_of {s : State} (h : Steady s) (hr : s.rx.state ≠ .idle) : s.bound = true := by
  by_contra hb
  exact hr (h.rxUnbound (by simpa using hb))

theorem Steady.startReceive {s : State} (h : Steady s) (hb : s.bound = true) : Steady (startReceive s) :=
  h.clearOk.withRx (RxInv.start h.capMin _ _) h.rxBufWf h.rxBufSize (by intro hf; change s.bound = false at hf; rw [hf] at hb; cases hb)

theorem Steady.accumulate {s : State} (h : Steady s) (ha : s.rx.state = .accumulating) (b : Byte) : Steady (accumulate b s) :=
  h.withRx (h.rx.accumulate ha b) (Mem.write_wf h.rxBufWf _ _) (Mem.write_bound h.rxBufSize (h.rxRoom ha) b)
    (by intro hb; have := h.bound_of (by rw [ha]; simp); rw [hb] at this; cases this)

theorem Steady.timedOut {s : State} (h : Steady s) (ha : s.rx.state = .accumulating) : Steady (s.withRxState .timedOut) :=
  h.withRx h.rx.timedOut h.rxBufWf h.rxBufSize
    (by intro hb; have := h.bound_of (by rw [ha]; simp); rw [hb] at this; cases this)

theorem Steady.readAndAccumulate {s : State} (h : Steady s) (ha : s.rx.state = .accumulating) :
    Steady (readAndAccumulate s) := by
  unfold Machine.readAndAccumulate
  split
  · rename_i b q hq
    exact Steady.accumulate (s := s.withEnv { s.env with rxFifo := q }) (h.withEnv _) ha b
  · exact h

/-- Every receiver operation keeps what `Steady` says, resets included. -/
theorem steady_keeps : ReceiveKeeps Steady where
  point := Steady.interleave
  read := Steady.readAndAccumulate
  late := Steady.timedOut
  start := Steady.startReceive

/-! ### The validator, the reader and the decoder -/

theorem Steady.rejectFrame {s : State} (h : Steady s) : Steady (rejectFrame s) :=
  { h with
    payWritten := by intro i hi; exact absurd hi (Nat.not_lt_zero i)
    payLenMax := Nat.zero_le _
    validated := by intro hh; cases hh }

theorem Steady.checkFrame {s : State} (h : Steady s) {f : List Byte} {n : Nat} (hf : f.length = n) (h5 : 5 ≤ n) (hn : n ≤ 260) :
    Steady (checkFrame f n s) := by
  have hl : ((f.drop 2).take (n - 5)).length = n - 5 := by rw [List.length_take, List.length_drop]; omega
  exact
  { h with
    payBufWf := Mem.writeBytes_wf _ h.payBufWf 0
    payBufSize := Mem.writeBytes_bound _ h.payBufSize (by omega)
    payWritten := by
      intro i hi
      change i < n - 5 at hi
      change (Mem.read (Mem.writeBytes s.val.buf 0 ((f.drop 2).take (n - 5))) i).isSome = true
      rw [Mem.read_writeBytes, if_pos (by omega)]
      have : i - 0 < ((f.drop 2).take (n - 5)).length := by omega
      rw [List.getElem?_eq_getElem this]; rfl
    payLenMax := by change n - 5 ≤ 255; omega
    validated := by
      intro hh
      refine ⟨eq_of_beq hh, _, ?_, rfl⟩
      change Mem.readBytes (Mem.writeBytes s.val.buf 0 ((f.drop 2).take (n - 5))) 0 (n - 5) = _
      have := Mem.readBytes_writeBytes s.val.buf 0 ((f.drop 2).take (n - 5))
      rwa [hl] at this }

theorem Steady.validateOp {s : State} (h : Steady s) {f : List Byte} {n : Nat} (hf : f.length = n) : Steady (validateOp f n s) := by
  unfold Machine.validateOp
  split
  · rename_i ho
    obtain ⟨h5, _, ⟨l, _, hl⟩, _⟩ := (frameOk_iff f n).mp ho
    have := l.isLt
    exact h.checkFrame hf h5 (by omega)
  · exact h.rejectFrame

theorem Steady.validateRx {s t : State} (h : Steady s) (hv : validateRx s = .next t) : Steady t := by
  obtain ⟨_, n, f, _, hf, rfl⟩ := validateRx_eq_next hv
  exact (h.validateOp ((Mem.readBytes_eq_some _ _ _ _).mp hf).1).withResult _

/-- A completed frame is read whole: no fault (R132). -/
theorem Steady.validateRx_ne_fault {s : State} (h : Steady s) (f : Fault) : Machine.validateRx s ≠ .fault f := by
  unfold Machine.validateRx
  split
  · rename_i hc
    obtain ⟨he, _⟩ := h.rxComplete hc
    rw [show s.rx.exp = some s.rx.cnt from he]
    obtain ⟨g, hg⟩ := Mem.readBytes_isSome s.rx.buf s.rx.cnt 0 (fun k hk => by simpa using h.rxWritten k hk)
    simp only [hg]
    exact done_ne_fault
  · simp

/-- A read within the payload finds its bytes (R21). -/
theorem Steady.readField_ne_fault {s : State} (h : Steady s) (op : FieldOp) (f : Fault) : readField op s ≠ .fault f := by
  rcases readField_cases op s with ⟨_, e⟩ | ⟨_, _, e⟩ | ⟨_, hl, hr, _⟩ | ⟨_, _, _, _, e⟩
  · rw [e]; simp
  · rw [e]; simp
  · obtain ⟨bs, hbs⟩ := Mem.readBytes_isSome s.val.buf op.width s.cur (fun k hk => h.payWritten _ (by change s.cur + k < s.val.len; omega))
    rw [hbs] at hr; cases hr
  · rw [e]; simp

theorem Steady.withCur {s : State} (h : Steady s) {k : Nat} (hk : k ≤ s.val.len) : Steady (s.withCur k) :=
  { h with curMax := Nat.le_trans hk h.payLenMax }

theorem fits_value (op : FieldOp) {bs : List Byte} (h : bs.length = op.width) : fits op (.value (op.value bs)) := ⟨bs, h, rfl⟩

theorem Steady.gvStep {k : Fin 18} {s t : State} (h : Steady s) (hg : gvStep k s = .next t) : Steady t := by
  obtain ⟨hk, hb, bs, hl, rfl⟩ := gvStep_eq_next hg
  exact
  { h with
    curMax := Nat.le_trans hb h.payLenMax
    stepMax := k.isLt
    staged := by
      intro j hj
      change j.val < k.val + 1 at hj
      change fits (gvOp j) ((s.stage.set k.val (.value ((gvOp k).value bs)))[j])
      by_cases hjk : j = k
      · subst hjk; simpa using fits_value _ hl
      · have hne : k.val ≠ j.val := fun e => hjk (Fin.ext e.symm)
        have := h.staged j (by change j.val < s.decStep; omega)
        simp only [Fin.getElem_fin] at this ⊢
        rw [Vector.getElem_set_ne _ _ hne]
        exact this }

theorem Steady.gvStep_ne_fault {s : State} (h : Steady s) (k : Fin 18) (f : Fault) : Machine.gvStep k s ≠ .fault f := by
  unfold Machine.gvStep
  split
  · intro e
    rcases andThen_eq_fault.mp e with e | ⟨_, _, e⟩
    · exact h.readField_ne_fault _ _ e
    · cases e
  · simp

theorem Steady.runSteps : ∀ (ks : List (Fin 18)) {s t : State}, Steady s → runSteps ks s = .next t → Steady t := by
  intro ks
  induction ks with
  | nil => intro s t h e; cases e; exact h
  | cons k ks ih =>
    intro s t h e
    obtain ⟨u, hu, e⟩ := andThen_eq_next.mp e
    exact ih (h.gvStep hu) e

theorem Steady.runSteps_ne_fault : ∀ (ks : List (Fin 18)) {s : State}, Steady s → ∀ f, Machine.runSteps ks s ≠ .fault f := by
  intro ks
  induction ks with
  | nil => intro s _ f e; cases e
  | cons k ks ih =>
    intro s h f e
    rcases andThen_eq_fault.mp e with e | ⟨u, hu, e⟩
    · exact h.gvStep_ne_fault k f e
    · exact ih (h.gvStep hu) f e

theorem Steady.begin {s : State} (h : Steady s) : Steady { s with cur := 1, decStep := 0 } :=
  { h with
    curMax := by change 1 ≤ 255; omega
    stepMax := Nat.zero_le _
    staged := by intro k hk; exact absurd hk (Nat.not_lt_zero _) }

theorem Steady.commit {s : State} (h : Steady s) (h18 : s.decStep = 18) : Steady (commit s) := by
  have hall : ∀ k : Fin 18, fits (gvOp k) s.stage[k] := fun k => h.staged k (by change k.val < s.decStep; omega)
  exact
  { h with
    stepMax := Nat.zero_le _
    staged := by intro k hk; exact absurd hk (Nat.not_lt_zero _)
    record := .inr hall
    flagRecord := fun _ => hall }

theorem Steady.getValuesOp {s : State} {r : OutcomeCode × State} (h : Steady s) (e : getValuesOp s = .next r) : Steady r.2 := by
  rcases getValuesOp_eq_next e with ⟨_, e⟩ | ⟨_, t, ht, h18, e⟩
  · rw [e]; exact h
  · rw [e]; exact ((h.begin).runSteps _ ht).commit h18

theorem Steady.getValuesOp_ne_fault {s : State} (h : Steady s) (f : Fault) : Machine.getValuesOp s ≠ .fault f := by
  unfold Machine.getValuesOp
  split
  · simp
  · intro e
    rcases andThen_eq_fault.mp e with e | ⟨_, _, e⟩
    · exact h.begin.runSteps_ne_fault _ _ e
    · cases e

theorem Steady.decodeOp {s : State} {r : OutcomeCode × State} (h : Steady s) (e : decodeOp s = .next r) : Steady r.2 := by
  rcases decodeOp_eq_next e with ⟨_, e⟩ | e
  · rw [e]; exact h
  · exact h.getValuesOp e

theorem Steady.decodeOp_ne_fault {s : State} (h : Steady s) (f : Fault) : Machine.decodeOp s ≠ .fault f := by
  unfold Machine.decodeOp
  split
  · split
    · simp
    · rename_i h0
      obtain ⟨b, hb⟩ := Option.isSome_iff_exists.mp (h.payWritten 0 (Nat.pos_of_ne_zero h0))
      rw [show Mem.read s.val.buf 0 = some b from hb]
      simp only
      split
      · exact h.getValuesOp_ne_fault f
      · simp
  · simp

/-! ### The encoder and the sequencer -/

theorem frameOf_length_le {p : List Byte} (h : p.length ≤ 65535) : (frameOf p).length ≤ 65541 := by
  unfold frameOf
  split <;> simp [shortFrame, longFrame, frameTrailer] <;> omega

theorem Steady.transmit {s : State} (h : Steady s) {f : List Byte} (hf : f.length ≤ 65541) : Steady (transmit f s) := by
  obtain ⟨e, n, ht, hn, _⟩ := transmit_cases f s
  rw [ht]
  exact { h with sent := Nat.le_trans hn hf }

theorem failRefresh_inv {s : State} (h : Steady s) (via : SeqState) {code : OutcomeCode} (hc : code ≠ .decoded) :
    Inv (failRefresh via code s) :=
  { h with
    flag := ⟨fun e => (by cases e), fun e => absurd e hc⟩
    flagRecord := by intro e; cases e
    seqIdle := rfl }

theorem succeedRefresh_inv {s : State} (h : Steady s) (hr : ∀ k : Fin 18, fits (gvOp k) s.T[k]) : Inv (succeedRefresh s) :=
  { h with
    record := .inr hr
    flag := ⟨fun _ => rfl, fun _ => rfl⟩
    flagRecord := fun _ => hr
    seqIdle := rfl }

end Sys2Proof.Machine
end

