-- ==== Sys2Proof/Laws/PerInstr.lean ====
section
/-! SUPPORT. Statements made instruction by instruction. -/

namespace Sys2Proof.Laws

/-- Every operation is presented as at least one byte, its selector: a step never takes a presented operation for an empty port. -/
def FetchNeverWaits.Statement (i : Instr) : Prop := ∀ opc : Byte, encode opc i ≠ []

theorem FetchNeverWaits.bind : FetchNeverWaits.Statement .bind := fun _ => List.cons_ne_nil _ _
theorem FetchNeverWaits.refresh : FetchNeverWaits.Statement .refresh := fun _ => List.cons_ne_nil _ _
theorem FetchNeverWaits.crcClr : FetchNeverWaits.Statement .crcClr := fun _ => List.cons_ne_nil _ _
theorem FetchNeverWaits.crcByte (b : Byte) : FetchNeverWaits.Statement (.crcByte b) := fun _ => List.cons_ne_nil _ _
theorem FetchNeverWaits.crc16 (s : List Byte) : FetchNeverWaits.Statement (.crc16 s) := fun _ => List.cons_ne_nil _ _
theorem FetchNeverWaits.encode (s : List Byte) : FetchNeverWaits.Statement (.encode s) := fun _ => List.cons_ne_nil _ _
theorem FetchNeverWaits.rxStart : FetchNeverWaits.Statement .rxStart := fun _ => List.cons_ne_nil _ _
theorem FetchNeverWaits.rxPoll : FetchNeverWaits.Statement .rxPoll := fun _ => List.cons_ne_nil _ _
theorem FetchNeverWaits.rxRun : FetchNeverWaits.Statement .rxRun := fun _ => List.cons_ne_nil _ _
theorem FetchNeverWaits.rxByte : FetchNeverWaits.Statement .rxByte := fun _ => List.cons_ne_nil _ _
theorem FetchNeverWaits.validate : FetchNeverWaits.Statement .validate := fun _ => List.cons_ne_nil _ _
theorem FetchNeverWaits.validateX (f : List Byte) (n : Nat) : FetchNeverWaits.Statement (.validateX f n) := fun _ => List.cons_ne_nil _ _
theorem FetchNeverWaits.rdS16q (scale : Nat) : FetchNeverWaits.Statement (.rdS16q scale) := fun _ => List.cons_ne_nil _ _
theorem FetchNeverWaits.rdS32q (scale : Nat) : FetchNeverWaits.Statement (.rdS32q scale) := fun _ => List.cons_ne_nil _ _
theorem FetchNeverWaits.rdS32 : FetchNeverWaits.Statement .rdS32 := fun _ => List.cons_ne_nil _ _
theorem FetchNeverWaits.rdU8 : FetchNeverWaits.Statement .rdU8 := fun _ => List.cons_ne_nil _ _
theorem FetchNeverWaits.curSet (k : Nat) : FetchNeverWaits.Statement (.curSet k) := fun _ => List.cons_ne_nil _ _
theorem FetchNeverWaits.decode : FetchNeverWaits.Statement .decode := fun _ => List.cons_ne_nil _ _
theorem FetchNeverWaits.encShort (s : List Byte) : FetchNeverWaits.Statement (.encShort s) := fun _ => List.cons_ne_nil _ _
theorem FetchNeverWaits.encLong (s : List Byte) : FetchNeverWaits.Statement (.encLong s) := fun _ => List.cons_ne_nil _ _
theorem FetchNeverWaits.getValues : FetchNeverWaits.Statement .getValues := fun _ => List.cons_ne_nil _ _
theorem FetchNeverWaits.gvTemperatureFet : FetchNeverWaits.Statement .gvTemperatureFet := fun _ => List.cons_ne_nil _ _
theorem FetchNeverWaits.gvTemperatureMotor : FetchNeverWaits.Statement .gvTemperatureMotor := fun _ => List.cons_ne_nil _ _
theorem FetchNeverWaits.gvAvgMotorCurrent : FetchNeverWaits.Statement .gvAvgMotorCurrent := fun _ => List.cons_ne_nil _ _
theorem FetchNeverWaits.gvAvgInputCurrent : FetchNeverWaits.Statement .gvAvgInputCurrent := fun _ => List.cons_ne_nil _ _
theorem FetchNeverWaits.gvAvgId : FetchNeverWaits.Statement .gvAvgId := fun _ => List.cons_ne_nil _ _
theorem FetchNeverWaits.gvAvgIq : FetchNeverWaits.Statement .gvAvgIq := fun _ => List.cons_ne_nil _ _
theorem FetchNeverWaits.gvDuty : FetchNeverWaits.Statement .gvDuty := fun _ => List.cons_ne_nil _ _
theorem FetchNeverWaits.gvErpm : FetchNeverWaits.Statement .gvErpm := fun _ => List.cons_ne_nil _ _
theorem FetchNeverWaits.gvBatteryVoltage : FetchNeverWaits.Statement .gvBatteryVoltage := fun _ => List.cons_ne_nil _ _
theorem FetchNeverWaits.gvAmpHoursUsed : FetchNeverWaits.Statement .gvAmpHoursUsed := fun _ => List.cons_ne_nil _ _
theorem FetchNeverWaits.gvAmpHoursCharged : FetchNeverWaits.Statement .gvAmpHoursCharged := fun _ => List.cons_ne_nil _ _
theorem FetchNeverWaits.gvWattHoursUsed : FetchNeverWaits.Statement .gvWattHoursUsed := fun _ => List.cons_ne_nil _ _
theorem FetchNeverWaits.gvWattHoursCharged : FetchNeverWaits.Statement .gvWattHoursCharged := fun _ => List.cons_ne_nil _ _
theorem FetchNeverWaits.gvTachometer : FetchNeverWaits.Statement .gvTachometer := fun _ => List.cons_ne_nil _ _
theorem FetchNeverWaits.gvTachometerAbs : FetchNeverWaits.Statement .gvTachometerAbs := fun _ => List.cons_ne_nil _ _
theorem FetchNeverWaits.gvFaultCode : FetchNeverWaits.Statement .gvFaultCode := fun _ => List.cons_ne_nil _ _
theorem FetchNeverWaits.gvPidPosition : FetchNeverWaits.Statement .gvPidPosition := fun _ => List.cons_ne_nil _ _
theorem FetchNeverWaits.gvControllerId : FetchNeverWaits.Statement .gvControllerId := fun _ => List.cons_ne_nil _ _

end Sys2Proof.Laws
end

