-- ==== Sys2Proof/Laws/Sequencer.lean ====
section
/-! SUPPORT. What the parts of a REFRESH can do, and what the receiver changes of the machine and of the environment. -/

namespace Sys2Proof.Machine

/-- The request of a REFRESH is one short frame (R77, R172). -/
theorem encodeOp_request (s : State) : encodeOp [s.params.opcGetValues] (s.withSeq .sent) =
    .next (transmit (shortFrame [s.params.opcGetValues]) (s.withSeq .sent)) := by
  simp [encodeOp, Config.encMax, frameOf, Config.shortMax]

/-- A receive with no reset changes the receiver, the environment and the validation flag, and ends in one of three states. -/
theorem runReceive_frame {s u : State} (hb : s.bound = true) (hs : noReset s) (h : runReceive s = .next u) :
    u = { s with rx := u.rx, env := u.env, val := { s.val with ok := false } } ∧ u.env.txLog = s.env.txLog ∧
      (u.rx.state = .complete ∨ u.rx.state = .timedOut ∨ u.rx.state = .overflowed) := by
  have alive : ∀ (bs : List Byte) (u : State), u.rx.state ≠ .idle → (absorb bs u).rx.state ≠ .idle := by
    intro bs
    induction bs with
    | nil => intro u h; exact h
    | cons b bs ih => intro u h; exact ih _ (stateAfterByte_ne_idle h)
  obtain ⟨used, bs, v, hst, hc⟩ := runReceive_stretch hb hs
  have hlog : v.env.txLog = s.env.txLog := by rw [hst.log]; simp [startReceive, interleave_env]
  have e0 : v = { s with rx := v.rx, env := v.env, val := { s.val with ok := false }} := by
    rw [hst.core, absorb_core, interleave_quiet hs.quiet]; rfl
  have hidle : v.rx.state ≠ .idle := by
    rw [hst.core]; exact alive _ _ (by simp [startReceive])
  rcases hc with ⟨h1, h2⟩ | ⟨h1, h2, _⟩ | ⟨h1, _⟩
  · rw [h] at h1; cases h1
    refine ⟨e0, hlog, ?_⟩
    clear * - h2 hidle; revert h2 hidle; cases u.rx.state <;> simp
  · rw [h] at h1; cases h1
    refine ⟨?_, hlog, .inr (.inl rfl)⟩
    rw [e0]; rfl
  · rw [h] at h1; cases h1

/-- Validating the receiver's frame changes the validator and the result. -/
theorem validateRx_frame {s t : State} (h : validateRx s = .next t) : t = { s with val := t.val, result := t.result } := by
  obtain ⟨_, n, f, _, _, rfl⟩ := validateRx_eq_next h
  rw [validateOp_frame]; rfl

/-- A completed frame is validated (R140). -/
theorem validateRx_complete {s : State} {q : SeqState} {n : Nat} {f : List Byte} (hc : s.rx.state = .complete)
    (he : s.rx.exp = some n) (hf : Mem.readBytes s.rx.buf 0 n = some f) : validateRx (s.withSeq q) =
      .next ((validateOp f n (s.withSeq q)).withResult (verdict f n (validateOp f n (s.withSeq q)))) := by
  simp [validateRx, hc, he, hf, validateFrame, done]

/-- All that DECODE's own steps can leave: nothing changed, or the record committed. -/
theorem decodeOp_frame {s : State} {r : OutcomeCode × State} (e : decodeOp s = .next r) :
    (r.1 = .unsupportedOpcode ∨ r.1 = .shortPayload) ∧ r.2 = s ∨
    r.1 = .decoded ∧ r.2.T = r.2.stage ∧
      r.2 = { s with T := r.2.T, cur := r.2.cur, stage := r.2.stage, decStep := r.2.decStep } := by
  rcases decodeOp_eq_next e with ⟨_, rfl⟩ | e
  · exact .inl ⟨.inl rfl, rfl⟩
  · rcases getValuesOp_eq_next e with ⟨_, rfl⟩ | ⟨_, t, ht, _, rfl⟩
    · exact .inl ⟨.inr rfl, rfl⟩
    · refine .inr ⟨rfl, rfl, ?_⟩
      rw [runSteps_frame _ ht]; rfl

/-- A committed record holds a value of its value set in every register (R163). -/
theorem decodeOp_fits {s : State} {r : OutcomeCode × State} (h : Steady s) (e : decodeOp s = .next r)
    (hd : r.1 = .decoded) : ∀ k : Fin 18, fits (gvOp k) r.2.T[k] := by
  rcases decodeOp_eq_next e with ⟨_, rfl⟩ | e
  · cases hd
  · rcases getValuesOp_eq_next e with ⟨_, rfl⟩ | ⟨_, t, ht, h18, rfl⟩
    · cases hd
    · intro k
      exact ((h.begin).runSteps _ ht).staged k (by change k.val < t.decStep; omega)

/-- From `s` to `u` the receiver, the environment, the validation flag and the result may have changed, and nothing was sent. -/
def Same (s u : State) : Prop :=
  noReset u ∧ u = { s with rx := u.rx, env := u.env, val := { s.val with ok := u.val.ok }, result := u.result } ∧
    u.env.txLog = s.env.txLog

/-- Every receiver operation without reset changes no more than that. -/
theorem same_keeps (s : State) : ReceiveKeeps (Same s) where
  point := by
    rintro u ⟨h1, h2, h3⟩
    refine ⟨h1.interleave, ?_, ?_⟩
    · rw [interleave_quiet h1.quiet]; rw [h2]; rfl
    · rw [interleave_env]; exact h3
  read := by
    rintro u ⟨h1, h2, h3⟩ ha
    unfold readAndAccumulate
    split
    · exact ⟨(by intro b hb; exact h1 b hb), by rw [h2]; rfl, h3⟩
    · exact ⟨h1, h2, h3⟩
  late := by
    rintro u ⟨h1, h2, h3⟩ ha
    exact ⟨h1, by rw [h2]; rfl, h3⟩
  start := by
    rintro u ⟨h1, h2, h3⟩ ha
    exact ⟨h1, by rw [h2]; rfl, h3⟩

theorem Same.refl {s : State} (h : noReset s) : Same s s := ⟨h, rfl, rfl⟩

/-- From `s` to `u` the environment has moved forward only. -/
def Fwd (s u : State) : Prop :=
  s.env.txLog <+: u.env.txLog ∧
    ∃ used, s.env.script = used ++ u.env.script ∧ u.env.now = s.env.now + ticksOf used ∧
      u.env.rxFifo <:+ s.env.rxFifo ++ bytesOf used

theorem Fwd.refl (s : State) : Fwd s s := ⟨List.prefix_rfl, [], rfl, by simp, by simp⟩

theorem Fwd.point {s u : State} (h : Fwd s u) : Fwd s (interleave u) := by
  obtain ⟨h1, used, h2, h3, h4⟩ := h
  rw [Fwd, interleave_env]
  refine ⟨h1, used ++ u.env.script.take 1, ?_, ?_, ?_⟩
  · rw [h2]; cases u.env.script <;> simp
  · simp only; rw [h3, ticksOf_append]; cases u.env.script <;> simp [ticksIn]; omega
  · simp only; rw [bytesOf_append]
    have : bytesOf (u.env.script.take 1) = bytesIn (u.env.script.headD []) := by cases u.env.script <;> simp [bytesIn]
    rw [this, ← List.append_assoc]
    obtain ⟨x, hx⟩ := h4
    exact ⟨x, by rw [← List.append_assoc, hx]⟩

/-- Every receiver operation moves the environment forward only, resets included. -/
theorem fwd_keeps (s : State) : ReceiveKeeps (Fwd s) where
  point := Fwd.point
  read := by
    rintro u ⟨h1, used, h2, h3, h4⟩ ha
    unfold readAndAccumulate
    split
    · rename_i b q hq
      refine ⟨h1, used, h2, h3, ?_⟩
      rw [hq] at h4
      exact (List.suffix_cons b q).trans h4
    · exact ⟨h1, used, h2, h3, h4⟩
  late := fun h _ => h
  start := fun h _ => h

theorem Fwd.env {s u v : State} (h : Fwd s u) (e : v.env = u.env) : Fwd s v := by unfold Fwd; rw [e]; exact h

theorem Fwd.transmit {s u : State} (h : Fwd s u) (f : List Byte) : Fwd s (transmit f u) := by
  obtain ⟨e, n, ht, _, k1, k2, k3, k4⟩ := transmit_cases f u
  rw [ht]
  obtain ⟨h1, used, h2, h3, h4⟩ := h
  refine ⟨?_, used, by simp only [k3]; exact h2, by simp only [k2]; exact h3, by simp only [k1]; exact h4⟩
  rcases k4 with ⟨_, k⟩ | ⟨_, k, _⟩
  · simp only [k]; exact h1.trans (List.prefix_append _ _)
  · simp only [k]; exact h1

end Sys2Proof.Machine
end

