-- ==== Sys2Proof/Laws/WaitingFrame.lean ====
section
/-! SUPPORT. The accumulation of a whole short frame (R122 to R125). -/

namespace Sys2Proof.Machine

theorem absorb_append (a b : List Byte) (s : State) : absorb (a ++ b) s = absorb b (absorb a s) := by
  simp [absorb, List.foldl_append]

/-- A whole short frame, from the start of a receive: in progress up to its last byte, and complete with it. -/
theorem absorb_frame (s : State) (p : List Byte) (hi lo : Byte) (ha : s.rx.state = .accumulating) (h0 : s.rx.cnt = 0)
    (he : s.rx.exp = none) (hp : p.length ≤ 255) (hcap : p.length + 5 ≤ s.params.rxCap) :
    (∀ k, k < p.length + 5 → (absorb (([0x02, byteOf p.length] ++ p ++ [hi, lo, 0x03]).take k) s).rx.state = .accumulating) ∧
    (absorb ([0x02, byteOf p.length] ++ p ++ [hi, lo, 0x03]) s).rx = { s.rx with
      state := .complete, buf := Mem.writeBytes s.rx.buf 0 ([0x02, byteOf p.length] ++ p ++ [hi, lo, 0x03]),
      cnt := p.length + 5, exp := some (p.length + 5), len := p.length } := by
  have hb : (byteOf p.length).toNat = p.length := by simp [byteOf]; omega
  set s1 := accumulate 0x02 s with hs1
  set s2 := accumulate (byteOf p.length) s1 with hs2
  have e1 : s1.rx.state = .accumulating ∧ s1.rx.cnt = 1 ∧ s1.rx.exp = none ∧ Mem.read s1.rx.buf 0 = some 0x02 ∧
      s1.params = s.params ∧ s1.rx.len = s.rx.len := by
    refine ⟨?_, ?_, ?_, ?_, rfl, ?_⟩
    · simp [hs1, h0, headerSeen, he, stateAfterByte, ha]; omega
    · simp [hs1, h0]
    · change (if headerSeen _ _ then _ else _) = _
      simp [h0, headerSeen, he]
    · change Mem.read (Mem.write _ _ _) 0 = _
      rw [h0]; exact Mem.read_write_same _ _ _
    · change (if headerSeen _ _ then _ else _) = _
      simp [h0, headerSeen]
  obtain ⟨a1, a2, a3, a4, a5, a6⟩ := e1
  have hh : headerSeen (Mem.write s1.rx.buf s1.rx.cnt (byteOf p.length)) (s1.rx.cnt + 1) = true := by
    simp [headerSeen, a2, Mem.read_write, a4, Config.markShort]
  have e2 : s2.rx.state = .accumulating ∧ s2.rx.cnt = 2 ∧ s2.rx.exp = some (p.length + 5) ∧ s2.rx.len = p.length ∧
      s2.params = s.params := by
    refine ⟨?_, ?_, ?_, ?_, a5⟩
    · rw [hs2, accumulate_rx_state, hh, if_pos rfl, a2, a1, hb]
      simp [stateAfterByte, a5]; omega
    · simp [hs2, a2]
    · change (if headerSeen _ _ then _ else _) = _
      rw [hh, if_pos rfl, hb]
    · change (if headerSeen _ _ then _ else _) = _
      rw [hh, if_pos rfl, hb]
  have key : ∀ (bs : List Byte) (u : State), u.rx.state = .accumulating → 2 ≤ u.rx.cnt → u.rx.exp = some (p.length + 5) →
      u.rx.len = p.length → u.params = s.params → u.rx.cnt + bs.length < p.length + 5 →
      (absorb bs u).rx.state = .accumulating ∧ (absorb bs u).rx.exp = some (p.length + 5) ∧ (absorb bs u).rx.len = p.length := by
    intro bs
    induction bs with
    | nil => intro u h1 _ h3 h4 _ _; exact ⟨h1, h3, h4⟩
    | cons b bs ih =>
      intro u h1 h2 h3 h4 h5 h6
      simp only [List.length_cons] at h6
      have hn : headerSeen (Mem.write u.rx.buf u.rx.cnt b) (u.rx.cnt + 1) = false := by simp [headerSeen]; omega
      refine ih (accumulate b u) ?_ ?_ ?_ ?_ h5 ?_
      · rw [accumulate_rx_state, hn, h3, h1, h5]; rw [stateAfterByte, if_neg (by simp; omega), if_neg (by omega)]
      · simp; omega
      · change (if headerSeen _ _ then _ else _) = _
        rw [hn]; simpa using h3
      · change (if headerSeen _ _ then _ else _) = _
        rw [hn]; simpa using h4
      · simp; omega
  obtain ⟨b1, b2, b3, b4, b5⟩ := e2
  constructor
  · intro k hk
    match k, hk with
    | 0, _ => simpa using ha
    | 1, _ => exact a1
    | k + 2, hk =>
      have : ([0x02, byteOf p.length] ++ p ++ [hi, lo, 0x03]).take (k + 2) = 0x02 :: byteOf p.length :: ((p ++ [hi, lo, 0x03]).take k) := by simp
      rw [this, absorb_cons, absorb_cons]
      exact (key _ s2 b1 (by omega) b3 b4 b5 (by rw [b2, List.length_take]; omega)).1
  · have e : absorb ([0x02, byteOf p.length] ++ p ++ [hi, lo, 0x03]) s = accumulate 0x03 (absorb (p ++ [hi, lo]) s2) := by
      rw [show [0x02, byteOf p.length] ++ p ++ [hi, lo, 0x03] = [0x02, byteOf p.length] ++ ((p ++ [hi, lo]) ++ [0x03]) by
        simp, absorb_append, absorb_append]
      rfl
    have hpl : (p ++ [hi, lo]).length = p.length + 2 := by simp
    obtain ⟨k1, k2, k3⟩ := key (p ++ [hi, lo]) s2 b1 (by omega) b3 b4 b5 (by rw [b2, hpl]; omega)
    have kc : (absorb (p ++ [hi, lo]) s2).rx.cnt = p.length + 4 := by rw [absorb_rx_cnt, b2, hpl, Nat.add_comm]
    have hn : headerSeen (Mem.write (absorb (p ++ [hi, lo]) s2).rx.buf (absorb (p ++ [hi, lo]) s2).rx.cnt 0x03)
        ((absorb (p ++ [hi, lo]) s2).rx.cnt + 1) = false := by
      simp [headerSeen, kc]
    have hbuf := absorb_rx_buf ([0x02, byteOf p.length] ++ p ++ [hi, lo, 0x03]) s
    have hd := absorb_rx_deadline ([0x02, byteOf p.length] ++ p ++ [hi, lo, 0x03]) s
    have hc := absorb_rx_cnt ([0x02, byteOf p.length] ++ p ++ [hi, lo, 0x03]) s
    have hst : (absorb ([0x02, byteOf p.length] ++ p ++ [hi, lo, 0x03]) s).rx.state = .complete := by
      rw [e, accumulate_rx_state, hn, kc, k2]; simp [stateAfterByte, Config.term]
    have hex : (absorb ([0x02, byteOf p.length] ++ p ++ [hi, lo, 0x03]) s).rx.exp = some (p.length + 5) := by
      rw [e]; change (if headerSeen _ _ then _ else _) = _
      rw [hn]; simpa using k2
    have hln : (absorb ([0x02, byteOf p.length] ++ p ++ [hi, lo, 0x03]) s).rx.len = p.length := by
      rw [e]; change (if headerSeen _ _ then _ else _) = _
      rw [hn]; simpa using k3
    revert hbuf hd hc hst hex hln
    generalize (absorb ([0x02, byteOf p.length] ++ p ++ [hi, lo, 0x03]) s).rx = r
    intro h1 h2 h3 h4 h5 h6
    cases r
    simp only at h1 h2 h3 h4 h5 h6
    subst h1 h2 h3 h4 h5 h6
    simp [h0]

end Sys2Proof.Machine
end

