-- ==== Sys2Proof/Tests/Slice0.lean ====
section
/-! SUPPORT. Tests: words written out from the spec's encodings, vectors of spec/95_test_vectors.md (V, P numbers), the WellFormed smoke
test, and for every statement with hypotheses a state and operands that meet them. -/

namespace Sys2Proof.Tests

set_option maxRecDepth 20000

open Sys2Proof.Machine

/-! ### States and readings -/

/-- Frame A of 95_test_vectors.md part 2. -/
def frameA : List Byte :=
  [0x02, 0x3B, 0x04, 0x00, 0xFD, 0xFF, 0xC9, 0x00, 0x00, 0x04, 0xD2, 0xFF, 0xFF, 0xFD, 0xC9, 0xFF] ++
  [0xFF, 0xFA, 0x24, 0x00, 0x00, 0x4F, 0x1A, 0x01, 0xF4, 0x00, 0x00, 0x30, 0x39, 0x01, 0xE1, 0x00] ++
  [0x00, 0x3A, 0x98, 0x00, 0x00, 0x09, 0xC4, 0x00, 0x0B, 0x10, 0x08, 0x00, 0x01, 0xD4, 0xC0, 0xFF] ++
  [0xFE, 0x79, 0x60, 0x00, 0x04, 0x93, 0xE0, 0x00, 0x05, 0x64, 0xEB, 0xA0, 0x07, 0x8C, 0x2E, 0x03]

/-- Frame B of 95_test_vectors.md part 2. -/
def frameB : List Byte :=
  [0x02, 0x3B, 0x04, 0x80, 0x00, 0x7F, 0xFF, 0x80, 0x00, 0x00, 0x00, 0x7F, 0xFF, 0xFF, 0xFF, 0xFF] ++
  [0xFF, 0xFF, 0xFF, 0x00, 0x00, 0x00, 0x01, 0xFF, 0xFF, 0x00, 0x00, 0x00, 0x00, 0x00, 0x00, 0xFF] ++
  [0xFF, 0xFF, 0xFF, 0x00, 0x00, 0x00, 0x01, 0xFF, 0xFF, 0xD8, 0xF0, 0x00, 0x00, 0x27, 0x10, 0x80] ++
  [0x00, 0x00, 0x00, 0x7F, 0xFF, 0xFF, 0xFF, 0xFF, 0xFF, 0xF0, 0xBD, 0xC0, 0xFF, 0xA3, 0x81, 0x03]

/-- Frame A's payload. -/
def payloadA : List Byte := (frameA.drop 2).take 59

/-- Frame A's record (95_test_vectors.md part 2). -/
def recordA : List TReg := [
  .value (.scaled (253 / 10)), .value (.scaled (-11 / 2)), .value (.scaled (617 / 50)), .value (.scaled (-567 / 100)),
  .value (.scaled (-3 / 2)), .value (.scaled (81 / 4)), .value (.scaled (1 / 2)), .value (.scaled 12345),
  .value (.scaled (481 / 10)), .value (.scaled (3 / 2)), .value (.scaled (1 / 4)), .value (.scaled (145 / 2)),
  .value (.scaled 12), .value (.integer (-100000)), .value (.integer 300000), .value (.byte 0),
  .value (.scaled (181 / 2)), .value (.byte 7)]

/-- After reset and BIND. -/
def ready : State := { State.reset with bound := true }

/-- With bytes waiting in the transport. -/
def waiting (bs : List Byte) : State := { ready with env := { Env.initial with rxFifo := bs } }

/-- With a script of the outside world. -/
def scripted (sc : List (List Outside)) : State := { ready with env := { Env.initial with script := sc } }

/-- In the middle of a receive that holds `bs`. -/
def receiving (bs q : List Byte) (exp : Option Nat) (len deadline : Nat) : State :=
  { waiting q with rx := { state := .accumulating, buf := Mem.writeBytes [] 0 bs, cnt := bs.length, exp := exp, len := len,
                           deadline := deadline } }

/-- A receiver that holds the completed frame `f` of an `n`-byte payload. -/
def completed (f : List Byte) (n : Nat) : State :=
  { ready with rx := { state := .complete, buf := Mem.writeBytes [] 0 f, cnt := f.length, exp := some f.length, len := n,
                       deadline := 100 } }

/-- With the validated payload `p`. -/
def validatedWith (p : List Byte) : State :=
  { ready with val := { buf := Mem.writeBytes [] 0 p, len := p.length, crcRx := crc16 p, crcCalc := crc16 p, ok := true } }

/-- The outcome is a next state of which `p` holds. -/
def nextWith (o : Host.Outcome State Fault Refusal) (p : State → Bool) : Bool :=
  match o with
  | .next t => p t
  | _ => false

theorem nextWith_exists {o : Host.Outcome State Fault Refusal} {p : State → Bool} (h : nextWith o p = true) :
    ∃ t, o = .next t ∧ p t = true := by
  cases o with
  | next t => exact ⟨t, rfl, h⟩
  | fault f => cases h
  | refused r => cases h

/-! ### WellFormed refuses an ill-formed term, check by check -/

theorem test_wf_crc16_long : (Instr.crc16 (List.replicate 65536 0)).wellFormed = false := by
  simp only [Instr.wellFormed, List.length_replicate]; decide
theorem test_wf_encode_long : (Instr.encode (List.replicate 65536 0)).wellFormed = false := by
  simp only [Instr.wellFormed, List.length_replicate]; decide
theorem test_wf_validateX_length : (Instr.validateX [0x02] 2).wellFormed = false := by decide
theorem test_wf_validateX_port (f : List Byte) : (Instr.validateX f 4294967296).wellFormed = false := by simp [Instr.wellFormed]
theorem test_wf_rdS16q_zero : (Instr.rdS16q 0).wellFormed = false := by decide
theorem test_wf_rdS16q_port : (Instr.rdS16q 4294967296).wellFormed = false := by decide
theorem test_wf_rdS32q_zero : (Instr.rdS32q 0).wellFormed = false := by decide
theorem test_wf_rdS32q_port : (Instr.rdS32q 4294967296).wellFormed = false := by decide
theorem test_wf_curSet_past : (Instr.curSet 256).wellFormed = false := by decide
theorem test_wf_encShort_long : (Instr.encShort (List.replicate 256 0)).wellFormed = false := by
  simp only [Instr.wellFormed, List.length_replicate]; decide
theorem test_wf_encLong_short : (Instr.encLong (List.replicate 255 0)).wellFormed = false := by
  simp only [Instr.wellFormed, List.length_replicate]; decide
theorem test_wf_encLong_long : (Instr.encLong (List.replicate 65536 0)).wellFormed = false := by
  simp only [Instr.wellFormed, List.length_replicate]; decide

/-! ### Every row's word, written out from the spec (R80, R71, R72, R76, R79), decodes to its operation -/

theorem test_decode_bind : decode 0x04 .cmd [0x01] = .ok (.bind, []) := by decide
theorem test_decode_refresh : decode 0x04 .cmd [0x02] = .ok (.refresh, []) := by decide
theorem test_decode_crcClr : decode 0x04 .cmd [0x10] = .ok (.crcClr, []) := by decide
theorem test_decode_crcByte : decode 0x04 .cmd [0x11, 0x31] = .ok ((.crcByte 0x31), []) := by decide
theorem test_decode_crc16 : decode 0x04 .cmd [0x12, 0, 0, 0, 2, 0x31, 0x32] = .ok ((.crc16 [0x31, 0x32]), []) := by decide
theorem test_decode_encode : decode 0x04 .cmd [0x20, 0, 0, 0, 2, 0x04, 0xAA] = .ok ((.encode [0x04, 0xAA]), []) := by decide
theorem test_decode_rxStart : decode 0x04 .cmd [0x30] = .ok (.rxStart, []) := by decide
theorem test_decode_rxPoll : decode 0x04 .cmd [0x31] = .ok (.rxPoll, []) := by decide
theorem test_decode_rxRun : decode 0x04 .cmd [0x32] = .ok (.rxRun, []) := by decide
theorem test_decode_rxByte : decode 0x04 .cmd [0x33] = .ok (.rxByte, []) := by decide
theorem test_decode_validate : decode 0x04 .cmd [0x40] = .ok (.validate, []) := by decide
theorem test_decode_validateX : decode 0x04 .cmd [0x41, 0, 0, 0, 5, 0, 0, 0, 5, 0x02, 0x00, 0x00, 0x00, 0x03] = .ok ((.validateX [0x02, 0x00, 0x00, 0x00, 0x03] 5), []) := by decide
theorem test_decode_rdS16q : decode 0x04 .cmd [0x50, 0, 0, 0x03, 0xE8] = .ok ((.rdS16q 1000), []) := by decide
theorem test_decode_rdS32q : decode 0x04 .cmd [0x51, 0, 0x0F, 0x42, 0x40] = .ok ((.rdS32q 1000000), []) := by decide
theorem test_decode_rdS32 : decode 0x04 .cmd [0x52] = .ok (.rdS32, []) := by decide
theorem test_decode_rdU8 : decode 0x04 .cmd [0x53] = .ok (.rdU8, []) := by decide
theorem test_decode_curSet : decode 0x04 .cmd [0x54, 0, 0, 0, 53] = .ok ((.curSet 53), []) := by decide
theorem test_decode_decode : decode 0x04 .cmd [0x60] = .ok (.decode, []) := by decide
theorem test_decode_encShort :
    decode 0x04 .frame [0x02, 0x02, 0x04, 0xAA, 0xD8, 0x64, 0x03] = .ok (.encShort [0x04, 0xAA], []) := by decide
/-- Zero bytes leave a zero register zero (V3). -/
theorem crc16_zeros (n : Nat) : crc16 (List.replicate n 0) = 0 := by
  induction n with
  | zero => rfl
  | succ n ih => rw [List.replicate_succ]; exact ih
theorem test_trailer_zeros (n : Nat) : frameTrailer (List.replicate n 0) = [0x00, 0x00, 0x03] := by
  rw [frameTrailer, crc16_zeros]; decide
/-- The smallest long frame: marker 3, length 01 00, 256 zero bytes, checksum 00 00, terminator (R72). -/
theorem test_decode_encLong :
    decode 0x04 .frame ([0x03, 0x01, 0x00] ++ (List.replicate 256 0 ++ [0x00, 0x00, 0x03])) =
      .ok (.encLong (List.replicate 256 0), []) := by
  have h : takeBody 256 (List.replicate 256 0 ++ [0x00, 0x00, 0x03]) = some (List.replicate 256 0, []) :=
    takeBody_eq_some.mpr ⟨List.length_replicate, by rw [test_trailer_zeros, List.append_nil]⟩
  generalize List.replicate 256 (0 : Byte) ++ [0x00, 0x00, 0x03] = r at h
  simp [decode, decodeFrame, beNat, Config.markShort, Config.markLong, Config.shortMax, h]
theorem test_decode_getValues : decode 0x04 .payload [0x04] = .ok (.getValues, []) := by decide
theorem test_decode_gvTemperatureFet : decode 0x04 .gvStep [0x00] = .ok (.gvTemperatureFet, []) := by decide
theorem test_decode_gvTemperatureMotor : decode 0x04 .gvStep [0x01] = .ok (.gvTemperatureMotor, []) := by decide
theorem test_decode_gvAvgMotorCurrent : decode 0x04 .gvStep [0x02] = .ok (.gvAvgMotorCurrent, []) := by decide
theorem test_decode_gvAvgInputCurrent : decode 0x04 .gvStep [0x03] = .ok (.gvAvgInputCurrent, []) := by decide
theorem test_decode_gvAvgId : decode 0x04 .gvStep [0x04] = .ok (.gvAvgId, []) := by decide
theorem test_decode_gvAvgIq : decode 0x04 .gvStep [0x05] = .ok (.gvAvgIq, []) := by decide
theorem test_decode_gvDuty : decode 0x04 .gvStep [0x06] = .ok (.gvDuty, []) := by decide
theorem test_decode_gvErpm : decode 0x04 .gvStep [0x07] = .ok (.gvErpm, []) := by decide
theorem test_decode_gvBatteryVoltage : decode 0x04 .gvStep [0x08] = .ok (.gvBatteryVoltage, []) := by decide
theorem test_decode_gvAmpHoursUsed : decode 0x04 .gvStep [0x09] = .ok (.gvAmpHoursUsed, []) := by decide
theorem test_decode_gvAmpHoursCharged : decode 0x04 .gvStep [0x0A] = .ok (.gvAmpHoursCharged, []) := by decide
theorem test_decode_gvWattHoursUsed : decode 0x04 .gvStep [0x0B] = .ok (.gvWattHoursUsed, []) := by decide
theorem test_decode_gvWattHoursCharged : decode 0x04 .gvStep [0x0C] = .ok (.gvWattHoursCharged, []) := by decide
theorem test_decode_gvTachometer : decode 0x04 .gvStep [0x0D] = .ok (.gvTachometer, []) := by decide
theorem test_decode_gvTachometerAbs : decode 0x04 .gvStep [0x0E] = .ok (.gvTachometerAbs, []) := by decide
theorem test_decode_gvFaultCode : decode 0x04 .gvStep [0x0F] = .ok (.gvFaultCode, []) := by decide
theorem test_decode_gvPidPosition : decode 0x04 .gvStep [0x10] = .ok (.gvPidPosition, []) := by decide
theorem test_decode_gvControllerId : decode 0x04 .gvStep [0x11] = .ok (.gvControllerId, []) := by decide
/-- R74: the end of a frame is found by counting: V24's payload holds marker and terminator values. -/
theorem test_decode_counts :
    decode 0x04 .frame [0x02, 0x03, 0x24, 0x03, 0x03, 0x3F, 0x36, 0x03, 0x02] = .ok (.encShort [0x24, 0x03, 0x03], [0x02]) := by
  decide
/-- R82, P7 step 6: codes 00 and 7F are unassigned. -/
theorem test_decode_unassigned :
    decode 0x04 .cmd [0x00] = .error (.badCommand 0x00) ∧ decode 0x04 .cmd [0x7F] = .error (.badCommand 0x7F) := by decide
theorem test_tableWord : decodeTableWord 8 0x60 = some .decode ∧ decodeTableWord 8 0x0F = some .gvFaultCode ∧
    decodeTableWord 5 0x02 = some .gvAvgMotorCurrent := by decide
theorem test_fetchWord : nextWith (step (State.reset.withFetchWord 8 0x01)) (fun t => t.bound) = true := by decide

/-! ### Operations, from the vectors of 95_test_vectors.md -/

theorem test_bind : nextWith (exec .bind State.reset) (fun t => t.bound) = true := by decide
/-- V74. -/
theorem test_refresh_unsupported :
    nextWith (exec .refresh (waiting [0x02, 0x01, 0x05, 0x50, 0xA5, 0x03]))
      (fun t => t.outcome = .unsupportedOpcode ∧ t.connected = false ∧ t.seqState = .idle ∧
        t.env.txLog = [[0x02, 0x01, 0x04, 0x40, 0x84, 0x03]]) = true := by decide
/-- V70, P3. -/
theorem test_refresh_decoded :
    nextWith (exec .refresh (waiting frameA))
      (fun t => t.outcome = .decoded ∧ t.connected = true ∧ t.T.toList = recordA ∧ t.cur = 59 ∧ t.val.crcRx = 0x8C2E) = true := by
  decide +kernel
theorem test_crcClr : nextWith (exec .crcClr { State.reset with crc := 0x2672 }) (fun t => t.crc = 0) = true := by decide
/-- P1. -/
theorem test_crcByte :
    nextWith (exec (.crcByte 0x32) { State.reset with crc := 0x2672 }) (fun t => t.crc = 0x20B5) = true := by decide
/-- V1. -/
theorem test_crc16 : crc16 [0x31, 0x32, 0x33, 0x34, 0x35, 0x36, 0x37, 0x38, 0x39] = 0x31C3 := by decide
/-- V6. -/
theorem test_crc16_order : crc16 [0x04, 0xAA] = 0xD864 ∧ crc16 [0xAA, 0x04] = 0xB231 := by decide
/-- V23. -/
theorem test_encode : nextWith (exec (.encode [0x04, 0xAA]) ready)
    (fun t => t.env.txLog = [[0x02, 0x02, 0x04, 0xAA, 0xD8, 0x64, 0x03]]) = true := by decide
/-- 256 zero bytes go out as a long frame (R110, R112). -/
theorem test_encode_long : ∃ t, exec (.encode (List.replicate 256 0)) ready = .next t ∧
    t.env.txLog = [[0x03, 0x01, 0x00] ++ List.replicate 256 0 ++ [0x00, 0x00, 0x03]] := by
  have h : longFrame (List.replicate 256 0) = [0x03, 0x01, 0x00] ++ List.replicate 256 0 ++ [0x00, 0x00, 0x03] := by
    rw [longFrame, test_trailer_zeros, List.length_replicate]; rfl
  have e : exec (.encode (List.replicate 256 0)) ready = .next (transmit (longFrame (List.replicate 256 0)) ready) := by
    simp only [exec, execEncode, encodeOp, frameOf, List.length_replicate]; rfl
  exact ⟨_, e, by rw [transmit_bound rfl, h]; rfl⟩
/-- V21. -/
theorem test_encShort : nextWith (exec (.encShort []) ready) (fun t => t.env.txLog = [[0x02, 0x00, 0x00, 0x00, 0x03]]) = true := by
  decide
theorem test_encLong : ∃ t, exec (.encLong (List.replicate 256 0)) ready = .next t ∧
    t.env.txLog = [[0x03, 0x01, 0x00] ++ List.replicate 256 0 ++ [0x00, 0x00, 0x03]] := by
  have h : longFrame (List.replicate 256 0) = [0x03, 0x01, 0x00] ++ List.replicate 256 0 ++ [0x00, 0x00, 0x03] := by
    rw [longFrame, test_trailer_zeros, List.length_replicate]; rfl
  have e : exec (.encLong (List.replicate 256 0)) ready = .next (transmit (longFrame (List.replicate 256 0)) ready) := by
    simp only [exec, execEncLong, List.length_replicate]; rfl
  exact ⟨_, e, by rw [transmit_bound rfl, h]; rfl⟩
/-- The stepping form, step 1: the clock stands at 5000. -/
theorem test_rxStart : nextWith (exec .rxStart { ready with env := { Env.initial with now := 5000 } })
    (fun t => t.rx.deadline = 5100 ∧ t.rx.state = .accumulating ∧ t.rx.cnt = 0 ∧ t.rx.exp = none) = true := by decide
/-- The stepping form, step 2. -/
theorem test_rxPoll : nextWith (exec .rxPoll (receiving [] [0x02, 0x01] none 0 5100))
    (fun t => t.rx.cnt = 2 ∧ t.rx.exp = some 6 ∧ t.rx.len = 1 ∧ t.rx.state = .accumulating) = true := by decide
/-- V35: at the capacity the receive overflows, and what is behind stays. -/
theorem test_rxPoll_overflow :
    nextWith (exec .rxPoll (receiving (List.replicate 255 0xAA) [0xAA, 0xAA, 0xAA] none 0 100))
      (fun t => t.rx.state = .overflowed ∧ t.env.rxFifo = [0xAA, 0xAA]) = true := by decide
/-- V34: one millisecond below the deadline the frame is taken. -/
theorem test_rxRun_complete :
    nextWith (exec .rxRun (scripted [[], (.tick 99) :: ([0x02, 0x00, 0x00, 0x00, 0x03] : List Byte).map .push]))
      (fun t => t.rx.state = .complete ∧ t.rx.cnt = 5 ∧ t.env.rxFifo = []) = true := by decide
/-- V33: at the deadline nothing is read. -/
theorem test_rxRun_timeout :
    nextWith (exec .rxRun (scripted [[], (.tick 100) :: ([0x02, 0x00, 0x00, 0x00, 0x03] : List Byte).map .push]))
      (fun t => t.rx.state = .timedOut ∧ t.rx.cnt = 0 ∧ t.env.rxFifo.length = 5 ∧ t.result = .length 0) = true := by
  decide
/-- The stepping form, step 4a: the last byte completes. -/
theorem test_rxByte : nextWith (exec .rxByte (receiving [0x02, 0x01, 0x04, 0x40, 0x84] [0x03] (some 6) 1 5100))
    (fun t => t.rx.cnt = 6 ∧ t.rx.state = .complete ∧ t.env.rxFifo = []) = true := by decide
/-- VALIDATE after the frame of V20 was received. -/
theorem test_validate : nextWith (exec .validate (completed [0x02, 0x01, 0x04, 0x40, 0x84, 0x03] 1))
    (fun t => t.result = .success ∧ t.val.len = 1 ∧ t.val.crcRx = 0x4084 ∧ t.val.ok = true) = true := by decide
/-- V49. -/
theorem test_validateX_mismatch : nextWith (exec (.validateX [0x02, 0x02, 0xAA, 0x04, 0xD8, 0x64, 0x03] 7) State.reset)
    (fun t => t.result = .failure .checksumMismatch ∧ t.val.crcRx = 0xD864 ∧ t.val.crcCalc = 0xB231) = true := by decide
/-- V49b. -/
theorem test_validateX_malformed : nextWith (exec (.validateX [0x03, 0x00, 0x01, 0x04, 0x40, 0x84, 0x03] 7) State.reset)
    (fun t => t.result = .failure .malformed ∧ t.val.len = 0) = true := by decide
/-- R142's tests on the bytes that are there: a byte too many is not read, four bytes of five fail on the length byte. -/
theorem test_validateX_other_length :
    nextWith (exec (.validateX [0x02, 0x01, 0x04, 0x40, 0x84, 0x03, 0xFF] 6) State.reset) (fun t => t.result = .success) = true ∧
    nextWith (exec (.validateX [0x02, 0x01, 0x04, 0x40] 5) State.reset) (fun t => t.result = .failure .malformed) = true := by decide
/-- V61. -/
theorem test_rdS16q : nextWith (exec (.rdS16q 10) { validatedWith [0x04, 0x80, 0x00] with cur := 1 })
    (fun t => t.result = .field (.scaled (-16384 / 5)) ∧ t.cur = 3) = true := by decide +kernel
/-- V64. -/
theorem test_rdS32q : nextWith (exec (.rdS32q 100) (validatedWith [0x7F, 0xFF, 0xFF, 0xFF]))
    (fun t => t.result = .field (.scaled (2147483647 / 100)) ∧ t.cur = 4) = true := by decide +kernel
/-- V63. -/
theorem test_rdS32 : nextWith (exec .rdS32 (validatedWith [0x80, 0x00, 0x00, 0x00]))
    (fun t => t.result = .field (.integer (-2147483648)) ∧ t.cur = 4) = true := by decide
/-- V66. -/
theorem test_rdU8 : nextWith (exec .rdU8 (validatedWith [0xFF])) (fun t => t.result = .field (.byte 255) ∧ t.cur = 1) = true := by
  decide
/-- V69c. -/
theorem test_curSet : nextWith (exec (.curSet 3) (validatedWith [1, 2, 3])) (fun t => t.cur = 3) = true ∧
    exec (.curSet 4) (validatedWith [1, 2, 3]) = .refused .readPastEnd := ⟨by decide, rfl⟩
/-- V50. -/
theorem test_decode : nextWith (exec .decode (validatedWith payloadA))
    (fun t => t.T.toList = recordA ∧ t.cur = 59 ∧ t.connected = false ∧ t.outcome = .none) = true := by decide +kernel
/-- V54. -/
theorem test_decode_short : nextWith (exec .decode (validatedWith (payloadA.take 58)))
    (fun t => t.result = .outcome .shortPayload ∧ t.T = State.reset.T) = true := by decide
/-- Frame A, the arm alone. -/
theorem test_getValues : nextWith (exec .getValues (validatedWith payloadA)) (fun t => t.T.toList = recordA) = true := by
  decide +kernel

/-- Frame A validated, the decoder before step `k`. -/
def atStep (k : Nat) : State :=
  { validatedWith payloadA with cur := [1, 3, 5, 9, 13, 17, 21, 23, 27, 29, 33, 37, 41, 45, 49, 53, 54, 58].getD k 0, decStep := k }

/-- Frame A's table, each row alone. -/
def stages (i : Instr) (k : Nat) (width : Nat) : Bool :=
  nextWith (exec i (atStep k)) (fun t => t.stage[k]? = recordA[k]? ∧ t.decStep = k + 1 ∧ t.cur = (atStep k).cur + width)

/-- Every row, its step and its width (R79), on Frame A. -/
theorem test_gv_rows : ∀ r ∈ ([
    (.gvTemperatureFet, 0, 2), (.gvTemperatureMotor, 1, 2), (.gvAvgMotorCurrent, 2, 4), (.gvAvgInputCurrent, 3, 4), (.gvAvgId, 4, 4),
    (.gvAvgIq, 5, 4), (.gvDuty, 6, 2), (.gvErpm, 7, 4), (.gvBatteryVoltage, 8, 2), (.gvAmpHoursUsed, 9, 4),
    (.gvAmpHoursCharged, 10, 4), (.gvWattHoursUsed, 11, 4), (.gvWattHoursCharged, 12, 4), (.gvTachometer, 13, 4), (.gvTachometerAbs, 14, 4),
    (.gvFaultCode, 15, 1), (.gvPidPosition, 16, 4), (.gvControllerId, 17, 1)] : List (Instr × Nat × Nat)), stages r.1 r.2.1 r.2.2 = true := by decide +kernel

/-! ### Statements with hypotheses: a state and operands that meet them, clause by clause -/

theorem noReset_of {s : State} (h : (s.env.script.all fun b => !b.contains .reset) = true) : noReset s := by
  intro b hb hr
  have := List.all_eq_true.mp h b hb
  rw [List.contains_iff_mem.mpr hr] at this
  cases this

theorem witness_StepRunsDecodedOperation :
    (interleave State.reset).port = [] ∧
    (let m := interleave { State.reset with port := [0x54, 0, 0, 0, 255, 0x01] }
     m.port ≠ [] ∧ decode m.params.opcGetValues m.sel m.port = .ok (.curSet 255, [0x01])) ∧
    (let m := interleave { State.reset with port := [0x7F] }
     m.port ≠ [] ∧ decode m.params.opcGetValues m.sel m.port = .error (.badCommand 0x7F)) := by decide
theorem witness_UnassignedCodesAreBadCommands : ∀ code ∈ ([0x00, 0x03, 0x34, 0x61, 0xFF] : List Byte),
    let s := { State.reset with port := [code] }
    s.sel = .cmd ∧ s.port = code :: [] ∧ code ∉
      ([0x01, 0x02, 0x10, 0x11, 0x12, 0x20, 0x30, 0x31, 0x32, 0x33, 0x40, 0x41, 0x50, 0x51, 0x52, 0x53, 0x54, 0x60] : List Byte) := by
  decide
theorem witness_DecodeOfEncode : (Instr.curSet 255).wellFormed = true ∧ (Instr.validateX [1, 2] 2).wellFormed = true ∧
    (Instr.encShort []).wellFormed = true ∧ (Instr.encLong (List.replicate 256 0)).wellFormed = true ∧
    (Instr.rdS32q 4294967295).wellFormed = true ∧ Instr.gvControllerId.wellFormed = true := by decide
theorem witness_EncodeOfDecode : decode 0x04 .cmd [0x11, 0xFF, 0x01] = .ok (.crcByte 0xFF, [0x01]) ∧
    decode 0x04 .frame [0x02, 0x00, 0x00, 0x00, 0x03] = .ok (.encShort [], []) ∧
    decode 0xAA .payload [0xAA] = .ok (.getValues, []) ∧ decode 0x04 .gvStep [0x00] = .ok (.gvTemperatureFet, []) := by decide
theorem witness_ChecksumCommandsWriteCrcOnly : State.reset.seqState = .idle := rfl
theorem witness_ChecksumDetectsOneChangedByte : (0x00 : Byte) ≠ 0x80 := by decide
theorem witness_ChecksumIsLinear : ([0x31, 0x32] : List Byte).length = ([0x32, 0x31] : List Byte).length := rfl
theorem witness_EncodeSendsOneFrame : ready.seqState = .idle ∧ ready.bound = true ∧
    (List.replicate 255 (0 : Byte)).length ≤ 255 ∧ 255 < (List.replicate 256 (0 : Byte)).length ∧
    (List.replicate 65535 (0 : Byte)).length ≤ 65535 := by
  simp only [List.length_replicate]; decide
theorem witness_EncodeUnboundSendsNothing : State.reset.seqState = .idle ∧ State.reset.bound = false ∧
    ([] : List Byte).length ≤ 65535 := by decide
theorem witness_EncodeLengthDomain : ready.seqState = .idle ∧ ready.bound = true ∧
    65535 < (List.replicate 65536 (0 : Byte)).length := by
  simp only [List.length_replicate]; decide
theorem witness_EncoderArmsAreEncode : ready.seqState = .idle ∧ (List.replicate 255 (0 : Byte)).length ≤ 255 ∧
    256 ≤ (List.replicate 256 (0 : Byte)).length ∧ (List.replicate 65535 (0 : Byte)).length ≤ 65535 ∧
    65535 < (List.replicate 65536 (0 : Byte)).length := by
  simp only [List.length_replicate]; decide
theorem witness_RxStartBeginsReceive : ready.seqState = .idle ∧ ready.bound = true ∧ quietPoint ready :=
  ⟨rfl, rfl, (noReset_of rfl).quiet⟩
theorem reset_inv : Inv State.reset := coreReset_inv (s := State.reset) (by decide)
theorem witness_ReceiverUnboundDoesNothing : Inv State.reset ∧ State.reset.bound = false := ⟨reset_inv, rfl⟩
theorem witness_ReceiverRefusesBadState : ready.seqState = .idle ∧ ready.rx.state ≠ .accumulating ∧
    ¬ (ready.bound = true ∧ ready.rx.state = .accumulating ∧ ready.env.rxFifo ≠ []) ∧
    (let s := receiving [] [] none 0 100
     ¬ (s.bound = true ∧ s.rx.state = .accumulating ∧ s.env.rxFifo ≠ [])) := by decide
theorem witness_RxPollTimesOutAtDeadline :
    let s := receiving [0x02] [0x01] none 0 0
    s.seqState = .idle ∧ s.rx.state = .accumulating ∧ quietPoint s ∧ s.rx.deadline ≤ (interleave s).env.now :=
  ⟨rfl, rfl, (noReset_of rfl).quiet, by decide⟩
theorem witness_RxPollDrainsInOrder :
    let s := receiving [0x02] [0x01, 0x04] none 0 1
    s.seqState = .idle ∧ s.rx.state = .accumulating ∧ noReset s ∧ (interleave s).env.now < s.rx.deadline :=
  ⟨rfl, rfl, noReset_of rfl, by decide⟩
/-- The second byte, the completing byte, the byte that fills the buffer. -/
theorem witness_RxByteAccumulates : ∀ s ∈ [receiving [0x02] [0x01] none 0 100,
      receiving [0x02, 0x00, 0x00, 0x00] [0x03] (some 5) 0 100, receiving (List.replicate 255 0xAA) [0xAA] none 0 100],
    s.seqState = .idle ∧ s.bound = true ∧ s.rx.state = .accumulating ∧ quietPoint s ∧ ∃ b q, s.env.rxFifo = b :: q := by
  intro s hs
  simp only [List.mem_cons, List.not_mem_nil, or_false] at hs
  rcases hs with rfl | rfl | rfl <;> exact ⟨rfl, rfl, rfl, (noReset_of rfl).quiet, _, _, rfl⟩
theorem witness_RxRunEndsInOneOfThreeStates : ∃ s t : State, s.seqState = .idle ∧ s.bound = true ∧ noReset s ∧
    exec .rxRun s = .next t :=
  have ⟨t, h, _⟩ := nextWith_exists (o := exec .rxRun (scripted [[], [.tick 100]])) (p := fun _ => true) (by decide)
  ⟨_, t, rfl, rfl, noReset_of rfl, h⟩
/-- The other clauses: a frame that arrives in pieces, over several polls, completes. -/
theorem witness_RxRunEndsInOneOfThreeStates_pieces :
    nextWith (exec .rxRun (scripted [[], [.push 0x02, .push 0x01], [], [], [], [], [.tick 5], [.push 0x04], [],
        [.push 0x40, .push 0x84, .push 0x03]]))
      (fun t => decide (t.rx.state = .complete) && decide (t.rx.cnt = 6) && decide (t.env.now = 5)) = true := by decide
theorem witness_RxRunReturnsIfClockAdvances :
    let s := scripted [[], [.tick 100]]
    s.seqState = .idle ∧ s.bound = true ∧ noReset s ∧ s.params.timeoutMs ≤ ticksOf s.env.script.tail ∧
      s.env.rxFifo = [] ∧ bytesOf s.env.script = [] :=
  ⟨rfl, rfl, noReset_of rfl, by decide, rfl, by decide⟩
theorem witness_SilentLinkTimesOut :
    let s := scripted [[], [.tick 100]]
    s.seqState = .idle ∧ s.bound = true ∧ noReset s ∧ s.params.timeoutMs ≤ ticksOf s.env.script.tail ∧
      s.env.rxFifo = [] ∧ bytesOf s.env.script = [] := witness_RxRunReturnsIfClockAdvances
theorem witness_RxRunNeverEndsOnlyWhenStalled : ∃ s f, exec .rxRun s = .fault f := ⟨ready, .neverEnds, rfl⟩
/-- An empty payload, and the longest one that fits a buffer of 256. -/
theorem witness_WaitingFrameCompletes : ∀ p ∈ ([[], List.replicate 251 0] : List (List Byte)),
    let s := waiting ([0x02, BitVec.ofNat 8 p.length] ++ p ++ [0x00, 0x00, 0x03] ++ [0xAA])
    s.seqState = .idle ∧ s.bound = true ∧ s.env.script = [] ∧ 0 < s.params.timeoutMs ∧ p.length ≤ 255 ∧
      p.length + 5 ≤ s.params.rxCap ∧
      s.env.rxFifo = [0x02, BitVec.ofNat 8 p.length] ++ p ++ [0x00, 0x00, 0x03] ++ [0xAA] := by
  intro p hp
  simp only [List.mem_cons, List.not_mem_nil, or_false] at hp
  rcases hp with rfl | rfl <;> refine ⟨rfl, rfl, rfl, by decide, ?_, ?_, rfl⟩ <;> decide
theorem witness_UnreceivableFramesNeverComplete : ∀ f ∈ ([[0x03, 0x00], [0x02, 0xFC], [0x02, 0x00, 0x00, 0x00, 0x00]] : List (List Byte)),
    let s := { waiting f with env := { (waiting f).env with script := [[], [.tick 100]] } }
    s.seqState = .idle ∧ s.bound = true ∧ noReset s ∧ 5 ≤ s.params.rxCap ∧ (∃ t, exec .rxRun s = .next t) ∧
    let stream := s.env.rxFifo ++ bytesOf s.env.script
    ((∃ b q, stream = b :: q ∧ b ≠ 0x02) ∨
     (∃ l q, stream = 0x02 :: l :: q ∧ s.params.rxCap < l.toNat + 5) ∨
     (∃ l q b, stream = 0x02 :: l :: q ∧ stream[l.toNat + 4]? = some b ∧ b ≠ 0x03)) := by
  intro f hf
  simp only [List.mem_cons, List.not_mem_nil, or_false] at hf
  rcases hf with rfl | rfl | rfl
  · refine ⟨rfl, rfl, noReset_of rfl, by decide, ⟨_, rfl⟩, .inl ⟨0x03, _, rfl, by decide⟩⟩
  · refine ⟨rfl, rfl, noReset_of rfl, by decide, ⟨_, rfl⟩, .inr (.inl ⟨0xFC, _, rfl, by decide⟩)⟩
  · refine ⟨rfl, rfl, noReset_of rfl, by decide, ⟨_, rfl⟩, .inr (.inr ⟨0x00, _, 0x00, rfl, rfl, by decide⟩)⟩
/-- The same three with nothing waiting: the bytes arrive during the receive. -/
theorem witness_UnreceivableFramesNeverComplete_arriving :
    ∀ f ∈ ([[0x03, 0x00], [0x02, 0xFC], [0x02, 0x00, 0x00, 0x00, 0x00]] : List (List Byte)),
    let s := scripted [[], f.map .push, [.tick 100]]
    s.seqState = .idle ∧ s.bound = true ∧ noReset s ∧ 5 ≤ s.params.rxCap ∧ (∃ t, exec .rxRun s = .next t) ∧
    let stream := s.env.rxFifo ++ bytesOf s.env.script
    ((∃ b q, stream = b :: q ∧ b ≠ 0x02) ∨
     (∃ l q, stream = 0x02 :: l :: q ∧ s.params.rxCap < l.toNat + 5) ∨
     (∃ l q b, stream = 0x02 :: l :: q ∧ stream[l.toNat + 4]? = some b ∧ b ≠ 0x03)) := by
  intro f hf
  simp only [List.mem_cons, List.not_mem_nil, or_false] at hf
  rcases hf with rfl | rfl | rfl
  · refine ⟨rfl, rfl, noReset_of rfl, by decide, ⟨_, rfl⟩, .inl ⟨0x03, _, rfl, by decide⟩⟩
  · refine ⟨rfl, rfl, noReset_of rfl, by decide, ⟨_, rfl⟩, .inr (.inl ⟨0xFC, _, rfl, by decide⟩)⟩
  · refine ⟨rfl, rfl, noReset_of rfl, by decide, ⟨_, rfl⟩, .inr (.inr ⟨0x00, _, 0x00, rfl, rfl, by decide⟩)⟩
theorem witness_ValidateXRejectsMalformed : State.reset.seqState = .idle ∧
    ∀ f ∈ ([[0x02, 0x00, 0x00, 0x00], [0x03, 0x00, 0x00, 0x00, 0x03], [0x02, 0x01, 0x00, 0x00, 0x03],
        [0x02, 0x00, 0x00, 0x00, 0x00]] : List (List Byte)),
      ¬ (5 ≤ f.length ∧ f[0]? = some 0x02 ∧ (∃ l, f[1]? = some l ∧ f.length = l.toNat + 5) ∧ f[f.length - 1]? = some 0x03) := by
  refine ⟨rfl, ?_⟩
  intro f hf
  simp only [List.mem_cons, List.not_mem_nil, or_false] at hf
  rcases hf with rfl | rfl | rfl | rfl <;> rintro ⟨h1, h2, ⟨l, h3, h4⟩, h5⟩ <;> simp at * <;> subst_vars <;> simp at *
/-- The sound side of the same statement: the shortest frame, whatever its checksum. -/
theorem witness_ValidateXRejectsMalformed_sound : let f : List Byte := [0x02, 0x00, 0x12, 0x34, 0x03]
    5 ≤ f.length ∧ f[0]? = some 0x02 ∧ (∃ l, f[1]? = some l ∧ f.length = l.toNat + 5) ∧ f[f.length - 1]? = some 0x03 :=
  ⟨by decide, rfl, ⟨0x00, rfl, rfl⟩, rfl⟩
theorem witness_ValidateXComparesChecksums : State.reset.seqState = .idle ∧ ([] : List Byte).length ≤ 255 ∧
    (List.replicate 255 (0 : Byte)).length ≤ 255 ∧ ((0x00 : Byte) ++ (0x00 : Byte) : Word16) = crc16 [] ∧
    ((0x00 : Byte) ++ (0x01 : Byte) : Word16) ≠ crc16 [] := by decide
theorem witness_EncodeThenValidateSucceeds : State.reset.seqState = .idle ∧ (List.replicate 255 (0 : Byte)).length ≤ 255 := by
  decide
/-- A completed frame of an empty payload keeps the invariant. -/
theorem completed_inv : Inv (completed [0x02, 0x00, 0x00, 0x00, 0x03] 0) := by
  constructor <;> first
    | decide
    | (intro k hk; exact absurd hk (Nat.not_lt_zero _))
    | (intro h; cases h)
    | exact .inl (by decide)
theorem witness_ValidateActsOnCompletedFrame : Inv State.reset ∧ State.reset.rx.state ≠ .complete ∧
    Inv (completed [0x02, 0x00, 0x00, 0x00, 0x03] 0) ∧ (completed [0x02, 0x00, 0x00, 0x00, 0x03] 0).rx.state = .complete :=
  ⟨reset_inv, by decide, completed_inv, rfl⟩
theorem witness_CorruptedPayloadIsRejected : State.reset.seqState = .idle ∧
    (([] : List Byte) ++ (0x04 : Byte) :: List.replicate 254 0).length ≤ 255 ∧ (0x04 : Byte) ≠ 0x05 := by decide
theorem witness_BuffersChangeOnlyWhereStored :
    (∃ s t f n, exec (.validateX f n) s = .next t ∧ 0 < t.val.len) ∧
    (∃ s t b q, quietPoint s ∧ s.env.rxFifo = b :: q ∧ exec .rxByte s = .next t) ∧
    (∃ s t, noReset s ∧ exec .bind s = .next t) := by
  refine ⟨?_, ?_, ⟨State.reset, _, noReset_of rfl, rfl⟩⟩
  · obtain ⟨t, h, hp⟩ := nextWith_exists (o := exec (.validateX [0x02, 0x01, 0x04, 0x40, 0x84, 0x03] 6) State.reset)
      (p := fun t => decide (0 < t.val.len)) (by decide)
    exact ⟨_, t, _, _, h, of_decide_eq_true hp⟩
  · exact ⟨receiving [0x02] [0x01] none 0 100, _, 0x01, [], (noReset_of rfl).quiet, rfl, rfl⟩

/-- A payload whose last bytes are a field of each width. -/
theorem witness_reads :
    let s := validatedWith [0x80, 0x00, 0x7F, 0xFF]
    s.seqState = .idle ∧ 1 ≤ 1 ∧ s.cur + 4 ≤ s.val.len ∧ s.cur + 2 ≤ s.val.len ∧ s.cur + 1 ≤ s.val.len ∧
      Mem.read s.val.buf s.cur = some 0x80 ∧ Mem.read s.val.buf (s.cur + 1) = some 0x00 ∧
      Mem.read s.val.buf (s.cur + 2) = some 0x7F ∧ Mem.read s.val.buf (s.cur + 3) = some 0xFF := by decide
theorem witness_RdS16qReadsScaledField : ∃ (s : State) (scale : Nat) (a b : Byte), s.seqState = .idle ∧ 1 ≤ scale ∧
    s.cur + 2 ≤ s.val.len ∧ Mem.read s.val.buf s.cur = some a ∧ Mem.read s.val.buf (s.cur + 1) = some b :=
  have h := witness_reads
  ⟨_, 1, 0x80, 0x00, h.1, h.2.1, h.2.2.2.1, h.2.2.2.2.2.1, h.2.2.2.2.2.2.1⟩
theorem witness_RdS32qReadsScaledField : ∃ (s : State) (scale : Nat) (a b c d : Byte), s.seqState = .idle ∧ 1 ≤ scale ∧
    s.cur + 4 ≤ s.val.len ∧ Mem.read s.val.buf s.cur = some a ∧ Mem.read s.val.buf (s.cur + 1) = some b ∧
    Mem.read s.val.buf (s.cur + 2) = some c ∧ Mem.read s.val.buf (s.cur + 3) = some d :=
  have h := witness_reads
  ⟨_, 1, 0x80, 0x00, 0x7F, 0xFF, h.1, h.2.1, h.2.2.1, h.2.2.2.2.2⟩
theorem witness_RdS32ReadsRawInteger : (State.reset.seqState = .idle ∧ State.reset.val.len < State.reset.cur + 4) ∧
    (∃ (s : State) (a b c d : Byte), s.seqState = .idle ∧ s.cur + 4 ≤ s.val.len ∧ Mem.read s.val.buf s.cur = some a ∧
      Mem.read s.val.buf (s.cur + 1) = some b ∧ Mem.read s.val.buf (s.cur + 2) = some c ∧
      Mem.read s.val.buf (s.cur + 3) = some d) :=
  have h := witness_reads
  ⟨by decide, _, 0x80, 0x00, 0x7F, 0xFF, h.1, h.2.2.1, h.2.2.2.2.2⟩
theorem witness_RdU8ReadsRawByte : (State.reset.seqState = .idle ∧ State.reset.val.len < State.reset.cur + 1) ∧
    (∃ (s : State) (b : Byte), s.seqState = .idle ∧ s.cur + 1 ≤ s.val.len ∧ Mem.read s.val.buf s.cur = some b) :=
  have h := witness_reads
  ⟨by decide, _, 0x80, h.1, h.2.2.2.2.1, h.2.2.2.2.2.1⟩
theorem witness_ReadsAreRefusedInOrder : State.reset.seqState = .idle ∧ 1 ≤ 1 ∧ State.reset.val.len < State.reset.cur + 1 ∧
    (let s := validatedWith [0x80]
     s.val.len < s.cur + 2 ∧ s.val.len < s.cur + 4) := by decide
theorem witness_CurSetMovesCursor : (validatedWith [0x80]).seqState = .idle ∧ 1 ≤ (validatedWith [0x80]).val.len ∧
    (validatedWith [0x80]).val.len < 2 := by decide
theorem witness_CurSetMovesCursor_decodes : decode 0x04 .cmd (0x54 :: [0, 0, 0, 1]) = .ok (.curSet 1, []) := by rfl
theorem witness_FieldValueDeterminesBytes : (FieldOp.s16q 1).zeroScale = false ∧
    ([0x80, 0x00] : List Byte).length = (FieldOp.s16q 1).width ∧
    (FieldOp.s16q 1).value [0x80, 0x00] = (FieldOp.s16q 1).value [0x80, 0x00] := by decide
theorem witness_DecodeNeedsValidation : State.reset.seqState = .idle ∧ State.reset.val.ok = false := by decide
theorem witness_DecodeUnsupportedChangesNothing : (validatedWith []).seqState = .idle ∧ (validatedWith []).val.ok = true ∧
    (validatedWith []).val.len = 0 ∧ (validatedWith [0x05]).seqState = .idle ∧ (validatedWith [0x05]).val.ok = true ∧
    Mem.read (validatedWith [0x05]).val.buf 0 = some 0x05 ∧ (0x05 : Byte) ≠ (validatedWith [0x05]).params.opcGetValues := by
  decide
/-- One byte, and 58: the two ends of a short payload. -/
theorem witness_ShortPayloadChangesNothing : ∀ n ∈ [1, 58],
    let s := validatedWith (payloadA.take n)
    s.seqState = .idle ∧ s.val.ok = true ∧ 0 < s.val.len ∧ s.val.len < 59 ∧
      Mem.read s.val.buf 0 = some s.params.opcGetValues := by decide
/-- 59 bytes, and 60. -/
theorem witness_DecodeCommitsTheRecord : ∀ p ∈ [payloadA, payloadA ++ [0xAA]],
    let s := validatedWith p
    s.seqState = .idle ∧ s.val.ok = true ∧ 59 ≤ s.val.len ∧ payload s = some p ∧ p[0]? = some s.params.opcGetValues := by
  decide
theorem witness_RowByRowIsDecode : (validatedWith payloadA).seqState = .idle ∧ (validatedWith payloadA).val.ok = true ∧
    59 ≤ (validatedWith payloadA).val.len ∧ payload (validatedWith payloadA) = some payloadA ∧
    payloadA[0]? = some (validatedWith payloadA).params.opcGetValues := by decide
theorem witness_OperandsOutsideTheRules : State.reset.seqState = .idle ∧ ([0x02] : List Byte).length ≠ 2 ∧
    State.reset.val.ok = false ∧ State.reset.val.len = 0 ∧
    Mem.read (validatedWith [0x05]).val.buf 0 ≠ some (validatedWith [0x05]).params.opcGetValues := by decide
/-- The first row and the last: selected, not selected, past the end, readable. -/
theorem witness_ScheduleStepStagesOneField : gvInstr (0 : Fin 18).val = some .gvTemperatureFet ∧
    gvInstr (17 : Fin 18).val = some .gvControllerId ∧ State.reset.decStep ≠ (17 : Fin 18).val ∧
    State.reset.decStep = (0 : Fin 18).val ∧ State.reset.val.len < State.reset.cur + (gvOp 0).width ∧
    (atStep 17).decStep = (17 : Fin 18).val ∧ (atStep 17).cur + (gvOp 17).width ≤ (atStep 17).val.len ∧
    Mem.readBytes (atStep 17).val.buf (atStep 17).cur (gvOp 17).width = some [0x07] := by decide
theorem witness_BindSetsBound : State.reset.seqState = .idle ∧ ({ State.reset with seqState := .sent } : State).seqState ≠ .idle ∧
    (∃ t, exec .bind State.reset = .next t) ∧ noReset ready ∧ ready.bound = true ∧ (∃ t, exec .crcClr ready = .next t) :=
  ⟨rfl, by decide, ⟨_, rfl⟩, noReset_of rfl, rfl, ⟨_, rfl⟩⟩
theorem witness_BusyRefusesEveryCommand : ({ State.reset with seqState := .received } : State).seqState ≠ .idle ∧
    Instr.decode.format = .cmd := by decide
theorem witness_RefreshUnbound : State.reset.seqState = .idle ∧ State.reset.bound = false := ⟨rfl, rfl⟩
theorem witness_RefreshEndsAsItsOutcomeSays : ∃ s t : State, s.seqState = .idle ∧ noReset s ∧ s.bound = true ∧
    exec .refresh s = .next t :=
  have ⟨t, h, _⟩ := nextWith_exists (o := exec .refresh (scripted [[], [.tick 100]])) (p := fun _ => true) (by decide)
  ⟨_, t, rfl, noReset_of rfl, rfl, h⟩
theorem witness_RefreshReturnsIfClockAdvances : (Inv State.reset ∧ noReset State.reset ∧ State.reset.bound = false) ∧
    (let s := scripted [[], [.tick 100]]
     Inv s ∧ noReset s ∧ s.params.timeoutMs ≤ ticksOf s.env.script.tail) :=
  ⟨⟨reset_inv, noReset_of rfl, rfl⟩, (reset_inv.steady.bind.withEnv _).inv rfl, noReset_of rfl, by decide⟩
/-- The four outcomes: V49d's kind, V74, V76, V70. -/
theorem witness_RefreshOnWaitingFrame :
    (∀ p ∈ [[], [0x05], [0x04], payloadA],
      let s := waiting ([0x02, BitVec.ofNat 8 p.length] ++ p ++ [hiByte (crc16 p), loByte (crc16 p), 0x03] ++ [0xAA])
      s.seqState = .idle ∧ s.bound = true ∧ s.env.script = [] ∧ 0 < s.params.timeoutMs ∧ p.length ≤ 255 ∧
        p.length + 5 ≤ s.params.rxCap ∧
        s.env.rxFifo = [0x02, BitVec.ofNat 8 p.length] ++ p ++ [hiByte (crc16 p), loByte (crc16 p), 0x03] ++ [0xAA]) ∧
    ((0x40 : Byte) ++ (0x85 : Byte) : Word16) ≠ crc16 [0x04] := by decide
/-- The clauses by outcome: unbound, a receive that did not complete, and the completed ones: both verdicts, a record. -/
theorem witness_RefreshEndsAsItsOutcomeSays_completed : ∀ x ∈ [([0x02, 0x01, 0x04, 0x40, 0x85, 0x03], OutcomeCode.checksumMismatch),
      ([0x02, 0x01, 0x04, 0x40, 0x84, 0x03], .shortPayload), ([0x02, 0x00, 0x00, 0x00, 0x03], .unsupportedOpcode)],
    nextWith (exec .refresh (waiting x.1)) (fun t => decide (t.outcome = x.2) && decide (t.rx.state = .complete)) = true := by decide
/-- A reset between two operations, at the clock sample of a receive, and in the middle of one and of a REFRESH. -/
theorem witness_ResetGivesEveryElementItsValue :
    (let s := scripted [[.push 0x02, .reset]]
     s.env.script = [.push 0x02, .reset] :: [] ∧ Outside.reset ∈ ([.push 0x02, .reset] : List Outside) ∧ s.port = []) ∧
    (∀ sc ∈ ([[[.reset]], [[], [], [.push 0x02, .reset], [.tick 1]]] : List (List (List Outside))), ∀ i ∈ [Instr.rxRun, .refresh],
      nextWith (exec i (scripted sc)) (fun t => decide (sc = sc.take (sc.length - t.env.script.length) ++ t.env.script) &&
        ((sc.take (sc.length - t.env.script.length)).any fun b => b.contains .reset)) = true) := by decide
theorem witness_EachRegisterHasItsWriters : noReset ready ∧ ready.bound = true ∧
    (∃ t, exec .refresh State.reset = .next t) ∧ (∃ t, exec .bind ready = .next t) ∧ (∃ t, exec .rxStart ready = .next t) :=
  ⟨noReset_of rfl, rfl, ⟨_, rfl⟩, ⟨_, rfl⟩, ⟨_, rfl⟩⟩
theorem witness_EnvironmentOnlyMovesForward : ∃ t, step (scripted [[.push 0x02, .tick 3, .reset]]) = .next t := ⟨_, rfl⟩
theorem witness_StepKeepsInvariant : Inv State.reset ∧ Inv (completed [0x02, 0x00, 0x00, 0x00, 0x03] 0) := ⟨reset_inv, completed_inv⟩
theorem witness_HostReadsRecord : ({ State.reset with T := State.reset.T.set 17 (.value (.byte 7)) } : State).T[(17 : Fin 18)] =
    .value (.byte 7) ∧ State.reset.T[(0 : Fin 18)] = .unwritten := by decide

end Sys2Proof.Tests
end

section
/-! SUPPORT. A reset inside an operation (R210, log entry 10): whatever operation runs, either no batch it used held a reset, or it
leaves the CORE reset. Only the receiver has interleaving points; every other part of an operation keeps the script. -/

namespace Sys2Proof.Machine

variable {s t u w : State}

/-! ### Parts of an operation with no interleaving point -/

/-- From `s` to `t` no batch of the script was used, and the parameters are the same. -/
def KeepsScript (s t : State) : Prop := t.params = s.params ∧ t.env.script = s.env.script

theorem KeepsScript.refl (s : State) : KeepsScript s s := ⟨rfl, rfl⟩

theorem KeepsScript.trans (h : KeepsScript s t) (k : KeepsScript t u) : KeepsScript s u :=
  ⟨k.1.trans h.1, k.2.trans h.2⟩

/-- An operation's end adds its result only. -/
theorem done_keepsScript {r : Result} (h : done r s = .next t) : KeepsScript s t := by
  cases h; exact ⟨rfl, rfl⟩

theorem transmit_keepsScript (f : List Byte) (s : State) : KeepsScript s (transmit f s) := by
  obtain ⟨e, n, ht, _, _, _, hscript, _⟩ := transmit_cases f s
  rw [ht]
  exact ⟨rfl, hscript⟩

theorem encodeOp_keepsScript {p : List Byte} (h : encodeOp p s = .next t) : KeepsScript s t := by
  unfold encodeOp at h
  split at h
  · cases h
  · cases h; exact transmit_keepsScript _ s

theorem execEncShort_keepsScript {p : List Byte} (h : execEncShort p s = .next t) : KeepsScript s t := by
  unfold execEncShort at h
  split at h
  · cases h; exact transmit_keepsScript _ s
  · cases h

theorem execEncLong_keepsScript {p : List Byte} (h : execEncLong p s = .next t) : KeepsScript s t := by
  unfold execEncLong at h
  split at h
  · cases h
  · split at h
    · cases h
    · cases h; exact transmit_keepsScript _ s

theorem validateRx_keepsScript (h : validateRx s = .next t) : KeepsScript s t := by
  rw [validateRx_frame h]; exact ⟨rfl, rfl⟩

theorem execValidateX_keepsScript {f : List Byte} {n : Nat} (h : execValidateX f n s = .next t) : KeepsScript s t := by
  obtain ⟨d, e⟩ := execValidateX_idle (whenIdle_eq_next.mp h).1 f n
  cases e.symm.trans h
  rw [validateOp_frame]; exact ⟨rfl, rfl⟩

theorem readCommand_keepsScript {op : FieldOp} (h : readCommand op s = .next t) : KeepsScript s t := by
  obtain ⟨r, hr, h⟩ := andThen_eq_next.mp (whenIdle_eq_next.mp h).2
  obtain ⟨bs, _, _, rfl⟩ := readField_eq_next hr
  cases h; exact ⟨rfl, rfl⟩

theorem execCurSet_keepsScript {k : Nat} (h : execCurSet k s = .next t) : KeepsScript s t := by
  obtain ⟨_, h⟩ := whenIdle_eq_next.mp h
  split at h
  · cases h
  · have hdone := done_keepsScript h
    exact hdone

theorem decodeOp_keepsScript {r : OutcomeCode × State} (h : decodeOp s = .next r) : KeepsScript s r.2 := by
  rcases decodeOp_frame h with ⟨_, e⟩ | ⟨_, _, e⟩
  · rw [e]; exact KeepsScript.refl s
  · rw [e]; exact ⟨rfl, rfl⟩

theorem getValuesOp_keepsScript {r : OutcomeCode × State} (h : getValuesOp s = .next r) : KeepsScript s r.2 := by
  rcases getValuesOp_eq_next h with ⟨_, rfl⟩ | ⟨_, t, ht, _, rfl⟩
  · exact KeepsScript.refl s
  · rw [runSteps_frame _ ht]; exact ⟨rfl, rfl⟩

theorem execDecode_keepsScript (h : execDecode s = .next t) : KeepsScript s t := by
  obtain ⟨r, hr, h⟩ := andThen_eq_next.mp (whenIdle_eq_next.mp h).2
  exact (decodeOp_keepsScript hr).trans (done_keepsScript h)

theorem execGetValues_keepsScript (h : execGetValues s = .next t) : KeepsScript s t := by
  unfold execGetValues at h
  split at h
  · obtain ⟨r, hr, h⟩ := andThen_eq_next.mp h
    exact (getValuesOp_keepsScript hr).trans (done_keepsScript h)
  · cases h

theorem gvAlone_keepsScript {k : Fin 18} (h : gvAlone k s = .next t) : KeepsScript s t := by
  obtain ⟨u, hu, h⟩ := andThen_eq_next.mp h
  obtain ⟨_, _, bs, _, rfl⟩ := gvStep_eq_next hu
  have hdone := done_keepsScript h
  exact hdone

/-! ### REFRESH after its receive -/

theorem refreshDecode_keepsScript (h : refreshDecode s = .next t) : KeepsScript s t := by
  obtain ⟨r, hr, h⟩ := andThen_eq_next.mp h
  refine (decodeOp_keepsScript hr).trans ?_
  split at h <;> (cases h; exact ⟨rfl, rfl⟩)

theorem refreshCheck_keepsScript (h : refreshCheck s = .next t) : KeepsScript s t := by
  obtain ⟨u, hu, h⟩ := andThen_eq_next.mp h
  have hv := validateRx_keepsScript hu
  split at h
  · exact hv.trans (refreshDecode_keepsScript h)
  · cases h; exact hv

/-- What follows the receive uses no batch, and nothing follows a receive that a reset has cut. -/
theorem refreshReceived_eq_next (h : refreshReceived s = .next t) : t = s ∨ (s.rx.state ≠ .idle ∧ KeepsScript s t) := by
  unfold refreshReceived at h
  split at h <;> rename_i hs
  · cases h; exact .inr ⟨by simp [hs], rfl, rfl⟩
  · cases h; exact .inr ⟨by simp [hs], rfl, rfl⟩
  · exact .inr ⟨by simp [hs], refreshCheck_keepsScript h⟩
  · cases h; exact .inl rfl
  · cases h; exact .inl rfl

/-- RX.RUN's report uses no batch, and a receive that a reset has cut reports nothing. -/
theorem reportReceive_eq_next (h : reportReceive s = .next t) : t = s ∨ (s.rx.state ≠ .idle ∧ KeepsScript s t) := by
  unfold reportReceive at h
  split at h <;> rename_i hs
  · cases h; exact .inl rfl
  · exact .inr ⟨hs, done_keepsScript h⟩

/-! ### From the parts to `Cut` -/

theorem KeepsScript.cut (h : KeepsScript s t) : Cut s t := ⟨h.1, [], h.2.symm, .inl (by simp)⟩

/-- What came before the first interleaving point used no batch. -/
theorem Cut.after (h : Cut w t) (k : KeepsScript s w) : Cut s t := by
  obtain ⟨hp, used, hscript, hcut⟩ := h
  exact ⟨hp.trans k.1, used, k.2.symm.trans hscript, hcut⟩

/-- A receiver that is not Idle has met no reset, so the operation may go on. -/
theorem Cut.goOn (h : Cut s u) (halive : u.rx.state ≠ .idle) (k : KeepsScript u t) : Cut s t := by
  obtain ⟨hp, used, hscript, hcut⟩ := h
  refine ⟨k.1.trans hp, used, by rw [k.2]; exact hscript, .inl (hcut.resolve_right fun hreset => halive ?_)⟩
  rw [hreset]; rfl

/-- A CORE that stands reset has no result, so an operation that returns nothing leaves it so. -/
theorem Cut.done (h : Cut s u) (hd : done .none u = .next t) : Cut s t := by
  obtain ⟨hp, used, hscript, hcut⟩ := h
  cases hd
  refine ⟨hp, used, hscript, hcut.imp_right fun hreset => ?_⟩
  rw [hreset]; rfl

theorem runReceive_cut (h : runReceive s = .next t) : Cut s t := (cut_keeps s).runReceive (Cut.refl s) h

/-! ### The operations with interleaving points -/

theorem execRxStart_cut (h : execRxStart s = .next t) : Cut s t :=
  ((cut_keeps s).rxStartOp (Cut.refl s)).done (whenIdle_eq_next.mp h).2

theorem execRxPoll_cut (h : execRxPoll s = .next t) : Cut s t := by
  obtain ⟨_, h⟩ := whenIdle_eq_next.mp h
  split at h
  · exact ((cut_keeps s).pollOp (Cut.refl s)).done h
  · cases h

theorem execRxByte_cut (h : execRxByte s = .next t) : Cut s t := by
  obtain ⟨_, h⟩ := whenIdle_eq_next.mp h
  split at h
  · exact ((cut_keeps s).rxByteOp (Cut.refl s)).done h
  · cases h

theorem execRxRun_cut (h : execRxRun s = .next t) : Cut s t := by
  obtain ⟨_, h⟩ := whenIdle_eq_next.mp h
  split at h
  · obtain ⟨u, hu, h⟩ := andThen_eq_next.mp h
    rcases reportReceive_eq_next h with rfl | ⟨halive, hk⟩
    · exact runReceive_cut hu
    · exact (runReceive_cut hu).goOn halive hk
  · exact (done_keepsScript h).cut

theorem refreshSent_cut (h : refreshSent s = .next t) : Cut s t := by
  unfold refreshSent at h
  split at h
  · obtain ⟨u, hu, h⟩ := andThen_eq_next.mp h
    rcases refreshReceived_eq_next h with rfl | ⟨halive, hk⟩
    · exact runReceive_cut hu
    · exact (runReceive_cut hu).goOn halive hk
  · cases h; exact KeepsScript.cut ⟨rfl, rfl⟩

theorem execRefresh_cut (h : execRefresh s = .next t) : Cut s t := by
  obtain ⟨w, hw, h⟩ := andThen_eq_next.mp (whenIdle_eq_next.mp h).2
  have hrequest := encodeOp_keepsScript hw
  exact (refreshSent_cut h).after hrequest

/-! ### Every operation -/

/-- An operation that met a reset leaves the CORE reset; any other used no batch with a reset (R210, log entry 10). -/
theorem exec_cut {i : Instr} (h : exec i s = .next t) : Cut s t := by
  cases i with
  | refresh => exact execRefresh_cut h
  | rxStart => exact execRxStart_cut h
  | rxPoll => exact execRxPoll_cut h
  | rxRun => exact execRxRun_cut h
  | rxByte => exact execRxByte_cut h
  | bind | crcClr | crcByte | crc16 => exact (done_keepsScript (whenIdle_eq_next.mp h).2).cut
  | encode => exact (encodeOp_keepsScript (whenIdle_eq_next.mp h).2).cut
  | encShort => exact (execEncShort_keepsScript h).cut
  | encLong => exact (execEncLong_keepsScript h).cut
  | validate => exact (validateRx_keepsScript (whenIdle_eq_next.mp h).2).cut
  | validateX => exact (execValidateX_keepsScript h).cut
  | rdS16q | rdS32q | rdS32 | rdU8 => exact (readCommand_keepsScript h).cut
  | curSet => exact (execCurSet_keepsScript h).cut
  | decode => exact (execDecode_keepsScript h).cut
  | getValues => exact (execGetValues_keepsScript h).cut
  | gvTemperatureFet | gvTemperatureMotor | gvAvgMotorCurrent | gvAvgInputCurrent | gvAvgId | gvAvgIq | gvDuty | gvErpm
  | gvBatteryVoltage | gvAmpHoursUsed | gvAmpHoursCharged | gvWattHoursUsed | gvWattHoursCharged | gvTachometer
  | gvTachometerAbs | gvFaultCode | gvPidPosition | gvControllerId => exact (gvAlone_keepsScript h).cut

/-! ### Reset -/

/-- With nothing on the port the CORE waits (log entry 20). -/
theorem step_wait (h : s.port = []) : step s = .next (interleave s) := by
  simp [step, fetch, h]

/-- Settles O1. A reset at an interleaving point is `interleave_reset`; one inside an operation is `exec_cut`. -/
theorem resetGivesEveryElementItsValue : Obligations.ResetGivesEveryElementItsValue := by
  unfold Obligations.ResetGivesEveryElementItsValue
  refine ⟨fun s => ⟨rfl, fun k => by simp, rfl, rfl, rfl, rfl, rfl, rfl, rfl, rfl, rfl, rfl, rfl, rfl, rfl, rfl, rfl, rfl,
    rfl, rfl⟩, rfl, rfl, ?_, ?_⟩
  · intro s batch more hscript hreset
    have henv := interleave_env s
    rw [hscript] at henv
    exact ⟨interleave_reset hscript hreset, interleave_params s, interleave_port s, by rw [henv], by rw [henv]; rfl,
      by rw [henv]; rfl, by rw [henv]; rfl, step_wait⟩
  · intro i s t used hexec hused hreset
    exact (exec_cut hexec).reset hused hreset

end Sys2Proof.Machine
end

section
/-! SUPPORT. What each operation writes; so who writes each register, and where the buffers change: O57, O35. -/

namespace Sys2Proof.Machine

variable {s t u : State}

/-! ### What an operation can do when it answers a next state -/

/-- ENCODE and its two arms are refused, or hand one frame of at most 65541 bytes to the transport (R111 to R115). -/
theorem exec_encoder_cases {i : Instr} {p : List Byte} (hi : i = .encode p ∨ i = .encShort p ∨ i = .encLong p) (s : State) :
    (∃ r, exec i s = .refused r) ∨ ∃ f, f.length ≤ 65541 ∧ exec i s = .next (transmit f s) := by
  rcases hi with rfl | rfl | rfl
  · change (∃ r, execEncode p s = .refused r) ∨ ∃ f, _ ∧ execEncode p s = .next (transmit f s)
    unfold execEncode whenIdle encodeOp
    split_ifs with hidle hlen
    · exact .inl ⟨_, rfl⟩
    · exact .inr ⟨_, frameOf_length_le (Nat.not_lt.mp hlen), rfl⟩
    · exact .inl ⟨_, rfl⟩
  · change (∃ r, execEncShort p s = .refused r) ∨ ∃ f, _ ∧ execEncShort p s = .next (transmit f s)
    unfold execEncShort
    split_ifs with hshort
    · have hframe := frameOf_length_le (Nat.le_trans hshort (by decide : Config.shortMax ≤ 65535))
      rw [frameOf, if_pos hshort] at hframe
      exact .inr ⟨_, hframe, rfl⟩
    · exact .inl ⟨_, rfl⟩
  · change (∃ r, execEncLong p s = .refused r) ∨ ∃ f, _ ∧ execEncLong p s = .next (transmit f s)
    unfold execEncLong
    split_ifs with hlen hshort
    · exact .inl ⟨_, rfl⟩
    · exact .inl ⟨_, rfl⟩
    · have hframe := frameOf_length_le (Nat.not_lt.mp hlen)
      rw [frameOf, if_neg hshort] at hframe
      exact .inr ⟨_, hframe, rfl⟩

theorem exec_encoder_eq_next {i : Instr} {p : List Byte} (hi : i = .encode p ∨ i = .encShort p ∨ i = .encLong p)
    (h : exec i s = .next t) : ∃ f, t = transmit f s := by
  rcases exec_encoder_cases hi s with ⟨_, e⟩ | ⟨f, _, e⟩
  · cases e.symm.trans h
  · cases e.symm.trans h; exact ⟨f, rfl⟩

/-- A read on the command port moves the cursor within the payload and returns a value (R151 to R155). -/
theorem readCommand_eq_next {op : FieldOp} (h : readCommand op s = .next t) :
    ∃ v, s.cur + op.width ≤ s.val.len ∧ t = (s.withCur (s.cur + op.width)).withResult (.field v) := by
  obtain ⟨r, hr, h⟩ := andThen_eq_next.mp (whenIdle_eq_next.mp h).2
  obtain ⟨bs, _, hlen, rfl⟩ := readField_eq_next hr
  cases h; exact ⟨_, hlen, rfl⟩

theorem execCurSet_eq_next {k : Nat} (h : execCurSet k s = .next t) :
    k ≤ s.val.len ∧ t = (s.withCur k).withResult .none := by
  obtain ⟨_, h⟩ := whenIdle_eq_next.mp h
  split at h
  · cases h
  · rename_i hlen; cases h; exact ⟨Nat.not_lt.mp hlen, rfl⟩

theorem execDecode_eq_next (h : execDecode s = .next t) :
    ∃ r, decodeOp s = .next r ∧ t = r.2.withResult (.outcome r.1) := by
  obtain ⟨r, hr, h⟩ := andThen_eq_next.mp (whenIdle_eq_next.mp h).2
  cases h; exact ⟨r, hr, rfl⟩

theorem execGetValues_eq_next (h : execGetValues s = .next t) :
    ∃ r, getValuesOp s = .next r ∧ t = r.2.withResult (.outcome r.1) := by
  unfold execGetValues at h
  split at h
  · obtain ⟨r, hr, h⟩ := andThen_eq_next.mp h
    cases h; exact ⟨r, hr, rfl⟩
  · cases h

theorem gvAlone_eq_next {k : Fin 18} (h : gvAlone k s = .next t) :
    ∃ w, gvStep k s = .next w ∧ t = w.withResult .none := by
  obtain ⟨w, hw, h⟩ := andThen_eq_next.mp h
  cases h; exact ⟨w, hw, rfl⟩

theorem execRxPoll_eq_next (h : execRxPoll s = .next t) :
    s.rx.state = .accumulating ∧ t = (pollOp s).withResult .none := by
  obtain ⟨_, h⟩ := whenIdle_eq_next.mp h
  split at h
  · rename_i ha; cases h; exact ⟨ha, rfl⟩
  · cases h

theorem execRxByte_eq_next (h : execRxByte s = .next t) :
    s.rx.state = .accumulating ∧ s.env.rxFifo ≠ [] ∧ t = (rxByteOp s).withResult .none := by
  obtain ⟨_, h⟩ := whenIdle_eq_next.mp h
  split at h
  · rename_i he
    obtain ⟨_, ha, hwaiting⟩ := he
    cases h; exact ⟨ha, List.ne_nil_of_length_pos hwaiting, rfl⟩
  · cases h

/-- RX.RUN is a receive, or, unbound, nothing; then its report, which only adds the result, or, cut by a reset, nothing (R128, R129, R210). -/
theorem execRxRun_eq_next (h : execRxRun s = .next t) :
    ∃ w r, (w = s ∨ runReceive s = .next w) ∧ (t = w ∨ t = w.withResult r) := by
  obtain ⟨_, h⟩ := whenIdle_eq_next.mp h
  split at h
  · obtain ⟨w, hw, h⟩ := andThen_eq_next.mp h
    unfold reportReceive at h
    split at h
    · cases h; exact ⟨_, .none, .inr hw, .inl rfl⟩
    · cases h; exact ⟨w, _, .inr hw, .inr rfl⟩
  · cases h; exact ⟨s, _, .inl rfl, .inr rfl⟩

/-! ### Which registers the parts of an operation change -/

/-- The decoder's arm writes the record, the cursor, the stage and the step count (R160 to R164). -/
theorem getValuesOp_changes {r : OutcomeCode × State} (h : getValuesOp s = .next r) :
    r.2 = { s with T := r.2.T, cur := r.2.cur, stage := r.2.stage, decStep := r.2.decStep } := by
  rcases getValuesOp_eq_next h with ⟨_, rfl⟩ | ⟨_, w, hw, _, rfl⟩
  · rfl
  · rw [runSteps_frame _ hw]; rfl

theorem decodeOp_changes {r : OutcomeCode × State} (h : decodeOp s = .next r) :
    r.2 = { s with T := r.2.T, cur := r.2.cur, stage := r.2.stage, decStep := r.2.decStep } := by
  rcases decodeOp_eq_next h with ⟨_, rfl⟩ | h
  · rfl
  · exact getValuesOp_changes h

/-- A stretch of a receive writes the receiver and the environment. -/
theorem Stretch.frame {used : List (List Outside)} {bs : List Byte} (h : Stretch s t used bs) :
    t = { s with rx := t.rx, env := t.env } := by
  have hcore := h.core
  rw [absorb_core] at hcore
  rw [hcore]; rfl

/-- RX.POLL without a reset writes the receiver and the environment, and sends nothing (R121). -/
theorem pollOp_frame (hs : noReset s) (ha : s.rx.state = .accumulating) :
    pollOp s = { s with rx := (pollOp s).rx, env := (pollOp s).env } ∧ (pollOp s).env.txLog = s.env.txLog := by
  by_cases hd : (interleave s).env.now < s.rx.deadline
  · obtain ⟨used, bs, hst, _⟩ := pollOp_drains hs ha hd
    exact ⟨hst.frame, hst.log⟩
  · obtain ⟨used, hst, _⟩ := Stretch.point hs.quiet
    rw [pollOp_late hs.quiet ha (Nat.not_lt.mp hd)]
    refine ⟨?_, hst.log⟩
    rw [hst.frame]; rfl

/-- What follows the receive of a REFRESH with an outcome: the sequencer is Idle again, and the receiver, the environment, the transmit
count, `crc`, `bound` and the parameters are as they were (R172, R195, R196). -/
def Settled (s t : State) : Prop :=
  t = { s with
    connected := t.connected, T := t.T, val := t.val, cur := t.cur, decStep := t.decStep, stage := t.stage, seqState := .idle,
    outcome := t.outcome, result := t.result }

theorem failRefresh_settled (via : SeqState) (code : OutcomeCode) (s : State) : Settled s (failRefresh via code s) := rfl

theorem refreshDecode_settled (h : refreshDecode s = .next t) : Settled s t := by
  obtain ⟨r, hr, h⟩ := andThen_eq_next.mp h
  have hframe := decodeOp_changes hr
  split at h <;> (cases h; rw [hframe]; rfl)

theorem refreshCheck_settled (h : refreshCheck s = .next t) : Settled s t := by
  obtain ⟨w, hw, h⟩ := andThen_eq_next.mp h
  have hframe := validateRx_frame hw
  split at h
  · have hsettled := refreshDecode_settled h
    rw [hframe] at hsettled
    exact hsettled
  · cases h; rw [hframe]; rfl

/-- REFRESH after its receive: nothing where a reset has cut it, else an outcome (R172, R210). -/
theorem refreshReceived_cases (h : refreshReceived s = .next t) :
    (t = s ∧ (s.rx.state = .idle ∨ s.rx.state = .accumulating)) ∨ Settled s t := by
  unfold refreshReceived at h
  split at h <;> rename_i hstate
  · cases h; exact .inr (failRefresh_settled _ _ s)
  · cases h; exact .inr (failRefresh_settled _ _ s)
  · exact .inr (refreshCheck_settled h)
  · cases h; exact .inl ⟨rfl, .inl hstate⟩
  · cases h; exact .inl ⟨rfl, .inr hstate⟩

/-- REFRESH is one transmission, then the receive and what follows it, or, unbound, an outcome at once (R172, R174). -/
theorem execRefresh_eq_next (h : execRefresh s = .next t) :
    s.seqState = .idle ∧ ∃ w, w = transmit (shortFrame [s.params.opcGetValues]) (s.withSeq .sent) ∧
      ((w.bound = true ∧ ∃ v, runReceive w = .next v ∧ refreshReceived v = .next t) ∨
       (w.bound = false ∧ t = failRefresh .timedOut .unbound w)) := by
  obtain ⟨hidle, h⟩ := whenIdle_eq_next.mp h
  rw [encodeOp_request, andThen_next] at h
  refine ⟨hidle, _, rfl, ?_⟩
  unfold refreshSent at h
  split at h
  · rename_i hb
    exact .inl ⟨hb, andThen_eq_next.mp h⟩
  · rename_i hb
    cases h; exact .inr ⟨by simpa using hb, rfl⟩

/-- The registers that REFRESH leaves (R172, R177). -/
theorem execRefresh_keeps (hs : noReset s) (h : execRefresh s = .next t) :
    t.params = s.params ∧ t.crc = s.crc ∧ t.bound = s.bound ∧ t.seqState = s.seqState := by
  obtain ⟨hidle, w, hw, h⟩ := execRefresh_eq_next h
  obtain ⟨e, n, htransmit, _, _, _, hscript, _⟩ := transmit_cases (shortFrame [s.params.opcGetValues]) (s.withSeq .sent)
  rw [htransmit] at hw
  rw [hidle]
  rcases h with ⟨hb, v, hv, ht⟩ | ⟨_, rfl⟩
  · have hs' : noReset w := by rw [hw]; intro batch hbatch; exact hs batch (by simpa [hscript] using hbatch)
    obtain ⟨hframe, _, hended⟩ := runReceive_frame hb hs' hv
    rcases refreshReceived_cases ht with ⟨_, hcut⟩ | hsettled
    · rcases hended with e | e | e <;> (rw [e] at hcut; simp at hcut)
    · rw [hsettled, hframe, hw]
      exact ⟨rfl, rfl, rfl, rfl⟩
  · rw [hw]; exact ⟨rfl, rfl, rfl, rfl⟩

/-- The result aside, RX.START and RX.RUN without a reset write the receiver, the environment and the validation flag (R120, R127). -/
theorem execRxRun_same (hs : noReset s) (h : execRxRun s = .next t) : Same s t := by
  obtain ⟨w, r, hw, ht⟩ := execRxRun_eq_next h
  have hsame : Same s w := by
    rcases hw with rfl | hw
    · exact Same.refl hs
    · exact (same_keeps s).runReceive (Same.refl hs) hw
  rcases ht with rfl | rfl
  · exact hsame
  · obtain ⟨hquiet, hframe, hlog⟩ := hsame
    exact ⟨hquiet, by rw [hframe]; rfl, hlog⟩

theorem execRxStart_same (hs : noReset s) (h : execRxStart s = .next t) : Same s t := by
  obtain ⟨_, h⟩ := whenIdle_eq_next.mp h
  obtain ⟨hquiet, hframe, hlog⟩ := (same_keeps s).rxStartOp (Same.refl hs)
  cases h
  exact ⟨hquiet, by rw [hframe]; rfl, hlog⟩

/-- VALIDATE.X writes the validator, the count of draws and the result (R141, log entry 14). -/
theorem execValidateX_eq_next {f : List Byte} {n : Nat} (h : execValidateX f n s = .next t) :
    t = { s with
      val := (validateOp (frameBytes f n s) n s).val, env := { s.env with draws := t.env.draws }, result := t.result } := by
  obtain ⟨d, e⟩ := execValidateX_idle (whenIdle_eq_next.mp h).1 f n
  cases e.symm.trans h
  rw [validateOp_frame]; rfl

/-! ### Who writes what -/

/-- Settles O57, operation by operation: what an operation can do when it answers says which registers it changes. -/
theorem eachRegisterHasItsWriters : Obligations.EachRegisterHasItsWriters := by
  unfold Obligations.EachRegisterHasItsWriters
  intro i s t hs h
  cases i with
  | bind | crcClr | crcByte | crc16 => cases (whenIdle_eq_next.mp h).2; simp [Instr.format]
  | refresh =>
    obtain ⟨hparams, hcrc, hbound, hseq⟩ := execRefresh_keeps hs h
    simp [hparams, hcrc, hbound, hseq]
  | encode p | encShort p | encLong p =>
    obtain ⟨f, rfl⟩ := exec_encoder_eq_next (p := p) (by simp) h
    obtain ⟨e, n, ht, _, hfifo, hnow, _⟩ := transmit_cases f s
    simp [ht, hfifo, hnow]
  | rxStart =>
    obtain ⟨_, hframe, hlog⟩ := execRxStart_same hs h
    rw [hframe]; simp [hlog]
  | rxRun =>
    obtain ⟨_, hframe, hlog⟩ := execRxRun_same hs h
    rw [hframe]; simp [hlog]
  | rxPoll =>
    obtain ⟨ha, rfl⟩ := execRxPoll_eq_next h
    obtain ⟨hframe, hlog⟩ := pollOp_frame hs ha
    rw [hframe]; simp [hlog]
  | rxByte =>
    obtain ⟨ha, hwaiting, rfl⟩ := execRxByte_eq_next h
    obtain ⟨b, q, hq⟩ := List.exists_cons_of_ne_nil hwaiting
    have hst := Stretch.rxByte hs.quiet hq ha
    rw [hst.frame]; simp [hst.log]
  | validate => rw [validateRx_frame (whenIdle_eq_next.mp h).2]; simp
  | validateX => rw [execValidateX_eq_next h]; simp
  | rdS16q | rdS32q | rdS32 | rdU8 => obtain ⟨_, _, rfl⟩ := readCommand_eq_next h; simp
  | curSet => obtain ⟨_, rfl⟩ := execCurSet_eq_next h; simp
  | decode =>
    obtain ⟨r, hr, rfl⟩ := execDecode_eq_next h
    rw [decodeOp_changes hr]; simp
  | getValues =>
    obtain ⟨r, hr, rfl⟩ := execGetValues_eq_next h
    rw [getValuesOp_changes hr]; simp
  | gvTemperatureFet | gvTemperatureMotor | gvAvgMotorCurrent | gvAvgInputCurrent | gvAvgId | gvAvgIq | gvDuty | gvErpm
  | gvBatteryVoltage | gvAmpHoursUsed | gvAmpHoursCharged | gvWattHoursUsed | gvWattHoursCharged | gvTachometer
  | gvTachometerAbs | gvFaultCode | gvPidPosition | gvControllerId =>
    obtain ⟨w, hw, rfl⟩ := gvAlone_eq_next h
    obtain ⟨_, _, bs, _, rfl⟩ := gvStep_eq_next hw
    simp [Instr.format]

/-! ### What the buffers hold afterwards -/

/-- After the validation of a frame of `n` bytes `pay_buf` holds its payload below `pay_len` and is unchanged above (R141, R142). -/
theorem validateOp_read {f : List Byte} {n : Nat} (s : State) (hf : f.length = n) (a : Nat) :
    Mem.read (validateOp f n s).val.buf a =
      if a < (validateOp f n s).val.len then f[a + 2]? else Mem.read s.val.buf a := by
  unfold validateOp
  split
  · rename_i hok
    have h5 := ((frameOk_iff _ _).mp hok).1
    change Mem.read (Mem.writeBytes s.val.buf 0 ((f.drop 2).take (n - 5))) a = if a < n - 5 then _ else _
    rw [Mem.read_writeBytes]
    have hlen : ((f.drop 2).take (n - 5)).length = n - 5 := by rw [List.length_take, List.length_drop]; omega
    by_cases ha : a < n - 5
    · rw [if_pos (by omega), if_pos ha, List.getElem?_take, if_pos (by omega), List.getElem?_drop]
      congr 1; omega
    · rw [if_neg (by omega), if_neg ha]
  · rfl

/-- The payload of a frame ends before its trailer. -/
theorem validateOp_len_le (f : List Byte) (n : Nat) (s : State) : (validateOp f n s).val.len ≤ n - 5 := by
  unfold validateOp
  split
  · exact Nat.le_refl _
  · exact Nat.zero_le _

/-- The frame of VALIDATE.X agrees with its sequence wherever both have a byte. -/
theorem frameBytes_getElem? {f : List Byte} {n : Nat} (s : State) {a : Nat} (hf : a < f.length) (hn : a < n) :
    (frameBytes f n s)[a]? = f[a]? := by
  have h := congrArg (·[a]?) (frameBytes_take f n s)
  simpa [List.getElem?_take, hf, hn] using h

/-- RX.BYTE stores the byte at `rx_cnt` and leaves the validator (R122, R123). -/
theorem rxByteOp_read {b : Byte} {q : List Byte} (hs : quietPoint s) (hq : s.env.rxFifo = b :: q)
    (ha : s.rx.state = .accumulating) :
    (rxByteOp s).val = s.val ∧ ∀ a, Mem.read (rxByteOp s).rx.buf a = if a = s.rx.cnt then some b else Mem.read s.rx.buf a := by
  have hst := Stretch.rxByte hs hq ha
  rw [hst.core]
  refine ⟨rfl, fun a => ?_⟩
  simp [Mem.read_write, eq_comm]

/-- Settles O35. VALIDATE.X by `validateOp_read`, RX.BYTE by `rxByteOp_read`; the other operations leave `pay_buf` by O57. -/
theorem buffersChangeOnlyWhereStored : Obligations.BuffersChangeOnlyWhereStored := by
  unfold Obligations.BuffersChangeOnlyWhereStored
  refine ⟨fun s t f n h => ?_, fun s t b q hs hq h => ?_, fun i s t hs h hrefresh hvalidate hvalidateX => ?_⟩
  · have ht := execValidateX_eq_next h
    have hread := validateOp_read s (frameBytes_length f n s)
    have hlen := validateOp_len_le (frameBytes f n s) n s
    rw [ht]
    refine ⟨rfl, fun hf a ha => ?_, fun a ha => ?_, fun a ha => ?_⟩
    · rw [hread, if_pos ha]
      subst hf; rw [frameBytes_exact]
    · have ha' : a + 2 < (frameBytes f n s).length := by rw [frameBytes_length]; simp only at ha; omega
      refine ⟨_, by rw [hread, if_pos ha, List.getElem?_eq_getElem ha'], fun hf => ?_⟩
      rw [← List.getElem?_eq_getElem ha', frameBytes_getElem? s hf (by simpa using ha')]
    · rw [hread, if_neg (Nat.not_lt.mpr ha)]
  · obtain ⟨ha, _, rfl⟩ := execRxByte_eq_next h
    exact rxByteOp_read hs hq ha
  · obtain ⟨_, _, _, _, _, _, _, _, hval, _⟩ := eachRegisterHasItsWriters i s t hs h
    obtain ⟨hbuf, hlen, _⟩ := hval hrefresh hvalidate hvalidateX
    exact ⟨hbuf, hlen⟩

end Sys2Proof.Machine
end

section
/-! SUPPORT. A step and its cases: O3. -/

namespace Sys2Proof.Machine

/-- Settles O3. The cases are those of `fetch`. -/
theorem stepRunsDecodedOperation : Obligations.StepRunsDecodedOperation := by
  unfold Obligations.StepRunsDecodedOperation
  intro s
  unfold step fetch
  refine ⟨fun hport => ?_, fun hport i rest hdecode => ?_, fun hport e hdecode => ?_⟩
  · rw [if_pos hport]
  · rw [if_neg hport, hdecode]; rfl
  · rw [if_neg hport, hdecode]

/-- All that a step can be: it waits, it refuses, or it executes an operation with its bytes taken (R10, R57, R80). -/
theorem step_cases (s : State) :
    step s = .next (interleave s) ∨ (∃ r, step s = .refused r) ∨
      ∃ i rest, step s = exec i (taken (interleave s) rest) := by
  obtain ⟨hwait, hissue, hreject⟩ := stepRunsDecodedOperation s
  by_cases hport : (interleave s).port = []
  · exact .inl (hwait hport)
  · cases hdecode : decode (interleave s).params.opcGetValues (interleave s).sel (interleave s).port with
    | ok a => exact .inr (.inr ⟨a.1, a.2, hissue hport a.1 a.2 hdecode⟩)
    | error e => exact .inr (.inl ⟨_, hreject hport e hdecode⟩)

end Sys2Proof.Machine
end

section
/-! SUPPORT. Every step keeps the invariant and reads no unspecified byte: O2, O59. -/

namespace Sys2Proof.Machine

variable {s t : State}

/-! ### Safety of a part of an operation -/

/-- A part of an operation stops with no fault but the receive that never ends, and what it answers has `P`. -/
def Ends {α : Type} (P : α → Prop) : Res α → Prop
  | .next a => P a
  | .fault f => f = .neverEnds
  | .refused _ => True

/-- For a whole operation that is `Safe`. -/
theorem safe_of_ends {x : Res State} (h : Ends Inv x) : Safe x := by cases x <;> exact h

theorem Ends.of {α : Type} {P : α → Prop} {x : Res α} (hnext : ∀ a, x = .next a → P a)
    (hfault : ∀ f, x = .fault f → f = .neverEnds) : Ends P x := by
  cases x with
  | next a => exact hnext a rfl
  | fault f => exact hfault f rfl
  | refused r => trivial

/-- A part that never faults. -/
theorem Ends.of_ne_fault {α : Type} {P : α → Prop} {x : Res α} (hfault : ∀ f, x ≠ .fault f)
    (hnext : ∀ a, x = .next a → P a) : Ends P x :=
  .of hnext fun f e => absurd e (hfault f)

theorem Ends.andThen {α β : Type} {P : α → Prop} {Q : β → Prop} {x : Res α} {k : α → Res β} (hx : Ends P x)
    (hk : ∀ a, P a → Ends Q (k a)) : Ends Q (andThen x k) := by
  cases x with
  | next a => exact hk a hx
  | fault f => exact hx
  | refused r => trivial

theorem Ends.whenIdle {P : State → Prop} {k : Res State} (h : Ends P k) : Ends P (whenIdle s k) := by
  unfold Machine.whenIdle
  split
  · exact h
  · trivial

/-! ### The invariant of the parts -/

theorem Inv.done (h : Inv s) (r : Result) : Ends Inv (done r s) := (h.steady.withResult r).inv h.seqIdle

/-- The receiver's moves keep the whole invariant, resets included. -/
theorem inv_keeps : ReceiveKeeps Inv where
  point := Inv.interleave
  read h ha := (steady_keeps.read h.steady ha).inv (seqIdle_keeps.read h.seqIdle ha)
  late h ha := (steady_keeps.late h.steady ha).inv h.seqIdle
  start h hb := (steady_keeps.start h.steady hb).inv h.seqIdle

/-- A receive keeps what the receiver's moves keep, and faults only by never ending (R185, U15). -/
theorem ReceiveKeeps.ends {P : State → Prop} (k : ReceiveKeeps P) (h : P s) : Ends P (Machine.runReceive s) :=
  .of (fun _ e => k.runReceive h e) (fun _ e => (runReceive_eq_fault e).1)

theorem Inv.withCrc (h : Inv s) (c : Word16) : Inv { s with crc := c } := (h.steady.withCrc c).inv h.seqIdle

theorem Inv.readCommand (h : Inv s) (op : FieldOp) : Ends Inv (readCommand op s) := by
  refine .whenIdle (.andThen (P := fun r => Inv r.2) (.of_ne_fault (h.steady.readField_ne_fault op) fun r e => ?_)
    fun r hr => hr.done _)
  obtain ⟨bs, _, hlen, rfl⟩ := readField_eq_next e
  exact (h.steady.withCur hlen).inv h.seqIdle

theorem Inv.getValuesOp (h : Inv s) : Ends (fun r => Inv r.2) (getValuesOp s) :=
  .of_ne_fault h.steady.getValuesOp_ne_fault fun r e =>
    (h.steady.getValuesOp e).inv (by rw [getValuesOp_changes e]; exact h.seqIdle)

theorem Inv.decodeOp (h : Inv s) : Ends (fun r => Inv r.2) (decodeOp s) :=
  .of_ne_fault h.steady.decodeOp_ne_fault fun r e =>
    (h.steady.decodeOp e).inv (by rw [decodeOp_changes e]; exact h.seqIdle)

theorem Inv.gvAlone (h : Inv s) (k : Fin 18) : Ends Inv (gvAlone k s) := by
  refine .andThen (P := Inv) (.of_ne_fault (h.steady.gvStep_ne_fault k) fun u e => (h.steady.gvStep e).inv ?_)
    fun u hu => hu.done _
  obtain ⟨_, _, bs, _, rfl⟩ := gvStep_eq_next e
  exact h.seqIdle

theorem Inv.validateRx (h : Inv s) : Ends Inv (validateRx s) :=
  .of_ne_fault h.steady.validateRx_ne_fault fun t e =>
    (h.steady.validateRx e).inv (by rw [validateRx_frame e]; exact h.seqIdle)

theorem Inv.transmit (h : Inv s) {f : List Byte} (hf : f.length ≤ 65541) : Inv (transmit f s) := by
  refine (h.steady.transmit hf).inv ?_
  obtain ⟨e, n, ht, _⟩ := transmit_cases f s
  rw [ht]; exact h.seqIdle

theorem Inv.encoder (h : Inv s) {i : Instr} {p : List Byte} (hi : i = .encode p ∨ i = .encShort p ∨ i = .encLong p) :
    Ends Inv (exec i s) := by
  rcases exec_encoder_cases hi s with ⟨_, e⟩ | ⟨f, hf, e⟩
  · rw [e]; trivial
  · rw [e]; exact h.transmit hf

theorem Inv.validateX (h : Inv s) (f : List Byte) (n : Nat) : Ends Inv (execValidateX f n s) := by
  obtain ⟨d, e⟩ := execValidateX_idle h.seqIdle f n
  rw [e]
  refine ((h.steady.validateOp (frameBytes_length f n s)).withEnv _ |>.withResult _).inv ?_
  rw [validateOp_frame]; exact h.seqIdle

theorem Inv.curSet (h : Inv s) (k : Nat) : Ends Inv (execCurSet k s) := by
  refine .whenIdle ?_
  split
  · trivial
  · rename_i hk
    exact ((h.steady.withCur (Nat.not_lt.mp hk)).inv h.seqIdle).done _

/-! ### REFRESH, in which the sequencer is not Idle -/

theorem Steady.refreshDecode (h : Steady s) : Ends Inv (refreshDecode s) := by
  refine .andThen (P := fun r => Steady r.2 ∧ (r.1 = .decoded → ∀ k : Fin 18, fits (gvOp k) r.2.T[k]))
    (.of_ne_fault h.decodeOp_ne_fault fun r e => ⟨h.decodeOp e, decodeOp_fits h e⟩) ?_
  rintro r ⟨hr, hfits⟩
  split
  · rename_i hd; exact succeedRefresh_inv hr (hfits hd)
  · rename_i hd; exact failRefresh_inv hr _ hd

theorem Steady.refreshCheck (h : Steady s) : Ends Inv (refreshCheck s) := by
  have hreceived := h.withSeq .received
  refine .andThen (P := Steady) (.of_ne_fault hreceived.validateRx_ne_fault fun t e => hreceived.validateRx e) ?_
  intro t ht
  split
  · exact ht.refreshDecode
  · exact failRefresh_inv ht _ (by simp)

/-- After the receive: an outcome, or, cut by a reset, the reset CORE, whose sequencer is Idle (R210). -/
theorem Steady.refreshReceived (h : Steady s) (hcut : CutIdle s) (hended : s.rx.state ≠ .accumulating) :
    Ends Inv (refreshReceived s) := by
  unfold Machine.refreshReceived
  split <;> rename_i hstate
  · exact failRefresh_inv h _ (by simp)
  · exact failRefresh_inv h _ (by simp)
  · exact h.refreshCheck
  · exact h.inv (hcut hstate)
  · exact absurd hstate hended

theorem Steady.refreshSent (h : Steady s) : Ends Inv (refreshSent s) := by
  unfold Machine.refreshSent
  split
  · rename_i hb
    refine .andThen (P := fun u => Steady u ∧ CutIdle u ∧ u.rx.state ≠ .accumulating)
      (.of (fun u e => ⟨steady_keeps.runReceive h e, runReceive_cutIdle hb e, (runReceive_eq_next e).2⟩)
        fun f e => (runReceive_eq_fault e).1) ?_
    rintro u ⟨hu, hcut, hended⟩
    exact hu.refreshReceived hcut hended
  · exact failRefresh_inv h _ (by simp)

theorem Inv.refresh (h : Inv s) : Ends Inv (execRefresh s) := by
  refine .whenIdle ?_
  rw [encodeOp_request]
  exact ((h.steady.withSeq .sent).transmit (by simp [shortFrame, frameTrailer])).refreshSent

/-- RX.RUN: the report of a receive only adds the result (R128). -/
theorem Inv.rxRun (h : Inv s) : Ends Inv (execRxRun s) := by
  refine .whenIdle ?_
  split
  · refine (inv_keeps.ends h).andThen fun u hu => ?_
    unfold reportReceive
    split
    · exact hu
    · exact hu.done _
  · exact h.done _

/-! ### Every operation, every step -/

theorem Inv.exec (h : Inv s) (i : Instr) : Ends Inv (exec i s) := by
  cases i with
  | bind => exact .whenIdle ((h.steady.bind.inv h.seqIdle).done _)
  | refresh => exact h.refresh
  | crcClr | crcByte | crc16 => exact .whenIdle ((h.withCrc _).done _)
  | encode p | encShort p | encLong p => exact h.encoder (p := p) (by simp)
  | rxStart => exact .whenIdle ((inv_keeps.rxStartOp h).done _)
  | rxPoll =>
    refine .whenIdle ?_
    split
    · exact (inv_keeps.pollOp h).done _
    · trivial
  | rxRun => exact h.rxRun
  | rxByte =>
    refine .whenIdle ?_
    split
    · exact (inv_keeps.rxByteOp h).done _
    · trivial
  | validate => exact .whenIdle h.validateRx
  | validateX f n => exact h.validateX f n
  | rdS16q | rdS32q | rdS32 | rdU8 => exact h.readCommand _
  | curSet k => exact h.curSet k
  | decode => exact .whenIdle (h.decodeOp.andThen fun r hr => hr.done _)
  | getValues =>
    change Ends Inv (execGetValues s)
    unfold execGetValues
    split
    · exact h.getValuesOp.andThen fun r hr => hr.done _
    · trivial
  | gvTemperatureFet | gvTemperatureMotor | gvAvgMotorCurrent | gvAvgInputCurrent | gvAvgId | gvAvgIq | gvDuty | gvErpm
  | gvBatteryVoltage | gvAmpHoursUsed | gvAmpHoursCharged | gvWattHoursUsed | gvWattHoursCharged | gvTachometer
  | gvTachometerAbs | gvFaultCode | gvPidPosition | gvControllerId => exact h.gvAlone _

/-- Settles O2. The state after reset is a reset state with enough receive buffer. -/
theorem resetMeetsInvariant : Obligations.ResetMeetsInvariant := by
  unfold Obligations.ResetMeetsInvariant
  exact coreReset_inv (s := State.reset) (by decide)

/-- Settles O59. The interleaving point keeps the invariant (`Inv.interleave`), and so does every operation (`Inv.exec`). -/
theorem stepKeepsInvariant : Obligations.StepKeepsInvariant := by
  unfold Obligations.StepKeepsInvariant
  intro s h
  have hpoint := h.interleave
  rcases step_cases s with e | ⟨r, e⟩ | ⟨i, rest, e⟩
  · rw [e]; exact hpoint
  · rw [e]; trivial
  · rw [e]; exact safe_of_ends (((hpoint.steady.taken rest).inv hpoint.seqIdle).exec i)

end Sys2Proof.Machine
end

section
/-! SUPPORT. The environment only moves forward, over every operation and step, resets included: O58. -/

namespace Sys2Proof.Machine

variable {s t u : State}

theorem Fwd.trans (h : Fwd s t) (k : Fwd t u) : Fwd s u := by
  obtain ⟨hlog, used₁, hscript₁, hnow₁, hfifo₁⟩ := h
  obtain ⟨klog, used₂, hscript₂, hnow₂, hfifo₂⟩ := k
  refine ⟨hlog.trans klog, used₁ ++ used₂, ?_, ?_, ?_⟩
  · rw [hscript₁, hscript₂, List.append_assoc]
  · rw [hnow₂, hnow₁, ticksOf_append, Nat.add_assoc]
  · rw [bytesOf_append, ← List.append_assoc]
    obtain ⟨front, hfront⟩ := hfifo₁
    exact hfifo₂.trans ⟨front, by rw [← List.append_assoc, hfront]⟩

/-- An operation that leaves the environment as it is. -/
theorem Fwd.of_env (e : t.env = s.env) : Fwd s t := (Fwd.refl s).env e

/-- Only the log, the script, the clock and the queue of the environment matter: a draw leaves them (log entry 14). -/
theorem Fwd.of_draws {d : Nat} (e : t.env = { s.env with draws := d }) : Fwd s t := by
  unfold Fwd; rw [e]; exact Fwd.refl s

theorem execRxRun_fwd (h : execRxRun s = .next t) : Fwd s t := by
  obtain ⟨w, r, hw, ht⟩ := execRxRun_eq_next h
  have hfwd : Fwd s w := by
    rcases hw with rfl | hw
    · exact Fwd.refl w
    · exact (fwd_keeps s).runReceive (Fwd.refl s) hw
  rcases ht with rfl | rfl
  · exact hfwd
  · exact hfwd

theorem refreshReceived_fwd (h : refreshReceived s = .next t) : Fwd s t := by
  rcases refreshReceived_cases h with ⟨rfl, _⟩ | hsettled
  · exact Fwd.refl t
  · exact Fwd.of_env (by rw [hsettled])

theorem execRefresh_fwd (h : execRefresh s = .next t) : Fwd s t := by
  obtain ⟨_, w, rfl, h⟩ := execRefresh_eq_next h
  have hsent := Fwd.transmit (Fwd.of_env (State.withSeq_env s .sent)) (shortFrame [s.params.opcGetValues])
  rcases h with ⟨_, v, hv, ht⟩ | ⟨_, rfl⟩
  · exact ((fwd_keeps s).runReceive hsent hv).trans (refreshReceived_fwd ht)
  · exact hsent

theorem exec_fwd {i : Instr} (h : exec i s = .next t) : Fwd s t := by
  cases i with
  | bind | crcClr | crcByte | crc16 => cases (whenIdle_eq_next.mp h).2; exact Fwd.refl s
  | refresh => exact execRefresh_fwd h
  | encode p | encShort p | encLong p =>
    obtain ⟨f, rfl⟩ := exec_encoder_eq_next (p := p) (by simp) h
    exact (Fwd.refl s).transmit f
  | rxStart => cases (whenIdle_eq_next.mp h).2; exact (fwd_keeps s).rxStartOp (Fwd.refl s)
  | rxPoll => obtain ⟨_, rfl⟩ := execRxPoll_eq_next h; exact (fwd_keeps s).pollOp (Fwd.refl s)
  | rxRun => exact execRxRun_fwd h
  | rxByte => obtain ⟨_, _, rfl⟩ := execRxByte_eq_next h; exact (fwd_keeps s).rxByteOp (Fwd.refl s)
  | validate => exact Fwd.of_env (by rw [validateRx_frame (whenIdle_eq_next.mp h).2])
  | validateX => exact Fwd.of_draws (by rw [execValidateX_eq_next h])
  | rdS16q | rdS32q | rdS32 | rdU8 => obtain ⟨_, _, rfl⟩ := readCommand_eq_next h; exact Fwd.refl s
  | curSet => obtain ⟨_, rfl⟩ := execCurSet_eq_next h; exact Fwd.refl s
  | decode =>
    obtain ⟨r, hr, rfl⟩ := execDecode_eq_next h
    exact Fwd.of_env (by rw [decodeOp_changes hr]; rfl)
  | getValues =>
    obtain ⟨r, hr, rfl⟩ := execGetValues_eq_next h
    exact Fwd.of_env (by rw [getValuesOp_changes hr]; rfl)
  | gvTemperatureFet | gvTemperatureMotor | gvAvgMotorCurrent | gvAvgInputCurrent | gvAvgId | gvAvgIq | gvDuty | gvErpm
  | gvBatteryVoltage | gvAmpHoursUsed | gvAmpHoursCharged | gvWattHoursUsed | gvWattHoursCharged | gvTachometer
  | gvTachometerAbs | gvFaultCode | gvPidPosition | gvControllerId =>
    obtain ⟨w, hw, rfl⟩ := gvAlone_eq_next h
    obtain ⟨_, _, bs, _, rfl⟩ := gvStep_eq_next hw
    exact Fwd.refl s

theorem step_fwd (h : step s = .next t) : Fwd s t := by
  have hpoint : Fwd s (interleave s) := (Fwd.refl s).point
  rcases step_cases s with e | ⟨r, e⟩ | ⟨i, rest, e⟩
  · cases e.symm.trans h; exact hpoint
  · cases e.symm.trans h
  · exact (hpoint.env (taken_env _ rest)).trans (exec_fwd (e.symm.trans h))

/-- Settles O58. A step moves the environment forward (`step_fwd`), so its clock by what the used batches tick. -/
theorem environmentOnlyMovesForward : Obligations.EnvironmentOnlyMovesForward := by
  unfold Obligations.EnvironmentOnlyMovesForward
  intro s t h
  obtain ⟨hlog, used, hscript, hnow, hfifo⟩ := step_fwd h
  exact ⟨hnow ▸ Nat.le_add_right _ _, hlog, used, hscript, hnow, hfifo⟩

end Sys2Proof.Machine
end

section
/-! SUPPORT. The rows of the schedule one after another are the decoder's run of steps, the results aside: O50. -/

namespace Sys2Proof.Machine

variable {s t : State}

/-- A read neither reads nor writes the last result. -/
theorem readField_withResult {op : FieldOp} {a : FieldValue × State} (r : Result) (h : readField op s = .next a) :
    readField op (s.withResult r) = .next (a.1, a.2.withResult r) := by
  rcases readField_cases op s with ⟨_, e⟩ | ⟨_, _, e⟩ | ⟨_, _, _, e⟩ | ⟨hz, hlen, bs, hbs, e⟩
  · rw [e] at h; cases h
  · rw [e] at h; cases h
  · rw [e] at h; cases h
  · rw [e] at h; cases h
    exact readField_next (s := s.withResult r) hz hlen hbs

/-- Nor does a schedule step. -/
theorem gvStep_withResult {k : Fin 18} (r : Result) (h : gvStep k s = .next t) :
    gvStep k (s.withResult r) = .next (t.withResult r) := by
  have hk : s.decStep = k.val := (gvStep_eq_next h).1
  unfold gvStep at h
  rw [if_pos hk] at h
  obtain ⟨a, ha, h⟩ := andThen_eq_next.mp h
  cases h
  rw [gvStep, if_pos (show (s.withResult r).decStep = k.val from hk), readField_withResult r ha]; rfl

/-- The row of a step index is that step on its own (R79, R162). -/
theorem exec_gvInstr {k : Fin 18} {i : Instr} (h : gvInstr k.val = some i) (s : State) : exec i s = gvAlone k s := by
  fin_cases k <;> (cases h; rfl)

/-- Rows one after another do what the run of their steps does, whatever the last result. -/
theorem runRows_of_runSteps {ks : List (Fin 18)} {is : List Instr} (hrows : List.Forall₂ (fun k i => gvInstr k.val = some i) ks is) :
    ∀ {s t : State}, runSteps ks s = .next t → ∀ r, ∃ r', runRows is (s.withResult r) = .next (t.withResult r') := by
  induction hrows with
  | nil => intro s t h r; cases h; exact ⟨r, rfl⟩
  | cons hrow _ ih =>
    intro s t h r
    obtain ⟨u, hu, h⟩ := andThen_eq_next.mp h
    obtain ⟨r', ht⟩ := ih h .none
    exact ⟨r', by rw [runRows, exec_gvInstr hrow, gvAlone, gvStep_withResult r hu]; exact ht⟩

/-- The schedule's rows are the rows of its steps, in order (R162). -/
theorem gvRows_eq : List.Forall₂ (fun k i => gvInstr k.val = some i) gvOrder gvRows := by
  simp [gvOrder, gvRows, gvInstr]

/-- Settles O50. Both sides are the schedule of `runSteps_payload`, whose stage is the record. -/
theorem rowByRowIsDecode : Obligations.RowByRowIsDecode := by
  unfold Obligations.RowByRowIsDecode
  intro s p hidle hok hlen hp h0
  have hpl : 59 ≤ p.length := by rw [((Mem.readBytes_eq_some _ _ _ _).mp hp).1]; exact hlen
  obtain ⟨r, hrun⟩ := runRows_of_runSteps gvRows_eq (runSteps_payload hlen hp) s.result
  refine ⟨_, hrun, rfl, rfl, ?_⟩
  obtain ⟨hdecode, _⟩ := decodeOp_record hok hlen hp h0
  change execDecode s = _
  rw [execDecode, whenIdle_idle hidle, hdecode, ← stagedTo_record s.stage hpl]
  rfl

end Sys2Proof.Machine
end

section
/-! SUPPORT. What a receive takes and how it ends: a poll below the deadline, and RX.RUN as a whole: O22, O24. -/

namespace Sys2Proof.Machine

variable {s t w : State} {used : List (List Outside)} {bs : List Byte}

/-! ### The registers after a stretch of a receive -/

/-- Bytes alone never time a receive out: only the clock sample of a poll does (R121, R131). -/
theorem absorb_rx_state_ne_timedOut (bs : List Byte) : ∀ {s : State}, s.rx.state ≠ .timedOut →
    (absorb bs s).rx.state ≠ .timedOut := by
  induction bs with
  | nil => exact id
  | cons b bs ih => exact fun h => ih (stateAfterByte_ne_timedOut h)

theorem Stretch.rx_eq_absorb (h : Stretch s t used bs) : t.rx = (absorb bs s).rx := by rw [h.core]; rfl

theorem Stretch.rx_eq_foldl (h : Stretch s t used bs) : t.rx = bs.foldl (receiveByte s.params.rxCap) s.rx :=
  h.rx_eq_absorb.trans (absorb_rx bs s h.live)

theorem Stretch.live_foldl (h : Stretch s t used bs) {k : Nat} (hk : k < bs.length) :
    ((bs.take k).foldl (receiveByte s.params.rxCap) s.rx).state = .accumulating := by
  rw [← absorb_rx_take h.live hk]; exact h.live k hk

theorem Stretch.state_ne_timedOut (h : Stretch s t used bs) (hs : s.rx.state ≠ .timedOut) : t.rx.state ≠ .timedOut := by
  rw [h.rx_eq_absorb]; exact absorb_rx_state_ne_timedOut bs hs

/-! ### A poll below the deadline -/

theorem exec_rxPoll_accumulating (hidle : s.seqState = .idle) (ha : s.rx.state = .accumulating) :
    exec .rxPoll s = .next ((pollOp s).withResult .none) := by
  change execRxPoll s = _
  rw [execRxPoll, whenIdle_idle hidle, if_pos ha, done]

/-- Settles O22: below the deadline a poll is one stretch, whose laws are the clauses. -/
theorem rxPollDrainsInOrder : Obligations.RxPollDrainsInOrder := by
  unfold Obligations.RxPollDrainsInOrder
  intro s hidle ha hs hd
  obtain ⟨used, bs, hst, hdrained⟩ := pollOp_drains hs ha hd
  have habsorb := hst.rx_eq_absorb
  refine ⟨(pollOp s).withResult .none, s.env.script.take 1 ++ used, bs, exec_rxPoll_accumulating hidle ha, hst.script, hst.queue,
    hst.clock, hst.log, hst.rx_eq_foldl, fun _ => hst.live_foldl, ?_, ?_, ?_, ?_, hdrained, ?_⟩
  · exact (congrArg Rx.buf habsorb).trans (absorb_rx_buf bs s)
  · exact (congrArg Rx.cnt habsorb).trans (absorb_rx_cnt bs s)
  · exact (congrArg Rx.deadline habsorb).trans (absorb_rx_deadline bs s)
  · exact hst.state_ne_timedOut (by simp [ha])
  · rw [hst.frame]; rfl

/-! ### The whole of RX.RUN -/

/-- The receiver's registers that RX.START leaves in a state whose next interleaving point holds no reset (R120). -/
def startedRx (s : State) : Rx :=
  { s.rx with
    state := .accumulating, cnt := 0, exp := none, len := 0,
    deadline := s.env.now + ticksOf (s.env.script.take 1) + s.params.timeoutMs }

theorem startReceive_interleave_rx (hs : quietPoint s) : (startReceive (interleave s)).rx = startedRx s := by
  obtain ⟨_, hpoint, rfl⟩ := Stretch.point hs
  rw [startedRx, ← hpoint.clock, interleave_quiet hs]; rfl

/-- The bytes and the batches a receive takes from its RX.START on: the clock sample's batch comes first. -/
theorem Stretch.env_from_start (hs : quietPoint s) (h : Stretch (startReceive (interleave s)) t used bs) :
    s.env.script = (s.env.script.take 1 ++ used) ++ t.env.script ∧
      s.env.rxFifo ++ bytesOf (s.env.script.take 1 ++ used) = bs ++ t.env.rxFifo ∧
      t.env.now = s.env.now + ticksOf (s.env.script.take 1 ++ used) := by
  obtain ⟨_, hpoint, rfl⟩ := Stretch.point hs
  refine ⟨?_, ?_, ?_⟩
  · rw [List.append_assoc, ← h.script]; exact hpoint.script
  · rw [bytesOf_append, ← List.append_assoc, hpoint.queue]; exact h.queue
  · rw [ticksOf_append, ← Nat.add_assoc, ← hpoint.clock]; exact h.clock

/-- How a receive that ends has ended: by its bytes, or, still in progress, by the deadline (R127, R130). -/
theorem runReceive_ends (hb : s.bound = true) (hs : noReset s) (h : runReceive s = .next w) :
    ∃ used bs u, Stretch (startReceive (interleave s)) u used bs ∧
      ((w = u ∧ u.rx.state ≠ .timedOut) ∨
       (w = u.withRxState .timedOut ∧ u.rx.state = .accumulating ∧ u.rx.deadline ≤ u.env.now)) := by
  obtain ⟨used, bs, u, hst, ⟨e, _⟩ | ⟨e, ha, hd⟩ | ⟨e, _⟩⟩ := runReceive_stretch hb hs
  · cases h.symm.trans e
    exact ⟨used, bs, w, hst, .inl ⟨rfl, hst.state_ne_timedOut (by simp)⟩⟩
  · cases h.symm.trans e
    exact ⟨used, bs, u, hst, .inr ⟨rfl, ha, hd⟩⟩
  · cases h.symm.trans e

/-- RX.RUN that no reset cuts is a receive and the report of its length (R127, R128). -/
theorem exec_rxRun_eq_next (hb : s.bound = true) (hs : noReset s) (h : exec .rxRun s = .next t) :
    ∃ w, runReceive s = .next w ∧ t = w.withResult (.length (if w.rx.state = .complete then w.rx.len else 0)) := by
  obtain ⟨_, h⟩ := whenIdle_eq_next.mp (show execRxRun s = .next t from h)
  rw [if_pos hb] at h
  obtain ⟨w, hw, h⟩ := andThen_eq_next.mp h
  have halive : w.rx.state ≠ .idle := by
    obtain ⟨_, _, e | e | e⟩ := runReceive_frame hb hs hw <;> simp [e]
  rw [reportReceive, if_neg halive] at h
  exact ⟨w, hw, (done_eq_next.mp h).symm⟩

/-- Settles O24: the receive's frame and rows are laws; what it takes is its stretch from RX.START, which only the deadline cuts. -/
theorem rxRunEndsInOneOfThreeStates : Obligations.RxRunEndsInOneOfThreeStates := by
  unfold Obligations.RxRunEndsInOneOfThreeStates
  intro s t hidle hb hs h
  obtain ⟨w, hw, rfl⟩ := exec_rxRun_eq_next hb hs h
  obtain ⟨hframe, hlog, hended⟩ := runReceive_frame hb hs hw
  obtain ⟨n, r, hrows⟩ := runReceive_rows hs hidle hw
  obtain ⟨used, bs, u, hst, hcut⟩ := runReceive_ends hb hs hw
  obtain ⟨hscript, hqueue, hclock⟩ := hst.env_from_start hs.quiet
  have hrx := hst.rx_eq_foldl
  have hlive := fun k => hst.live_foldl (k := k)
  rw [startReceive_interleave_rx hs.quiet, startReceive_params, interleave_params] at hrx hlive
  have henv : w.env = u.env := by obtain ⟨rfl, _⟩ | ⟨rfl, _⟩ := hcut <;> rfl
  refine ⟨hended, rfl, hlog, ?_, ⟨n, _, hrows, ?_⟩, ?_, s.env.script.take 1 ++ used, bs, ?_, ?_, ?_, hlive, ?_⟩
  · rw [hframe]; rfl
  · rw [hframe, ← hidle]; rfl
  · obtain ⟨rfl, hne⟩ | ⟨rfl, _, hd⟩ := hcut
    · exact fun hlate => absurd hlate hne
    · exact fun _ => hd
  · exact henv ▸ hscript
  · exact henv ▸ hqueue
  · exact henv ▸ hclock
  · rw [← List.take_length (l := bs)] at hrx
    obtain ⟨rfl, _⟩ | ⟨rfl, ha, _⟩ := hcut
    · exact .inl hrx
    · exact .inr ⟨(congrArg Rx.state hrx).symm.trans ha, congrArg (fun r : Rx => { r with state := .timedOut }) hrx⟩

end Sys2Proof.Machine
end

section
/-! SUPPORT. The decoder against the encoder, format by format: O6, O7; the codes that R80 does not assign: O5. -/

namespace Sys2Proof.Machine

variable {opc c code : Byte} {bs rest p : List Byte} {i j : Instr}

/-! ### Frames -/

/-- A byte that holds a length is the length modulo 256. -/
theorem byteOf_val (b : Byte) : byteOf b.toNat = b := by simp [byteOf]

theorem byteOf_toNat_of_lt {n : Nat} (h : n < 256) : (byteOf n).toNat = n := by simp [byteOf]; omega

/-- The two length bytes of a long frame are its payload's length (R72). -/
theorem beNat_length_bytes {n : Nat} (h : n < 65536) : beNat [byteOf (n / 256), byteOf n] = n := by
  simp [beNat, byteOf]; omega

theorem byteOf_beNat_two (a b : Byte) : byteOf (beNat [a, b] / 256) = a ∧ byteOf (beNat [a, b]) = b := by
  have ha := a.isLt
  have hb := b.isLt
  constructor <;> apply BitVec.eq_of_toNat_eq <;> simp [beNat, byteOf] <;> omega

/-- A frame's body is its payload, its trailer and what follows. -/
theorem takeBody_append (p rest : List Byte) : takeBody p.length (p ++ (frameTrailer p ++ rest)) = some (p, rest) :=
  takeBody_eq_some.mpr ⟨rfl, (List.append_assoc _ _ _).symm⟩

theorem decodeFrame_shortFrame (h : p.length ≤ 255) : decodeFrame (shortFrame p ++ rest) = .ok (.encShort p, rest) := by
  simp [shortFrame, decodeFrame, byteOf_toNat_of_lt (Nat.lt_succ_of_le h), takeBody_append]

theorem decodeFrame_longFrame (hshort : 255 < p.length) (hmax : p.length ≤ 65535) :
    decodeFrame (longFrame p ++ rest) = .ok (.encLong p, rest) := by
  simp [longFrame, decodeFrame, Config.markShort, Config.markLong, Config.shortMax, beNat_length_bytes (Nat.lt_succ_of_le hmax),
    Nat.not_le.mpr hshort, takeBody_append]

/-- Bytes that decode as a frame are of one of the two layouts, and what follows (R71, R72). -/
theorem decodeFrame_eq_ok (h : decodeFrame bs = .ok (i, rest)) :
    (∃ p, i = .encShort p ∧ bs = shortFrame p ++ rest) ∨ ∃ p, i = .encLong p ∧ bs = longFrame p ++ rest := by
  unfold decodeFrame at h
  split at h
  · rename_i m l body
    split at h
    · rename_i hm
      split at h
      · rename_i p r hp
        obtain ⟨hl, rfl⟩ := takeBody_eq_some.mp hp
        cases h
        exact .inl ⟨p, rfl, by simp [shortFrame, hm, hl, byteOf_val]⟩
      · cases h
    · split at h
      · rename_i hm
        split at h
        · rename_i l' body'
          split at h
          · cases h
          · split at h
            · rename_i p r hp
              obtain ⟨hl, rfl⟩ := takeBody_eq_some.mp hp
              cases h
              obtain ⟨hhi, hlo⟩ := byteOf_beNat_two l l'
              exact .inr ⟨p, rfl, by simp [longFrame, hm, hl, hhi, hlo]⟩
            · cases h
        · cases h
      · cases h
  · cases h

/-! ### The command port -/

/-- The decoder's branch for a code: what it decodes is a command whose bytes are the code and the operands read. -/
def ReadsBack (opc code : Byte) (bs : List Byte) (x : Except DecodeError (Instr × List Byte)) : Prop :=
  ∀ i rest, x = .ok (i, rest) → i.format = .cmd ∧ encode opc i ++ rest = code :: bs

theorem plainOp_readsBack (hfmt : i.format = .cmd) (henc : encode opc i = [c]) (hcode : code.toNat = c.toNat) :
    ReadsBack opc code bs (plainOp i bs) := by
  intro j rest h
  obtain ⟨rfl, rfl⟩ := plainOp_eq.mp h
  exact ⟨hfmt, by rw [henc, BitVec.eq_of_toNat_eq hcode]; rfl⟩

theorem byteOp_readsBack {mk : Byte → Instr} (hfmt : ∀ b, (mk b).format = .cmd) (henc : ∀ b, encode opc (mk b) = [c, b])
    (hcode : code.toNat = c.toNat) : ReadsBack opc code bs (byteOp mk bs) := by
  intro j rest h
  obtain ⟨b, rfl, rfl⟩ := byteOp_eq.mp h
  exact ⟨hfmt b, by rw [henc, BitVec.eq_of_toNat_eq hcode]; rfl⟩

theorem natOp_readsBack {mk : Nat → Instr} (hfmt : ∀ n, (mk n).format = .cmd) (henc : ∀ n, encode opc (mk n) = c :: be32Bytes n)
    (hcode : code.toNat = c.toNat) : ReadsBack opc code bs (natOp mk bs) := by
  intro j rest h
  obtain ⟨n, _, rfl, rfl⟩ := natOp_eq.mp h
  exact ⟨hfmt n, by rw [henc, BitVec.eq_of_toNat_eq hcode]; rfl⟩

theorem seqOp_readsBack {mk : List Byte → Instr} (hfmt : ∀ s, (mk s).format = .cmd)
    (henc : ∀ s, encode opc (mk s) = c :: seqBytes s) (hcode : code.toNat = c.toNat) :
    ReadsBack opc code bs (seqOp mk bs) := by
  intro j rest h
  obtain ⟨s, _, rfl, rfl⟩ := seqOp_eq.mp h
  exact ⟨hfmt s, by rw [henc, BitVec.eq_of_toNat_eq hcode]; rfl⟩

theorem validateXOp_readsBack (hcode : code.toNat = 0x41) : ReadsBack opc code bs (validateXOp bs) := by
  intro j rest h
  obtain ⟨n, f, _, _, rfl, rfl⟩ := validateXOp_eq.mp h
  exact ⟨rfl, by rw [BitVec.eq_of_toNat_eq (y := 0x41) hcode]; rfl⟩

theorem decodeCmd_readsBack (opc code : Byte) (bs : List Byte) : ReadsBack opc code bs (decodeCmd (code :: bs)) := by
  simp only [decodeCmd]
  split <;> rename_i hcode
  · exact plainOp_readsBack rfl rfl hcode
  · exact plainOp_readsBack rfl rfl hcode
  · exact plainOp_readsBack rfl rfl hcode
  · exact byteOp_readsBack (fun _ => rfl) (fun _ => rfl) hcode
  · exact seqOp_readsBack (fun _ => rfl) (fun _ => rfl) hcode
  · exact seqOp_readsBack (fun _ => rfl) (fun _ => rfl) hcode
  · exact plainOp_readsBack rfl rfl hcode
  · exact plainOp_readsBack rfl rfl hcode
  · exact plainOp_readsBack rfl rfl hcode
  · exact plainOp_readsBack rfl rfl hcode
  · exact plainOp_readsBack rfl rfl hcode
  · exact validateXOp_readsBack hcode
  · exact natOp_readsBack (fun _ => rfl) (fun _ => rfl) hcode
  · exact natOp_readsBack (fun _ => rfl) (fun _ => rfl) hcode
  · exact plainOp_readsBack rfl rfl hcode
  · exact plainOp_readsBack rfl rfl hcode
  · exact natOp_readsBack (fun _ => rfl) (fun _ => rfl) hcode
  · exact plainOp_readsBack rfl rfl hcode
  · intro i rest h; cases h

/-! ### The two round trips -/

/-- Settles O6. A command's operands are read back by the laws of their readers, a frame by its layout; a row without operands computes. -/
theorem decodeOfEncode : Obligations.DecodeOfEncode := by
  unfold Obligations.DecodeOfEncode
  intro opc i rest h
  cases i with
  | crc16 s | encode s =>
    have hlen : s.length ≤ 65535 := of_decide_eq_true h
    exact seqOp_eq.mpr ⟨s, by omega, rfl, rfl⟩
  | validateX f n =>
    obtain ⟨hlen, hn⟩ : f.length = n ∧ n < 2 ^ 32 := by simpa [Instr.wellFormed] using h
    exact validateXOp_eq.mpr ⟨n, f, hn, by omega, rfl, rfl⟩
  | rdS16q n | rdS32q n =>
    obtain ⟨_, hn⟩ : 1 ≤ n ∧ n < 2 ^ 32 := by simpa [Instr.wellFormed] using h
    exact natOp_eq.mpr ⟨n, hn, rfl, rfl⟩
  | curSet k =>
    have hk : k ≤ 255 := of_decide_eq_true h
    exact natOp_eq.mpr ⟨k, by omega, rfl, rfl⟩
  | encShort p => exact decodeFrame_shortFrame (of_decide_eq_true h)
  | encLong p =>
    obtain ⟨hshort, hmax⟩ : Config.shortMax < p.length ∧ p.length ≤ Config.encMax := by simpa [Instr.wellFormed] using h
    exact decodeFrame_longFrame hshort hmax
  | getValues => exact if_pos rfl
  | crcByte | bind | refresh | crcClr | rxStart | rxPoll | rxRun | rxByte | validate | rdS32 | rdU8 | decode => rfl
  | gvTemperatureFet | gvTemperatureMotor | gvAvgMotorCurrent | gvAvgInputCurrent | gvAvgId | gvAvgIq | gvDuty | gvErpm
  | gvBatteryVoltage | gvAmpHoursUsed | gvAmpHoursCharged | gvWattHoursUsed | gvWattHoursCharged | gvTachometer
  | gvTachometerAbs | gvFaultCode | gvPidPosition | gvControllerId => rfl

/-- Settles O7, format by format: `decodeCmd_readsBack`, `decodeFrame_eq_ok`, the one opcode, and `gvInstr_eq_some`. -/
theorem encodeOfDecode : Obligations.EncodeOfDecode := by
  unfold Obligations.EncodeOfDecode
  intro opc fmt bs rest i h
  cases fmt with
  | cmd =>
    cases bs with
    | nil => cases h
    | cons code bs => exact decodeCmd_readsBack opc code bs i rest h
  | frame =>
    rcases decodeFrame_eq_ok h with ⟨p, rfl, rfl⟩ | ⟨p, rfl, rfl⟩
    · exact ⟨rfl, rfl⟩
    · exact ⟨rfl, rfl⟩
  | payload =>
    simp only [decode, decodePayload] at h
    split at h
    · split at h
      · rename_i hopc; cases h; exact ⟨rfl, by rw [hopc]; rfl⟩
      · cases h
    · cases h
  | gvStep =>
    simp only [decode, decodeGv] at h
    split at h
    · split at h
      · rename_i hrow
        obtain ⟨_, hfmt, henc⟩ := gvInstr_eq_some _ _ hrow
        cases h
        exact ⟨hfmt, by rw [henc, byteOf_val]; rfl⟩
      · cases h
    · cases h

/-! ### Codes outside the table -/

/-- Each arm but the last is that of a code of the table. -/
theorem decodeCmd_unassigned (h : code ∉ ([0x01, 0x02, 0x10, 0x11, 0x12, 0x20, 0x30, 0x31, 0x32, 0x33, 0x40, 0x41, 0x50, 0x51,
    0x52, 0x53, 0x54, 0x60] : List Byte)) (rest : List Byte) : decodeCmd (code :: rest) = .error (.badCommand code) := by
  simp only [List.mem_cons, List.not_mem_nil, or_false, not_or, ← BitVec.toNat_inj] at h
  simp only [decodeCmd]
  split <;> simp_all

/-- Settles O5. The interleaving point leaves the port alone, so the step finds the code and refuses it (`decodeCmd_unassigned`). -/
theorem unassignedCodesAreBadCommands : Obligations.UnassignedCodesAreBadCommands := by
  unfold Obligations.UnassignedCodesAreBadCommands
  intro s code rest hsel hport hcode
  obtain ⟨_, _, hreject⟩ := stepRunsDecodedOperation s
  rw [interleave_port, interleave_sel, hport, hsel] at hreject
  exact hreject (by simp) _ (decodeCmd_unassigned hcode rest)

end Sys2Proof.Machine
end

section
/-! SUPPORT. The checksum of a sequence with its own checksum behind it: O11. -/

namespace Sys2Proof

theorem crc16_append_singleton (s : List Byte) (b : Byte) : crc16 (s ++ [b]) = crcByte (crc16 s) b := by
  simp [crc16]

/-- A register that takes its own high byte is left with its low byte, one byte up (R103). -/
theorem crcByte_own_highByte (c : Word16) : crcByte c (c.extractLsb' 8 8) = (c.extractLsb' 0 8).setWidth 16 <<< 8 := by
  have hclear : c ^^^ ((c.extractLsb' 8 8).setWidth 16 <<< 8) = (c.extractLsb' 0 8).setWidth 16 := by
    apply BitVec.eq_of_getLsbD_eq
    intro i hi
    by_cases h8 : i < 8
    · simp [h8, hi]
    · simp [h8, hi, show i - 8 < 8 by omega, show 8 + (i - 8) = i by omega]
  rw [crcByte, hclear, crcShifts_low]

/-- A register whose low byte is zero is cleared by its high byte (R103). -/
theorem crcByte_shiftLeft_self (b : Byte) : crcByte (b.setWidth 16 <<< 8) b = 0 := by
  rw [crcByte, BitVec.xor_self]; rfl

/-- Settles O11. The own checksum takes the register away byte by byte: `crcByte_own_highByte`, `crcByte_shiftLeft_self`. -/
theorem checksumCornerCases : Obligations.ChecksumCornerCases := by
  unfold Obligations.ChecksumCornerCases
  refine ⟨rfl, crc16_append_singleton, fun s => ⟨rfl, ?_⟩⟩
  calc crc16 (s ++ [(crc16 s).extractLsb' 8 8, (crc16 s).extractLsb' 0 8])
      = crcByte (crcByte (crc16 s) ((crc16 s).extractLsb' 8 8)) ((crc16 s).extractLsb' 0 8) := by simp [crc16]
    _ = 0 := by rw [crcByte_own_highByte, crcByte_shiftLeft_self]

end Sys2Proof
end

section
/-! SUPPORT. DECODE of a get-values payload and its table: O46, O49; words of the spec: O4. -/

namespace Sys2Proof.Machine

/-- Settles O46. DECODE's own steps are `decodeOp_record`; the arm GET_VALUES runs the same steps, and is selected. -/
theorem decodeCommitsTheRecord : Obligations.DecodeCommitsTheRecord := by
  unfold Obligations.DecodeCommitsTheRecord
  intro s p hidle hok hlen hp h0
  obtain ⟨hdecode, harm, hopc⟩ := decodeOp_record hok hlen hp h0
  have hpl : p.length = s.val.len := ((Mem.readBytes_eq_some _ _ _ _).mp hp).1
  refine ⟨?_, ?_, recordOf_take (by omega)⟩
  · change execDecode s = _
    rw [execDecode, whenIdle_idle hidle, hdecode]; rfl
  · change execGetValues s = _
    rw [execGetValues, if_pos ⟨hok, by omega, hopc⟩, harm, hdecode]; rfl

/-- Settles O49, by adding up the 18 widths. -/
theorem scheduleLayoutIsTheTable : Obligations.ScheduleLayoutIsTheTable := by
  unfold Obligations.ScheduleLayoutIsTheTable
  decide

/-- Settles O4, word by word: most are words of the decoder's tests. -/
theorem specWordsDecode : Obligations.SpecWordsDecode := by
  unfold Obligations.SpecWordsDecode
  exact ⟨Tests.test_decode_bind, Tests.test_decode_crcByte, by decide, Tests.test_decode_curSet, by decide,
    Tests.test_decode_getValues, Tests.test_decode_gvControllerId, Tests.test_decode_unassigned.2⟩

end Sys2Proof.Machine
end

section
/-! SUPPORT. How a REFRESH ends, by the state its receive leaves: O54. -/

namespace Sys2Proof.Machine

variable {s t v w : State}

@[simp] theorem bound_transmit (f : List Byte) (s : State) : (transmit f s).bound = s.bound := by
  unfold transmit; split <;> rfl

theorem noReset.transmit (h : noReset s) (f : List Byte) : noReset (transmit f s) :=
  fun batch hbatch => h batch ((transmit_keepsScript f s).2 ▸ hbatch)

/-! ### The receive of a REFRESH is that of RX.RUN -/

/-- ENCODE of the request and then RX.RUN receive what a REFRESH receives: the sequencer's state and the result aside (R83). -/
theorem refresh_receives_as_rxRun (hidle : s.seqState = .idle) (hb : s.bound = true) (hs : noReset s)
    (hv : runReceive (transmit (shortFrame [s.params.opcGetValues]) (s.withSeq .sent)) = .next v) :
    ∃ m r : State, exec (.encode [s.params.opcGetValues]) s = .next m ∧ exec .rxRun m = .next r ∧
      v.rx = r.rx ∧ v.env = r.env ∧ v.txCount = r.txCount := by
  set w := transmit (shortFrame [s.params.opcGetValues]) (s.withSeq .sent) with hw
  have hm : transmit (shortFrame [s.params.opcGetValues]) s = aside .idle w.result w := by
    rw [hw, transmit_bound hb, transmit_bound (s := s.withSeq .sent) hb, ← hidle]; rfl
  have hb' : w.bound = true := (bound_transmit _ _).trans hb
  have hs' : noReset w := noReset.transmit (s := s.withSeq .sent) hs _
  have halive : v.rx.state ≠ .idle := by
    obtain ⟨_, _, e | e | e⟩ := runReceive_frame hb' hs' hv <;> simp [e]
  refine ⟨aside .idle w.result w, (aside .idle w.result v).withResult (.length (reportedLength v.rx)), ?_, ?_, rfl, rfl, rfl⟩
  · change execEncode _ s = _
    rw [execEncode, whenIdle_idle hidle, ← hm]
    simp [encodeOp, Config.encMax, frameOf, Config.shortMax]
  · change execRxRun _ = _
    rw [execRxRun, whenIdle_idle (aside_seqState _ _ _), aside_bound, if_pos hb', runReceive_aside hs' hv, andThen_next,
      reportReceive, aside_rx, if_neg halive]
    rfl

/-- The state a REFRESH's receive leaves: the request is sent, the receiver has ended, the validation flag is cleared (R172). -/
theorem refresh_received_frame (hb : s.bound = true) (hs : noReset s)
    (hv : runReceive (transmit (shortFrame [s.params.opcGetValues]) (s.withSeq .sent)) = .next v) :
    ∃ rx env n r, v = { s with
      rx := rx, env := env, txCount := n, val := { s.val with ok := false }, seqState := .sent, result := r } ∧
      env.txLog = s.env.txLog ++ [shortFrame [s.params.opcGetValues]] ∧
      (rx.state = .complete ∨ rx.state = .timedOut ∨ rx.state = .overflowed) := by
  have hs' := noReset.transmit (s := s.withSeq .sent) hs (shortFrame [s.params.opcGetValues])
  obtain ⟨hframe, hlog, hended⟩ := runReceive_frame (by simpa using hb) hs' hv
  rw [transmit_bound (s := s.withSeq .sent) hb] at hframe hlog
  exact ⟨v.rx, v.env, _, _, hframe, by rw [hlog]; simp, hended⟩

/-! ### After the receive -/

/-- Validation depends on the payload buffer and the two checksums only, not on the flag that it writes (R141). -/
theorem validateOp_val_of_clearOk (f : List Byte) (n : Nat) (hval : { v.val with ok := false } = { s.val with ok := false }) :
    (validateOp f n v).val = (validateOp f n s).val := by
  obtain ⟨hbuf, _, hrx, hcalc, _⟩ := Val.mk.inj hval
  unfold validateOp
  split
  · simp [checkFrame, hbuf]
  · simp [rejectFrame, hbuf, hrx, hcalc]

/-- The outcome of a validated payload (R160, R161, R164). -/
def payloadOutcome (opc : Byte) (p : List Byte) : OutcomeCode :=
  if p[0]? ≠ some opc then .unsupportedOpcode else if p.length < 59 then .shortPayload else .decoded

/-- A failed decoding is one of two (R161, R164). -/
theorem payloadOutcome_cases (opc : Byte) (p : List Byte) :
    payloadOutcome opc p = .unsupportedOpcode ∨ payloadOutcome opc p = .shortPayload ∨ payloadOutcome opc p = .decoded := by
  unfold payloadOutcome; split_ifs <;> simp

/-- The end of a REFRESH on a validated payload: the record and DECODED, or another outcome and nothing changed (R172). -/
def endOnPayload (p : List Byte) (w : State) : State :=
  if payloadOutcome w.params.opcGetValues p = .decoded then
    succeedRefresh { w with T := recordOf p, stage := recordOf p, cur := 59, decStep := 0 }
  else failRefresh .invalid (payloadOutcome w.params.opcGetValues p) w

theorem refreshDecode_payload {p : List Byte} (hok : w.val.ok = true) (hlen : w.val.len = p.length) (hp : payload w = some p) :
    refreshDecode w = .next (endOnPayload p w) := by
  rw [refreshDecode, decodeOp_payload hok hlen hp (out := payloadOutcome w.params.opcGetValues p) rfl, andThen_next, endOnPayload]
  split_ifs <;> rfl

theorem refreshReceived_timedOut (h : v.rx.state = .timedOut) :
    refreshReceived v = .next (failRefresh .timedOut .timeout v) := by
  rw [refreshReceived, h]

theorem refreshReceived_overflowed (h : v.rx.state = .overflowed) :
    refreshReceived v = .next (failRefresh .timedOut .overflow v) := by
  rw [refreshReceived, h]

theorem refreshReceived_complete (h : v.rx.state = .complete) : refreshReceived v = refreshCheck v := by
  rw [refreshReceived, h]

/-- REFRESH on a completed frame: the validation of it, then a mismatch, or the end on the validated payload (R172). -/
theorem refreshCheck_eq_next (h : refreshCheck v = .next t) :
    ∃ n f w, v.rx.exp = some n ∧ Mem.readBytes v.rx.buf 0 n = some f ∧ w.val = (validateOp f n v).val ∧
      w = { v with val := w.val, seqState := .received, result := w.result } ∧
      ((w.val.ok = false ∧ t = failRefresh .invalid .checksumMismatch w) ∨
       (w.val.ok = true ∧ ∃ p, payload w = some p ∧ t = endOnPayload p w)) := by
  obtain ⟨w, hw, h⟩ := andThen_eq_next.mp h
  have hframe := validateRx_frame hw
  obtain ⟨_, n, f, hexp, hf, rfl⟩ := validateRx_eq_next hw
  have hlen : f.length = n := ((Mem.readBytes_eq_some _ _ _ _).mp hf).1
  refine ⟨n, f, _, hexp, hf, ?_, hframe, ?_⟩
  · exact validateOp_val_of_clearOk f n rfl
  · split at h
    · rename_i hok
      obtain ⟨p, hp, hpl⟩ := validateOp_payload (v.withSeq .received) hlen hok
      have hend := refreshDecode_payload hok hpl hp
      cases hend.symm.trans h
      exact .inr ⟨hok, p, hp, rfl⟩
    · rename_i hok
      cases h; exact .inl ⟨by simpa using hok, rfl⟩

/-- The outcomes of a completed receive. -/
def completedOutcomes : List OutcomeCode := [.checksumMismatch, .unsupportedOpcode, .shortPayload, .decoded]

theorem ne_of_mem_completedOutcomes {c : OutcomeCode} (h : c ∈ completedOutcomes) :
    c ≠ .none ∧ c ≠ .malformed ∧ c ≠ .unbound ∧ c ≠ .timeout ∧ c ≠ .overflow := by
  revert h; cases c <;> decide

/-- From the state `v` of a completed receive REFRESH ends in `t`: with an outcome of its own, the flag and the result that go with it,
and, unless DECODED, the record and the work registers untouched (R172, R173, R187). -/
structure CompletedEnd (v t : State) : Prop where
  outcome : t.outcome ∈ completedOutcomes
  flag : t.connected = true ↔ t.outcome = .decoded
  result : t.result = .record t.connected t.T
  record : t.outcome ≠ .decoded → t.T = v.T
  work : t.outcome ≠ .decoded → t.cur = v.cur ∧ t.stage = v.stage ∧ t.decStep = v.decStep

theorem failRefresh_completedEnd {code : OutcomeCode} (via : SeqState) (w : State) (hmem : code ∈ completedOutcomes)
    (hd : code ≠ .decoded) : CompletedEnd w (failRefresh via code w) where
  outcome := hmem
  flag := by simpa using hd
  result := rfl
  record _ := rfl
  work _ := ⟨rfl, rfl, rfl⟩

theorem succeedRefresh_completedEnd (v w : State) : CompletedEnd v (succeedRefresh w) where
  outcome := by simp [completedOutcomes]
  flag := by simp
  result := rfl
  record h := absurd rfl h
  work h := absurd rfl h

theorem endOnPayload_completedEnd (p : List Byte) (w : State) : CompletedEnd w (endOnPayload p w) := by
  unfold endOnPayload
  split
  · exact succeedRefresh_completedEnd _ _
  · rename_i hd
    refine failRefresh_completedEnd _ w ?_ hd
    obtain e | e | e := payloadOutcome_cases w.params.opcGetValues p
    · simp [completedOutcomes, e]
    · simp [completedOutcomes, e]
    · exact absurd e hd

theorem refreshCheck_completedEnd (h : refreshCheck v = .next t) : CompletedEnd v t := by
  obtain ⟨_, _, w, _, _, _, hw, hend⟩ := refreshCheck_eq_next h
  have hwt : CompletedEnd w t := by
    obtain ⟨_, rfl⟩ | ⟨_, p, _, rfl⟩ := hend
    · exact failRefresh_completedEnd _ w (by simp [completedOutcomes]) (by simp)
    · exact endOnPayload_completedEnd p w
  rw [hw] at hwt
  exact { hwt with }

/-- A completed receive against VALIDATE.X and the payload: the validator is that of VALIDATE.X on the received frame, which settles the
outcome (R172, R175). -/
theorem refreshCheck_validates (hidle : s.seqState = .idle) (hval : { v.val with ok := false } = { s.val with ok := false })
    (h : refreshCheck v = .next t) : ∃ (n : Nat) (f : List Byte) (u : State),
      v.rx.exp = some n ∧ Mem.readBytes v.rx.buf 0 n = some f ∧ exec (.validateX f n) s = .next u ∧ t.val = u.val ∧
      (t.val.ok = false → t.outcome = .checksumMismatch) ∧
      (t.val.ok = true → ∃ p, payload t = some p ∧ t.outcome = payloadOutcome v.params.opcGetValues p ∧
        (t.outcome = .decoded → t.T = recordOf p ∧ t.stage = recordOf p ∧ t.cur = 59 ∧ t.decStep = 0)) := by
  obtain ⟨n, f, w, hexp, hf, hw, hframe, hend⟩ := refreshCheck_eq_next h
  have hlen : f.length = n := ((Mem.readBytes_eq_some _ _ _ _).mp hf).1
  refine ⟨n, f, _, hexp, hf, execValidateX_exact hidle hlen, ?_⟩
  have hu : w.val = (validateOp f n s).val := hw.trans (validateOp_val_of_clearOk f n hval)
  obtain ⟨hok, rfl⟩ | ⟨hok, p, hp, rfl⟩ := hend
  · exact ⟨hu, fun _ => rfl, fun hok' => absurd (hok'.symm.trans hok) (by simp)⟩
  · have hparams : w.params = v.params := by rw [hframe]
    unfold endOnPayload
    rw [hparams]
    split
    · rename_i hd
      exact ⟨hu, fun hok' => absurd (hok.symm.trans hok') (by simp), fun _ => ⟨p, hp, hd.symm, fun _ => ⟨rfl, rfl, rfl, rfl⟩⟩⟩
    · rename_i hd
      exact ⟨hu, fun hok' => absurd (hok.symm.trans hok') (by simp), fun _ => ⟨p, hp, rfl, fun e => absurd e hd⟩⟩

/-- Settles O54, by how the receive ended: a timeout and an overflow are failures at once, a completed receive is
`refreshCheck_completedEnd` and `refreshCheck_validates`; unbound nothing was received. -/
theorem refreshEndsAsItsOutcomeSays : Obligations.RefreshEndsAsItsOutcomeSays := by
  unfold Obligations.RefreshEndsAsItsOutcomeSays
  intro s t hidle hs h
  obtain ⟨_, w, rfl, ⟨hb, v, hv, ht⟩ | ⟨hb, rfl⟩⟩ := execRefresh_eq_next h
  · rw [bound_transmit, State.withSeq_bound] at hb
    have hrun := refresh_receives_as_rxRun hidle hb hs hv
    obtain ⟨rx, env, n, r, rfl, hlog, hrx | hrx | hrx⟩ := refresh_received_frame hb hs hv
    · rw [refreshReceived_complete hrx] at ht
      obtain ⟨hparams, hcrc, hbound, hseq⟩ := execRefresh_keeps hs h
      have hsettled := refreshCheck_settled ht
      have htrx : t.rx = rx := congrArg State.rx hsettled
      have htenv : t.env = env := congrArg State.env hsettled
      have htcount : t.txCount = n := congrArg State.txCount hsettled
      obtain ⟨hmem, hflag, hresult, hrecord, hwork⟩ := refreshCheck_completedEnd ht
      obtain ⟨hnone, hmalformed, hunbound, htimeout, hoverflow⟩ := ne_of_mem_completedOutcomes hmem
      have hvalidates := refreshCheck_validates hidle (by rfl) ht
      refine ⟨hseq.trans hidle, hflag, hresult, hrecord, hnone, hmalformed,
        iff_of_false hunbound (by simp [hb]), iff_of_false htimeout (by simp [htrx, hrx]),
        iff_of_false hoverflow (by simp [htrx, hrx]), iff_of_true hmem ⟨hb, htrx ▸ hrx⟩, hwork,
        fun e => absurd e hunbound, fun _ => ?_, fun e => absurd e (not_or.mpr ⟨htimeout, hoverflow⟩), fun _ _ => ?_,
        fun _ => htenv ▸ hlog, hcrc, hparams, hbound⟩
      · rw [htrx, htenv, htcount]; exact hrun
      · rw [htrx]; exact hvalidates
    · cases (refreshReceived_timedOut hrx).symm.trans ht
      simpa [hb, hrx, hlog] using hrun
    · cases (refreshReceived_overflowed hrx).symm.trans ht
      simpa [hb, hrx, hlog] using hrun
  · rw [bound_transmit, State.withSeq_bound] at hb
    rw [transmit_unbound (s := s.withSeq .sent) hb]
    simp [hb]

end Sys2Proof.Machine
end

section
/-! SUPPORT. The checksum engine: table lookup O9, bijectivity O10, linearity O13, the three commands O8. -/

namespace Sys2Proof

/-! ### The byte update as eight shifts and as a table lookup -/

/-- The bit tested is bit 15, and the polynomial is 0x1021 (R100, R102). -/
theorem crcShift_eq_ite (c : Word16) : crcShift c = if c.getLsbD 15 then (c <<< 1) ^^^ 0x1021 else c <<< 1 := rfl

theorem append_zeroByte (b : Byte) : (b ++ (0 : Byte) : Word16) = b.setWidth 16 <<< 8 := by
  apply BitVec.eq_of_getLsbD_eq
  intro i hi
  rw [BitVec.getLsbD_append]
  by_cases h8 : i < 8
  · simp [h8]
  · simp [h8, hi]

/-- Shifting up by a byte forgets the high byte. -/
theorem lowByte_shiftLeft (c : Word16) : (c.extractLsb' 0 8).setWidth 16 <<< 8 = c <<< 8 := by
  apply BitVec.eq_of_getLsbD_eq
  intro i hi
  by_cases h8 : i < 8
  · simp [h8]
  · simp [h8, hi, show i - 8 < 8 by omega, show i - 8 < 16 by omega]

/-- The table lookup of R104, by linearity: the byte is the register's own high byte, which leaves `c <<< 8`, exclusive-or the index. -/
theorem crcByte_eq_lookup (c : Word16) (b : Byte) : crcByte c b = (c <<< 8) ^^^ crcByte 0 (c.extractLsb' 8 8 ^^^ b) := by
  have hc : c ^^^ (0 : Word16) = c := BitVec.xor_zero
  have hb : c.extractLsb' 8 8 ^^^ (c.extractLsb' 8 8 ^^^ b) = b := by simp
  calc crcByte c b
      = crcByte (c ^^^ 0) (c.extractLsb' 8 8 ^^^ (c.extractLsb' 8 8 ^^^ b)) := by rw [hc, hb]
    _ = crcByte c (c.extractLsb' 8 8) ^^^ crcByte 0 (c.extractLsb' 8 8 ^^^ b) := crcByte_xor ..
    _ = (c <<< 8) ^^^ crcByte 0 (c.extractLsb' 8 8 ^^^ b) := by rw [crcByte_own_highByte, lowByte_shiftLeft]

/-- Settles O9. The statement's shift is `crcShift`, the lookup is `crcByte_eq_lookup`, and the printed entries are computed. -/
theorem byteUpdateIsTableLookup : Obligations.ByteUpdateIsTableLookup := by
  unfold Obligations.ByteUpdateIsTableLookup
  intro shift
  have hshift : shift = crcShift := funext fun c => (crcShift_eq_ite c).symm
  refine ⟨fun c b => ⟨?_, crcByte_eq_lookup c b⟩, by decide⟩
  rw [hshift, append_zeroByte]
  rfl

/-! ### Bijectivity and linearity -/

/-- Settles O10. There are finitely many register values, so an injective update of the register is a bijection. -/
theorem byteUpdateIsBijective : Obligations.ByteUpdateIsBijective := by
  unfold Obligations.ByteUpdateIsBijective
  exact ⟨fun b => Finite.injective_iff_bijective.mp (crcByte_injective_register b), crcByte_injective_byte⟩

/-- Linearity along two sequences of one length, from any two register values. -/
theorem crcByte_foldl_xor : ∀ (s t : List Byte) (c d : Word16), s.length = t.length →
    (List.zipWith (· ^^^ ·) s t).foldl crcByte (c ^^^ d) = s.foldl crcByte c ^^^ t.foldl crcByte d
  | [], [], _, _, _ => rfl
  | a :: s, b :: t, c, d, h => by
    simp only [List.zipWith_cons_cons, List.foldl_cons, crcByte_xor]
    exact crcByte_foldl_xor s t _ _ (Nat.succ.inj h)

/-- Settles O13: `crcByte_foldl_xor` from the initial value, which is its own exclusive-or with itself because it is 0. -/
theorem checksumIsLinear : Obligations.ChecksumIsLinear := by
  unfold Obligations.ChecksumIsLinear
  exact fun s t h => crcByte_foldl_xor s t Config.crcInit Config.crcInit h

/-! ### The three commands -/

/-- Settles O8. An Idle sequencer takes each command, and each arm is then one update of `crc` and one result. -/
theorem checksumCommandsWriteCrcOnly : Obligations.ChecksumCommandsWriteCrcOnly := by
  unfold Obligations.ChecksumCommandsWriteCrcOnly
  intro s hidle
  refine ⟨?_, fun b => ?_, fun p => ?_⟩
  · exact Machine.whenIdle_idle hidle _
  · exact Machine.whenIdle_idle hidle _
  · exact Machine.whenIdle_idle hidle _

end Sys2Proof
end

section
/-! SUPPORT. The frame encoder: the round trip with the validator O32, ENCODE bound O14 and unbound O15, its length domain O16, its two
arms O17. -/

namespace Sys2Proof

/-! ### The frame, written out (R110) -/

theorem hiByte_eq_extractLsb' (v : Word16) : hiByte v = v.extractLsb' 8 8 := rfl

theorem loByte_eq_extractLsb' (v : Word16) : loByte v = v.extractLsb' 0 8 := BitVec.setWidth_eq_extractLsb' (by decide)

theorem frameOf_short {p : List Byte} (h : p.length ≤ 255) : frameOf p = shortFrame p := if_pos h

theorem frameOf_long {p : List Byte} (h : 255 < p.length) : frameOf p = longFrame p := if_neg (Nat.not_le.mpr h)

theorem frameTrailer_eq (p : List Byte) :
    frameTrailer p = [(crc16 p).extractLsb' 8 8, (crc16 p).extractLsb' 0 8, 0x03] := by
  rw [frameTrailer, hiByte_eq_extractLsb', loByte_eq_extractLsb']; rfl

/-- A byte keeps a number modulo 256 only, so the low length byte may be written with or without the remainder. -/
theorem longFrame_eq (p : List Byte) : longFrame p =
    [0x03, BitVec.ofNat 8 (p.length / 256), BitVec.ofNat 8 (p.length % 256)] ++ p ++ frameTrailer p := by
  have hlow : BitVec.ofNat 8 (p.length % 256) = byteOf p.length := BitVec.eq_of_toNat_eq (by simp [byteOf])
  rw [hlow]; rfl

theorem frameOf_eq (p : List Byte) :
    let trailer := [(crc16 p).extractLsb' 8 8, (crc16 p).extractLsb' 0 8, (0x03 : Byte)]
    frameOf p = if p.length ≤ 255 then [0x02, BitVec.ofNat 8 p.length] ++ p ++ trailer
      else [0x03, BitVec.ofNat 8 (p.length / 256), BitVec.ofNat 8 (p.length % 256)] ++ p ++ trailer := by
  rw [← frameTrailer_eq]
  split
  · rename_i hshort; exact frameOf_short hshort
  · rename_i hlong; exact (frameOf_long (Nat.not_le.mp hlong)).trans (longFrame_eq p)

theorem shortFrame_length (p : List Byte) : (shortFrame p).length = p.length + 5 := by
  simp [shortFrame, frameTrailer]

namespace Machine

variable {s : State} {p : List Byte}

/-! ### The outcomes of ENCODE and its arms (R111 to R115) -/

theorem exec_encode_fits (hidle : s.seqState = .idle) (h : p.length ≤ 65535) :
    exec (.encode p) s = .next (transmit (frameOf p) s) :=
  (whenIdle_idle hidle _).trans (if_neg (Nat.not_lt.mpr h))

theorem exec_encode_tooLarge (hidle : s.seqState = .idle) (h : 65535 < p.length) :
    exec (.encode p) s = .refused .lengthTooLarge :=
  (whenIdle_idle hidle _).trans (if_pos h)

theorem exec_encShort_fits (s : State) (h : p.length ≤ 255) : exec (.encShort p) s = .next (transmit (frameOf p) s) := by
  rw [frameOf_short h]; exact if_pos h

theorem exec_encShort_wrongArm (s : State) (h : 255 < p.length) : exec (.encShort p) s = .refused .wrongArm :=
  if_neg (Nat.not_le.mpr h)

theorem exec_encLong_fits (s : State) (h : 255 < p.length) (hmax : p.length ≤ 65535) :
    exec (.encLong p) s = .next (transmit (frameOf p) s) := by
  rw [frameOf_long h]; exact (if_neg (Nat.not_lt.mpr hmax)).trans (if_neg (Nat.not_le.mpr h))

theorem exec_encLong_tooLarge (s : State) (h : 65535 < p.length) : exec (.encLong p) s = .refused .lengthTooLarge := if_pos h

theorem exec_encLong_wrongArm (s : State) (h : p.length ≤ 255) : exec (.encLong p) s = .refused .wrongArm :=
  (if_neg (Nat.not_lt.mpr (Nat.le_trans h (by decide)))).trans (if_pos h)

/-! ### The round trip (R116) -/

theorem frameOk_shortFrame (h : p.length ≤ 255) : frameOk (shortFrame p) (p.length + 5) = true := frameOk_short p _ _ h

/-- Validating a frame that the encoder formed records the payload, one checksum twice, and success (R110, R141). -/
theorem validateOp_shortFrame (s : State) (h : p.length ≤ 255) :
    validateOp (shortFrame p) (p.length + 5) s = s.withVal
      { buf := Mem.writeBytes s.val.buf 0 p, len := p.length, crcRx := crc16 p, crcCalc := crc16 p, ok := true } := by
  have hcheck := checkFrame_short s p (hiByte (crc16 p)) (loByte (crc16 p))
  rw [hiByte_append_loByte, decide_eq_true rfl] at hcheck
  rw [validateOp, if_pos (frameOk_shortFrame h)]
  exact hcheck

theorem verdict_shortFrame (h : p.length ≤ 255) (hok : s.val.ok = true) :
    verdict (shortFrame p) (p.length + 5) s = .success := by
  rw [verdict, if_pos (frameOk_shortFrame h), if_pos hok]

/-- Settles O32. The frame passes the structural test and carries the checksum that the validator computes (`validateOp_shortFrame`). -/
theorem encodeThenValidateSucceeds : Obligations.EncodeThenValidateSucceeds := by
  unfold Obligations.EncodeThenValidateSucceeds
  intro s p hidle h
  rw [frameOf_short h]
  refine ⟨_, execValidateX_exact hidle (shortFrame_length p), ?_⟩
  rw [validateOp_shortFrame s h]
  exact ⟨verdict_shortFrame h rfl, rfl, Mem.readBytes_writeBytes s.val.buf 0 p⟩

/-! ### ENCODE and its arms -/

/-- Settles O14. The frame written out is `frameOf` (`frameOf_eq`); the count and the environment are the transport's (`transmit_bound`). -/
theorem encodeSendsOneFrame : Obligations.EncodeSendsOneFrame := by
  unfold Obligations.EncodeSendsOneFrame
  intro s p hidle hbound h trailer frame
  have hframe : frameOf p = frame := frameOf_eq p
  refine ⟨writeReply s.env frame.length, writeEnv s.env frame, writeReply_le _ _, writeEnv_txLog _ _,
    writeEnv_rxFifo _ _, writeEnv_now _ _, writeEnv_script _ _, ?_⟩
  rw [exec_encode_fits hidle h, transmit_bound hbound, hframe]

/-- Settles O17: on the lengths of its arm each of the two sends `frameOf`, as ENCODE does. -/
theorem encoderArmsAreEncode : Obligations.EncoderArmsAreEncode := by
  unfold Obligations.EncoderArmsAreEncode
  intro s p hidle
  refine ⟨fun h => ?_, fun h hmax => ?_, exec_encShort_wrongArm s, fun h => ?_, exec_encLong_tooLarge s⟩
  · exact ⟨_, exec_encShort_fits s h, exec_encode_fits hidle (by omega)⟩
  · exact ⟨_, exec_encLong_fits s h hmax, exec_encode_fits hidle hmax⟩
  · exact exec_encLong_wrongArm s (Nat.le_of_lt_succ h)

/-- Settles O15, by `transmit_unbound`. -/
theorem encodeUnboundSendsNothing : Obligations.EncodeUnboundSendsNothing := by
  unfold Obligations.EncodeUnboundSendsNothing
  intro s p hidle hbound h
  rw [exec_encode_fits hidle h, transmit_unbound hbound]

/-- Settles O16. The empty payload is one of ENC.SHORT's, and the checksum of nothing is 0. -/
theorem encodeLengthDomain : Obligations.EncodeLengthDomain := by
  unfold Obligations.EncodeLengthDomain
  intro s hidle
  have hencode : exec (.encode []) s = .next (transmit (frameOf []) s) := exec_encode_fits hidle (by decide)
  refine ⟨fun p h => exec_encode_tooLarge hidle h, ?_, _, hencode, fun hbound => ?_⟩
  · exact hencode.trans (exec_encShort_fits s (by decide)).symm
  · rw [transmit_bound hbound]
    exact writeEnv_txLog _ _

end Machine

end Sys2Proof
end

section
/-! SUPPORT. The frame receiver, operation by operation: when it does nothing or is refused, one byte, one late poll, and the whole of
RX.RUN (when it returns, what a silent link, a waiting frame and an unreceivable one give): O18 to O21, O23, O25 to O29. -/

namespace Sys2Proof.Machine

variable {s t u v w : State} {used : List (List Outside)} {bs f tail : List Byte}

/-! ### RX.START, and the receiver unbound (R120, R129) -/

theorem exec_rxStart (hidle : s.seqState = .idle) : exec .rxStart s = .next ((rxStartOp s).withResult .none) :=
  whenIdle_idle hidle _

theorem rxStartOp_unbound (hb : s.bound = false) : rxStartOp s = s := by simp [rxStartOp, hb]

/-- Settles O18: at a point without a reset RX.START is `startReceive` (`rxStartOp_bound`), and the point changes the environment only. -/
theorem rxStartBeginsReceive : Obligations.RxStartBeginsReceive := by
  unfold Obligations.RxStartBeginsReceive
  intro s hidle hb hs
  have hstart : startReceive (interleave s) = startReceive (s.withEnv (interleave s).env) :=
    congrArg startReceive (interleave_quiet hs)
  rw [exec_rxStart hidle, rxStartOp_bound hb hs, hstart]
  rfl

/-! ### Refusals (R121, R122, R200) -/

theorem exec_rxPoll_badState (hidle : s.seqState = .idle) (ha : s.rx.state ≠ .accumulating) :
    exec .rxPoll s = .refused .badState :=
  (whenIdle_idle hidle _).trans (if_neg ha)

theorem exec_rxByte_badState (hidle : s.seqState = .idle)
    (h : ¬ (s.bound = true ∧ s.rx.state = .accumulating ∧ s.env.rxFifo ≠ [])) : exec .rxByte s = .refused .badState :=
  (whenIdle_idle hidle _).trans (if_neg fun ⟨hb, ha, hwaiting⟩ => h ⟨hb, ha, List.ne_nil_of_length_pos hwaiting⟩)

/-- Settles O20: the guards of the two operations. -/
theorem receiverRefusesBadState : Obligations.ReceiverRefusesBadState := by
  unfold Obligations.ReceiverRefusesBadState
  exact fun s hidle => ⟨exec_rxPoll_badState hidle, exec_rxByte_badState hidle⟩

/-- Settles O19: unbound, the invariant keeps the receiver Idle, so nothing starts and nothing is there to poll or to read. -/
theorem receiverUnboundDoesNothing : Obligations.ReceiverUnboundDoesNothing := by
  unfold Obligations.ReceiverUnboundDoesNothing
  intro s hinv hb
  have hidle := hinv.seqIdle
  have hrx : s.rx.state = .idle := hinv.rxUnbound hb
  refine ⟨?_, ?_, exec_rxPoll_badState hidle (by simp [hrx]), exec_rxByte_badState hidle (by simp [hb]), hrx⟩
  · rw [exec_rxStart hidle, rxStartOp_unbound hb]; rfl
  · exact (whenIdle_idle hidle _).trans (if_neg (by simp [hb]))

/-! ### A poll at the deadline, and one byte (R121 to R125) -/

/-- Settles O21: `pollOp_late`, after a point that changes the environment only. -/
theorem rxPollTimesOutAtDeadline : Obligations.RxPollTimesOutAtDeadline := by
  unfold Obligations.RxPollTimesOutAtDeadline
  intro s hidle ha hs hd
  have htimedOut : (interleave s).withRxState .timedOut = (s.withEnv (interleave s).env).withRxState .timedOut :=
    congrArg (State.withRxState · .timedOut) (interleave_quiet hs)
  rw [exec_rxPoll_accumulating hidle ha, pollOp_late hs ha hd, htimedOut]
  rfl

theorem exec_rxByte_enabled (hidle : s.seqState = .idle) (hb : s.bound = true) (ha : s.rx.state = .accumulating)
    (hwaiting : s.env.rxFifo ≠ []) : exec .rxByte s = .next ((rxByteOp s).withResult .none) :=
  (whenIdle_idle hidle _).trans (if_pos ⟨hb, ha, List.length_pos_of_ne_nil hwaiting⟩)

/-- The queue after an interleaving point still begins with the byte at its head; what arrived stands behind (R55, R57). -/
theorem interleave_rxFifo_cons {b : Byte} {q : List Byte} (hq : s.env.rxFifo = b :: q) :
    (interleave s).env.rxFifo = b :: (q ++ bytesIn (s.env.script.headD [])) := by
  rw [interleave_env, hq]; rfl

/-- RX.BYTE with a byte waiting: it accumulates that byte, and takes it and no other off the queue (R122, R123). -/
theorem rxByteOp_cons {b : Byte} {q : List Byte} (hs : quietPoint s) (ha : s.rx.state = .accumulating)
    (hq : s.env.rxFifo = b :: q) :
    rxByteOp s = (accumulate b s).withEnv
      { (interleave s).env with rxFifo := q ++ bytesIn (s.env.script.headD []) } := by
  have hcore := interleave_quiet hs
  have ha' : (interleave s).rx.state = .accumulating := by rw [hcore]; exact ha
  rw [rxByteOp, if_pos ha', readAndAccumulate, interleave_rxFifo_cons hq]
  simp only [accumulate_withEnv]
  rw [hcore]
  rfl

/-- Settles O23: RX.BYTE is `rxByteOp_cons`, and the accumulation in a receive in progress is the chain written out (`accumulate_rx`). -/
theorem rxByteAccumulates : Obligations.RxByteAccumulates := by
  unfold Obligations.RxByteAccumulates
  intro s b q hidle hb ha hs hq
  have hframe : accumulate b s = s.withRx (receiveByte s.params.rxCap s.rx b) := by rw [← accumulate_rx ha]; rfl
  refine ⟨bytesIn (s.env.script.headD []), interleave_rxFifo_cons hq, ?_⟩
  rw [exec_rxByte_enabled hidle hb ha (by simp [hq]), rxByteOp_cons hs ha hq, hframe]
  rfl

/-! ### When RX.RUN returns (R127, R228) -/

/-- Where its receive returns, RX.RUN returns what the receive left and the reported length: the converse of `exec_rxRun_eq_next`. -/
theorem exec_rxRun_of_runReceive (hidle : s.seqState = .idle) (hb : s.bound = true) (hs : noReset s)
    (h : runReceive s = .next w) : exec .rxRun s = .next (w.withResult (.length (reportedLength w.rx))) := by
  have halive : w.rx.state ≠ .idle := by
    obtain ⟨_, _, e | e | e⟩ := runReceive_frame hb hs h <;> simp [e]
  change execRxRun s = _
  rw [execRxRun, whenIdle_idle hidle, if_pos hb, h, andThen_next, reportReceive, if_neg halive, done]

theorem reportReceive_ne_fault (t : State) (e : Fault) : reportReceive t ≠ .fault e := by
  unfold reportReceive; split <;> simp

theorem Stretch.rx_deadline (h : Stretch s t used bs) : t.rx.deadline = s.rx.deadline :=
  (congrArg Rx.deadline h.rx_eq_absorb).trans (absorb_rx_deadline bs s)

/-- A receive that has used up its script has used every batch behind the one of its clock sample, so it stands at or past the
deadline when these let the receive budget pass. -/
theorem Stretch.deadline_le_of_script_nil (h : Stretch (startReceive (interleave s)) u used bs) (hnil : u.env.script = [])
    (htime : s.params.timeoutMs ≤ ticksOf s.env.script.tail) : u.rx.deadline ≤ u.env.now := by
  have hused : s.env.script.tail = used := by simpa [hnil] using h.script
  rw [h.rx_deadline, h.clock, ← hused]
  simpa using htime

theorem runReceive_returns (hb : s.bound = true) (hs : noReset s) (htime : s.params.timeoutMs ≤ ticksOf s.env.script.tail) :
    ∃ w, runReceive s = .next w := by
  obtain ⟨used, bs, u, hst, ⟨e, _⟩ | ⟨e, _⟩ | ⟨_, _, hnil, _, hbelow⟩⟩ := runReceive_stretch hb hs
  · exact ⟨_, e⟩
  · exact ⟨_, e⟩
  · have := hst.deadline_le_of_script_nil hnil htime
    omega

/-- Settles O25, by `runReceive_returns`. -/
theorem rxRunReturnsIfClockAdvances : Obligations.RxRunReturnsIfClockAdvances := by
  unfold Obligations.RxRunReturnsIfClockAdvances
  intro s hidle hb hs htime
  obtain ⟨w, hw⟩ := runReceive_returns hb hs htime
  exact ⟨_, exec_rxRun_of_runReceive hidle hb hs hw⟩

/-- A poll loop that leaves the receive in progress began with one in progress. -/
theorem accumulating_of_pollLoop {n : Nat} (h : (pollLoop (n + 1) s).rx.state = .accumulating) : s.rx.state = .accumulating := by
  by_contra hn
  rw [pollLoop, if_neg hn] at h
  exact hn h

/-- Settles O26: only the receive can fault, and its loop then outlasted the script in a receive in progress (`pollLoop_stalled`). -/
theorem rxRunNeverEndsOnlyWhenStalled : Obligations.RxRunNeverEndsOnlyWhenStalled := by
  unfold Obligations.RxRunNeverEndsOnlyWhenStalled
  intro s e h
  obtain ⟨_, h⟩ := whenIdle_eq_fault.mp (show execRxRun s = .fault e from h)
  split at h
  · obtain h | ⟨w, _, h⟩ := andThen_eq_fault.mp h
    · obtain ⟨rfl, ha⟩ := runReceive_eq_fault h
      exact ⟨rfl, _, ha, pollLoop_stalled _ _ (Nat.le_refl _) (accumulating_of_pollLoop ha) ha⟩
    · exact absurd h (reportReceive_ne_fault w e)
  · exact absurd h done_ne_fault

/-! ### A silent link (R126) -/

/-- The bytes a receive takes are the first of those that wait and that the whole script brings. -/
theorem Stretch.bytes_prefix (hs : quietPoint s) (h : Stretch (startReceive (interleave s)) u used bs) :
    bs <+: s.env.rxFifo ++ bytesOf s.env.script := by
  obtain ⟨hscript, hqueue, _⟩ := h.env_from_start hs
  rw [hscript, bytesOf_append, ← List.append_assoc, hqueue, List.append_assoc]
  exact List.prefix_append _ _

/-- Settles O27: the receive returns, it took no byte, and so only the deadline can have ended it. -/
theorem silentLinkTimesOut : Obligations.SilentLinkTimesOut := by
  unfold Obligations.SilentLinkTimesOut
  intro s hidle hb hs htime hqueue hscript
  obtain ⟨w, hw⟩ := runReceive_returns hb hs htime
  obtain ⟨used, bs, u, hst, hend⟩ := runReceive_ends hb hs hw
  have hbs : bs = [] := by simpa [hqueue, hscript] using hst.bytes_prefix hs.quiet
  have hrx : u.rx = (startReceive (interleave s)).rx := by rw [hst.rx_eq_absorb, hbs, absorb_nil]
  refine ⟨_, exec_rxRun_of_runReceive hidle hb hs hw, ?_⟩
  obtain ⟨rfl, _⟩ | ⟨rfl, _⟩ := hend
  · exact absurd (congrArg Rx.state hrx) (runReceive_eq_next hw).2
  · exact ⟨rfl, congrArg Rx.cnt hrx, congrArg Rx.exp hrx, rfl⟩

/-! ### A frame that already waits (R122 to R128) -/

/-- A stretch over bytes that wait, and that end a receive with their last one, takes these bytes and no more; or it stands in a
receive in progress with some of them still waiting. -/
theorem Stretch.takes_waiting (h : Stretch v u [] bs) (hq : v.env.rxFifo = f ++ tail)
    (hlive : ∀ k, k < f.length → (absorb (f.take k) v).rx.state = .accumulating)
    (hend : (absorb f v).rx.state ≠ .accumulating) :
    (bs = f ∧ u.env.rxFifo = tail) ∨ (u.rx.state = .accumulating ∧ u.env.rxFifo ≠ []) := by
  have hqueue : f ++ tail = bs ++ u.env.rxFifo := by simpa [hq] using h.queue
  obtain ⟨more, rfl, hrest⟩ | ⟨more, rfl, hrest⟩ := List.append_eq_append_iff.mp hqueue
  · cases more with
    | nil => exact .inl ⟨by simp, by simpa using hrest.symm⟩
    | cons b more => exact absurd (by simpa using h.live f.length (by simp)) hend
  · cases more with
    | nil => exact .inl ⟨by simp, by simpa using hrest⟩
    | cons b more =>
      refine .inr ⟨?_, by simp [hrest]⟩
      rw [h.rx_eq_absorb]
      simpa using hlive bs.length (by simp)

/-- A receive without a script, before its deadline, that finds such bytes waiting: it takes them and ends with the last one. -/
theorem runReceive_waiting (hb : s.bound = true) (hnil : s.env.script = []) (htime : 0 < s.params.timeoutMs)
    (hq : s.env.rxFifo = f ++ tail) (hlive : ∀ k, k < f.length → (absorb (f.take k) (startReceive s)).rx.state = .accumulating)
    (hend : (absorb f (startReceive s)).rx.state ≠ .accumulating) :
    runReceive s = .next ((absorb f (startReceive s)).withEnv { s.env with rxFifo := tail }) := by
  have hs : noReset s := by simp [noReset, hnil]
  obtain ⟨used, bs, u, hst, hcases⟩ := runReceive_stretch hb hs
  rw [interleave_nil hnil] at hst
  obtain ⟨rfl, hscript⟩ : used = [] ∧ u.env.script = [] := by simpa [hnil] using hst.script
  have hnow : u.env.now = s.env.now := hst.clock
  have hbelow : u.env.now < u.rx.deadline := by rw [hst.rx_deadline, hnow]; simpa using htime
  have htakes := hst.takes_waiting hq hlive hend
  obtain ⟨e, ha⟩ | ⟨_, _, hd⟩ | ⟨_, ha, _, hempty, _⟩ := hcases
  · obtain ⟨rfl, hrest⟩ | ⟨ha', _⟩ := htakes
    · have henv : u.env = { s.env with rxFifo := tail } := by
        rw [hst.rest, hrest, hnow, hscript, ← hnil]; rfl
      rw [e, hst.core, henv]
    · exact absurd ha' ha
  · omega
  · obtain ⟨rfl, _⟩ | ⟨_, hmore⟩ := htakes
    · exact absurd (hst.rx_eq_absorb ▸ ha) hend
    · exact absurd hempty hmore

/-- Settles O28: the bytes of a whole short frame end a receive with their last one, Complete (`absorb_frame`). -/
theorem waitingFrameCompletes : Obligations.WaitingFrameCompletes := by
  unfold Obligations.WaitingFrameCompletes
  intro s p tail hi lo hidle hb hnil htime hp hcap hq
  rw [show BitVec.ofNat 8 p.length = byteOf p.length from rfl] at hq ⊢
  obtain ⟨hlive, hrx⟩ := absorb_frame (startReceive s) p hi lo rfl rfl rfl hp hcap
  have hlen : ([0x02, byteOf p.length] ++ p ++ [hi, lo, 0x03]).length = p.length + 5 := by simp
  have hw := runReceive_waiting hb hnil htime hq (fun k hk => hlive k (hlen ▸ hk)) (by rw [hrx]; simp)
  rw [exec_rxRun_of_runReceive hidle hb (by simp [noReset, hnil]) hw, absorb_core, hrx]
  rfl

/-! ### Frames that cannot be received (R126) -/

/-- What a completed receive took, from its start: a short frame that fits, by its marker, its declared length and its terminator. -/
theorem Stretch.complete_frame (h : Stretch v u used bs) (hinv : RxInv v.params.rxCap v.rx) (hcnt : v.rx.cnt = 0)
    (hc : u.rx.state = .complete) :
    ∃ l : Byte, bs[0]? = some 0x02 ∧ bs[1]? = some l ∧ bs[l.toNat + 4]? = some 0x03 ∧
      bs.length = l.toNat + 5 ∧ bs.length ≤ v.params.rxCap := by
  have hu := hinv.stretch h
  have hlen : u.rx.cnt = bs.length := by rw [h.rx_eq_absorb, absorb_rx_cnt, hcnt, Nat.zero_add]
  have hread : ∀ i, i < bs.length → Mem.read u.rx.buf i = bs[i]? := by
    intro i hi
    rw [h.rx_eq_absorb, absorb_rx_buf, hcnt, Mem.read_writeBytes, if_pos (by omega), Nat.sub_zero]
  obtain ⟨hexp, hterm⟩ := hu.complete hc
  have hheader := hu.header
  rw [hexp] at hheader
  split at hheader
  · rename_i hseen
    obtain ⟨_, hmark⟩ := hseen
    have hsize : bs.length = u.rx.len + 5 := by rw [← hlen]; exact Option.some.inj hheader
    have hbyte : (byteOf u.rx.len).toNat = u.rx.len := byteOf_toNat_of_lt (Nat.lt_succ_of_le hu.lenMax)
    have hdeclared := hu.declared (by simp [hexp])
    rw [hread _ (by omega)] at hmark hdeclared
    rw [hlen, hread _ (by omega), hsize] at hterm
    exact ⟨byteOf u.rx.len, hmark, hdeclared, by rw [hbyte]; exact hterm, by rw [hbyte]; exact hsize, hlen ▸ hu.count⟩
  · cases hheader

/-- Settles O29: a receive that is Complete took a short frame that fits (`Stretch.complete_frame`) off the front of the stream. -/
theorem unreceivableFramesNeverComplete : Obligations.UnreceivableFramesNeverComplete := by
  unfold Obligations.UnreceivableFramesNeverComplete
  intro s t hidle hb hs hcap h stream hbad
  obtain ⟨w, hw, rfl⟩ := exec_rxRun_eq_next hb hs h
  obtain ⟨_, _, hc | hended⟩ := runReceive_frame hb hs hw
  · obtain ⟨used, bs, u, hst, ⟨rfl, _⟩ | ⟨rfl, _⟩⟩ := runReceive_ends hb hs hw
    · have hinv : RxInv (startReceive (interleave s)).params.rxCap (startReceive (interleave s)).rx :=
        RxInv.start (by simpa using hcap) _ _
      obtain ⟨l, hmark, hlength, hterm, hsize, hfits⟩ := hst.complete_frame hinv rfl hc
      have hat : ∀ i b, bs[i]? = some b → stream[i]? = some b := fun i b hi => by
        obtain ⟨hlt, rfl⟩ := List.getElem?_eq_some_iff.mp hi
        exact List.prefix_iff_getElem?.mp (hst.bytes_prefix hs.quiet) i hlt
      have h0 := hat _ _ hmark
      have h1 := hat _ _ hlength
      have hlast := hat _ _ hterm
      rw [startReceive_params, interleave_params] at hfits
      obtain ⟨b, q, e, hne⟩ | ⟨l', q, e, hbig⟩ | ⟨l', q, b, e, hb', hne⟩ := hbad
      · rw [e] at h0
        exact absurd (Option.some.inj h0) hne
      · rw [e] at h1
        obtain rfl : l' = l := Option.some.inj h1
        omega
      · rw [e] at h1
        obtain rfl : l' = l := Option.some.inj h1
        exact absurd (Option.some.inj (hb'.symm.trans hlast)) hne
    · cases hc
  · exact hended

end Sys2Proof.Machine
end

section
/-! SUPPORT. The frame validator: detection of one changed byte O12, broken structure O30, the checksums compared O31, a corrupted
payload O34, VALIDATE on the completed frame O33, operands outside the rules O47. -/

namespace Sys2Proof

/-- The checksum of a sequence goes on from the checksum of its front (R103). -/
theorem crc16_append (s t : List Byte) : crc16 (s ++ t) = t.foldl crcByte (crc16 s) := List.foldl_append

/-- Settles O12. The two bytes take one register apart (`crcByte_injective_byte`), and no byte after them brings it together again
(`crcByte_foldl_injective`). -/
theorem checksumDetectsOneChangedByte : Obligations.ChecksumDetectsOneChangedByte := by
  unfold Obligations.ChecksumDetectsOneChangedByte
  intro front back b b' hne heq
  rw [crc16_append, crc16_append] at heq
  exact hne (crcByte_injective_byte _ (crcByte_foldl_injective back heq))

namespace Machine

variable {s : State} {f : List Byte} {n : Nat}

/-! ### VALIDATE.X by the structural test (R142, R143) -/

theorem validateOp_sound (h : frameOk f n = true) (s : State) : validateOp f n s = checkFrame f n s := if_pos h

theorem validateOp_broken (h : frameOk f n ≠ true) (s : State) : validateOp f n s = rejectFrame s := if_neg h

theorem verdict_sound (h : frameOk f n = true) (s : State) :
    verdict f n s = if s.val.ok then .success else .failure .checksumMismatch := if_pos h

theorem verdict_broken (h : frameOk f n ≠ true) (s : State) : verdict f n s = .failure .malformed := if_neg h

/-- A structurally sound frame is never MALFORMED (R142). -/
theorem verdict_sound_ne_malformed (h : frameOk f n = true) (s : State) : verdict f n s ≠ .failure .malformed := by
  rw [verdict_sound h]
  split <;> simp

/-- Settles O30. The statement's soundness is the model's structural test (`frameOk_iff`). -/
theorem validateXRejectsMalformed : Obligations.ValidateXRejectsMalformed := by
  unfold Obligations.ValidateXRejectsMalformed
  intro s f hidle sound
  have hiff : frameOk f f.length = true ↔ sound := frameOk_iff f f.length
  have hexec := execValidateX_exact hidle (f := f) rfl
  refine ⟨fun hbroken => hexec.trans ?_, fun hsound => ⟨_, hexec, verdict_sound_ne_malformed (hiff.mpr hsound) _⟩⟩
  have hok : frameOk f f.length ≠ true := fun h => hbroken (hiff.mp h)
  rw [verdict_broken hok, validateOp_broken hok]
  rfl

/-- Settles O31. The layout is structurally sound (`frameOk_short`), so the frame is checked (`checkFrame_short`). -/
theorem validateXComparesChecksums : Obligations.ValidateXComparesChecksums := by
  unfold Obligations.ValidateXComparesChecksums
  intro s p hi lo hidle hp
  have hok := frameOk_short p hi lo hp
  obtain ⟨hlength, _⟩ := shortFrame_parts p hi lo
  refine (execValidateX_exact hidle hlength).trans ?_
  rw [verdict_sound hok, validateOp_sound hok, checkFrame_short]
  simp only [State.withVal_val, decide_eq_true_eq]
  rfl

/-- Settles O34. The frame still carries the checksum of the payload sent, which is not that of the payload received
(`checksumDetectsOneChangedByte`). -/
theorem corruptedPayloadIsRejected : Obligations.CorruptedPayloadIsRejected := by
  unfold Obligations.CorruptedPayloadIsRejected
  intro s front back b b' hidle hp hne p
  have hlength : p.length = (front ++ b' :: back).length := by simp [p]
  have hmismatch : ((crc16 p).extractLsb' 8 8 ++ (crc16 p).extractLsb' 0 8 : Word16) ≠ crc16 (front ++ b' :: back) := by
    rw [← hiByte_eq_extractLsb', ← loByte_eq_extractLsb', hiByte_append_loByte]
    exact checksumDetectsOneChangedByte front back b b' hne
  rw [hlength]
  exact ⟨_, validateXComparesChecksums s _ _ _ hidle (hlength ▸ hp), if_neg hmismatch, decide_eq_false hmismatch, rfl, rfl⟩

/-! ### VALIDATE (R140) -/

/-- A completed frame is in the buffer as a whole and is structurally sound (R132, R142). -/
theorem RxInv.complete_sound {cap : Nat} {r : Rx} (h : RxInv cap r) (hc : r.state = .complete) :
    ∃ f, r.exp = some r.cnt ∧ Mem.readBytes r.buf 0 r.cnt = some f ∧ frameOk f r.cnt = true := by
  obtain ⟨hexp, hterm⟩ := h.complete hc
  obtain ⟨f, hf⟩ := Mem.readBytes_isSome r.buf r.cnt 0 fun k hk => by simpa using h.written k hk
  obtain ⟨_, hread⟩ := (Mem.readBytes_eq_some _ _ _ _).mp hf
  have hbyte : ∀ k, k < r.cnt → f[k]? = Mem.read r.buf k := fun k hk => by simpa using (hread k hk).symm
  have hheader := h.header
  rw [hexp] at hheader
  split at hheader
  case isTrue hseen =>
    obtain ⟨_, hmark⟩ := hseen
    have hsize : r.cnt = r.len + 5 := Option.some.inj hheader
    have hdeclared := h.declared (by simp [hexp])
    have hlen : (byteOf r.len).toNat = r.len := byteOf_toNat_of_lt (Nat.lt_succ_of_le h.lenMax)
    refine ⟨f, hexp, hf, (frameOk_iff _ _).mpr ⟨by omega, ?_, ⟨byteOf r.len, ?_, ?_⟩, ?_⟩⟩
    · rw [hbyte 0 (by omega)]; exact hmark
    · rw [hbyte 1 (by omega)]; exact hdeclared
    · rw [hlen]; exact hsize
    · rw [hbyte _ (by omega)]; exact hterm
  case isFalse => cases hheader

theorem execValidate_badState (hidle : s.seqState = .idle) (h : s.rx.state ≠ .complete) :
    execValidate s = .refused .badState :=
  (whenIdle_idle hidle _).trans (if_neg h)

theorem execValidate_complete (hidle : s.seqState = .idle) (hc : s.rx.state = .complete) (he : s.rx.exp = some n)
    (hf : Mem.readBytes s.rx.buf 0 n = some f) :
    execValidate s = .next ((validateOp f n s).withResult (verdict f n (validateOp f n s))) := by
  have hseq : s.withSeq .idle = s := by rw [← hidle]; rfl
  have hrx := validateRx_complete (q := .idle) hc he hf
  rw [hseq] at hrx
  exact (whenIdle_idle hidle _).trans hrx

/-- Settles O33. Both operations are one validation of one frame, which the invariant makes sound (`RxInv.complete_sound`). -/
theorem validateActsOnCompletedFrame : Obligations.ValidateActsOnCompletedFrame := by
  unfold Obligations.ValidateActsOnCompletedFrame
  refine ⟨fun opc rest => rfl, fun s h => ⟨execValidate_badState h.seqIdle, fun hc => ?_⟩⟩
  obtain ⟨f, he, hf, hok⟩ := h.rxInv.complete_sound hc
  obtain ⟨hlength, _⟩ := (Mem.readBytes_eq_some _ _ _ _).mp hf
  exact ⟨_, f, _, he, hf, execValidate_complete h.seqIdle hc he hf, execValidateX_exact h.seqIdle hlength,
    verdict_sound_ne_malformed hok _⟩

/-! ### Operands outside the rules (log entries 3, 14) -/

theorem execGetValues_badState (h : s.val.ok = false ∨ s.val.len = 0 ∨ Mem.read s.val.buf 0 ≠ some s.params.opcGetValues) :
    execGetValues s = .refused .badState := by
  refine if_neg ?_
  rintro ⟨hok, hlen, hopc⟩
  obtain hbad | hbad | hbad := h
  · simp [hok] at hbad
  · omega
  · exact hbad hopc

/-- Settles O47. The frame of `n` bytes is the one VALIDATE.X forms, `frameBytes f n s`; on it nothing is drawn, and that is all the
difference (`execValidateX_idle`, `execValidateX_exact`). -/
theorem operandsOutsideTheRules : Obligations.OperandsOutsideTheRules := by
  unfold Obligations.OperandsOutsideTheRules
  refine ⟨fun s h => execGetValues_badState h, fun s f n hidle => ?_⟩
  obtain ⟨d, hexec⟩ := execValidateX_idle hidle f n
  exact ⟨frameBytes f n s, _, _, frameBytes_length f n s, frameBytes_take f n s,
    execValidateX_exact hidle (frameBytes_length f n s), hexec, rfl, rfl⟩

end Machine
end Sys2Proof
end

section
/-! SUPPORT. The field reader: a value determines its bytes O42, the four reads O36 to O39, their refusals O40, CUR.SET O41. -/

namespace Sys2Proof

/-! ### A number determines its bytes -/

/-- Big-endian assembly is the value of base-256 digits, the last byte the lowest digit (R43). -/
theorem beNat_eq_ofDigits (bs : List Byte) : beNat bs = Nat.ofDigits 256 (bs.reverse.map BitVec.toNat) := by
  induction bs using List.reverseRecOn with
  | nil => rfl
  | append_singleton bs b ih =>
    have hlast : beNat (bs ++ [b]) = beNat bs * 256 + b.toNat := by simp [beNat]
    simp only [hlast, ih, List.reverse_append, List.reverse_singleton, List.singleton_append, List.map_cons, Nat.ofDigits_cons]
    omega

theorem toNat_lt_of_mem_map {bs : List Byte} : ∀ d ∈ bs.map BitVec.toNat, d < 256 := by
  intro d hd
  obtain ⟨b, _, rfl⟩ := List.mem_map.mp hd
  exact b.isLt

theorem beNat_lt (bs : List Byte) : beNat bs < 256 ^ bs.length := by
  rw [beNat_eq_ofDigits]
  simpa using Nat.ofDigits_lt_base_pow_length (by decide : 1 < 256) (toNat_lt_of_mem_map (bs := bs.reverse))

theorem beNat_injective {bs bs' : List Byte} (hlen : bs.length = bs'.length) (h : beNat bs = beNat bs') : bs = bs' := by
  rw [beNat_eq_ofDigits, beNat_eq_ofDigits] at h
  have hdigits := Nat.ofDigits_inj_of_len_eq (by decide : 1 < 256) (by simpa using hlen) toNat_lt_of_mem_map toNat_lt_of_mem_map h
  exact List.reverse_injective (List.map_injective_iff.mpr (fun _ _ => BitVec.eq_of_toNat_eq) hdigits)

/-- Two's complement reads no two patterns of one width alike (R150). -/
theorem sext_injective {n v w : Nat} (hn : 0 < n) (hv : v < 2 ^ n) (hw : w < 2 ^ n) (h : sext n v = sext n w) : v = w := by
  have hbits : (BitVec.ofNatLT v hv).toInt = (BitVec.ofNatLT w hw).toInt := by
    rwa [← Machine.sext_eq_toInt _ hn, ← Machine.sext_eq_toInt _ hn]
  exact congrArg BitVec.toNat (BitVec.eq_of_toInt_eq hbits)

/-- Exact division by one positive scale keeps numbers apart (R158). -/
theorem mkRat_injective {a b : Int} {scale : Nat} (hscale : scale ≠ 0) (h : mkRat a scale = mkRat b scale) : a = b :=
  Int.eq_of_mul_eq_mul_right (Int.natCast_ne_zero.mpr hscale) ((Rat.mkRat_eq_iff hscale hscale).mp h)

namespace Machine

variable {op : FieldOp} {s : State} {bs bs' : List Byte}

theorem FieldOp.value_injective (hz : op.zeroScale = false) (hb : beNat bs < 256 ^ op.width) (hb' : beNat bs' < 256 ^ op.width)
    (h : op.value bs = op.value bs') : beNat bs = beNat bs' := by
  cases op with
  | s16q scale =>
    exact sext_injective (n := 16) (by decide) hb hb' (mkRat_injective (by simpa [zeroScale] using hz) (FieldValue.scaled.inj h))
  | s32q scale =>
    exact sext_injective (n := 32) (by decide) hb hb' (mkRat_injective (by simpa [zeroScale] using hz) (FieldValue.scaled.inj h))
  | s32 => exact sext_injective (n := 32) (by decide) hb hb' (FieldValue.integer.inj h)
  | u8 =>
    have hbyte := congrArg BitVec.toNat (FieldValue.byte.inj h)
    rwa [byteOf_toNat_of_lt hb, byteOf_toNat_of_lt hb'] at hbyte

/-- Settles O42. The value determines the field's number (`FieldOp.value_injective`), and the number its bytes (`beNat_injective`). -/
theorem fieldValueDeterminesBytes : Obligations.FieldValueDeterminesBytes := by
  unfold Obligations.FieldValueDeterminesBytes
  intro op bs bs' hz hlen hlen' h
  exact beNat_injective (hlen.trans hlen'.symm) (op.value_injective hz (hlen ▸ beNat_lt bs) (hlen' ▸ beNat_lt bs') h)

/-! ### The four reads (R151 to R154) -/

theorem readCommand_next (hidle : s.seqState = .idle) (hz : op.zeroScale = false) (hlen : s.cur + op.width ≤ s.val.len)
    (hr : Mem.readBytes s.val.buf s.cur op.width = some bs) :
    readCommand op s = .next { s with cur := s.cur + op.width, result := .field (op.value bs) } := by
  rw [readCommand, whenIdle_idle hidle, readField_next hz hlen hr]
  rfl

theorem readCommand_scaleZero (hidle : s.seqState = .idle) (hz : op.zeroScale = true) :
    readCommand op s = .refused .scaleZero := by
  rw [readCommand, whenIdle_idle hidle, readField, if_pos hz]
  rfl

theorem readCommand_readPastEnd (hidle : s.seqState = .idle) (hz : op.zeroScale = false) (hlen : s.val.len < s.cur + op.width) :
    readCommand op s = .refused .readPastEnd := by
  rw [readCommand, whenIdle_idle hidle, readField, if_neg (by simp [hz]), if_pos hlen]
  rfl

theorem zeroScale_s16q {scale : Nat} (h : 1 ≤ scale) : (FieldOp.s16q scale).zeroScale = false := by
  simp [FieldOp.zeroScale]; omega

theorem zeroScale_s32q {scale : Nat} (h : 1 ≤ scale) : (FieldOp.s32q scale).zeroScale = false := by
  simp [FieldOp.zeroScale]; omega

theorem Mem.readBytes_cons {m : Mem} {i n : Nat} {b : Byte} (hb : Mem.read m i = some b)
    (hbs : Mem.readBytes m (i + 1) n = some bs) : Mem.readBytes m i (n + 1) = some (b :: bs) := by
  simp [Mem.readBytes, hb, hbs]

theorem Mem.readBytes_four {m : Mem} {i : Nat} {a b c d : Byte} (ha : Mem.read m i = some a) (hb : Mem.read m (i + 1) = some b)
    (hc : Mem.read m (i + 2) = some c) (hd : Mem.read m (i + 3) = some d) : Mem.readBytes m i 4 = some [a, b, c, d] :=
  readBytes_cons ha (readBytes_cons hb (readBytes_cons hc (readBytes_cons hd rfl)))

/-- Settles O36. The value of the two bytes is the quotient (`value_s16q`), and the read is carried out (`readCommand_next`). -/
theorem rdS16qReadsScaledField : Obligations.RdS16qReadsScaledField := by
  unfold Obligations.RdS16qReadsScaledField
  intro s scale a b hidle hscale hlen ha hb
  rw [← value_s16q]
  exact readCommand_next hidle (zeroScale_s16q hscale) hlen (Mem.readBytes_cons ha (Mem.readBytes_cons hb rfl))

/-- Settles O37. As for two bytes, by `value_s32q` and `readCommand_next`. -/
theorem rdS32qReadsScaledField : Obligations.RdS32qReadsScaledField := by
  unfold Obligations.RdS32qReadsScaledField
  intro s scale a b c d hidle hscale hlen ha hb hc hd
  rw [← value_s32q]
  exact readCommand_next hidle (zeroScale_s32q hscale) hlen (Mem.readBytes_four ha hb hc hd)

/-- Settles O38. The bounds test refuses (`readCommand_readPastEnd`) or the four bytes are read (`value_s32`). -/
theorem rdS32ReadsRawInteger : Obligations.RdS32ReadsRawInteger := by
  unfold Obligations.RdS32ReadsRawInteger
  refine fun s hidle => ⟨readCommand_readPastEnd (op := .s32) hidle rfl, fun a b c d hlen ha hb hc hd => ?_⟩
  rw [← value_s32]
  exact readCommand_next hidle rfl hlen (Mem.readBytes_four ha hb hc hd)

/-- Settles O39. The bounds test refuses (`readCommand_readPastEnd`) or the byte is read (`value_u8`). -/
theorem rdU8ReadsRawByte : Obligations.RdU8ReadsRawByte := by
  unfold Obligations.RdU8ReadsRawByte
  refine ⟨fun opc rest => rfl, fun s hidle => ⟨readCommand_readPastEnd (op := .u8) hidle rfl, fun b hlen hb => ?_⟩⟩
  rw [← value_u8 b]
  exact readCommand_next hidle rfl hlen (Mem.readBytes_cons hb rfl)

/-- Settles O40. The scale test comes first (`readCommand_scaleZero`), then the bounds test (`readCommand_readPastEnd`). -/
theorem readsAreRefusedInOrder : Obligations.ReadsAreRefusedInOrder := by
  unfold Obligations.ReadsAreRefusedInOrder
  intro s hidle
  refine ⟨?_, ?_, fun scale hscale hlen => ?_, fun scale hscale hlen => ?_, ?_, ?_⟩
  · exact readCommand_scaleZero (op := .s16q 0) hidle rfl
  · exact readCommand_scaleZero (op := .s32q 0) hidle rfl
  · exact readCommand_readPastEnd hidle (zeroScale_s16q hscale) hlen
  · exact readCommand_readPastEnd hidle (zeroScale_s32q hscale) hlen
  · exact readCommand_readPastEnd (op := .s32) hidle rfl
  · exact readCommand_readPastEnd (op := .u8) hidle rfl

/-! ### The cursor (R157) -/

theorem execCurSet_next {k : Nat} (hidle : s.seqState = .idle) (hk : k ≤ s.val.len) :
    execCurSet k s = .next { s with cur := k, result := .none } :=
  (whenIdle_idle hidle _).trans (if_neg (Nat.not_lt.mpr hk))

theorem execCurSet_readPastEnd {k : Nat} (hidle : s.seqState = .idle) (hk : s.val.len < k) :
    execCurSet k s = .refused .readPastEnd :=
  (whenIdle_idle hidle _).trans (if_pos hk)

/-- Settles O41. The code's operand reader is the law `natOp_eq`. -/
theorem curSetMovesCursor : Obligations.CurSetMovesCursor := by
  unfold Obligations.CurSetMovesCursor
  refine ⟨fun opc rest i r h => ?_, fun s k hidle => ⟨execCurSet_next hidle, execCurSet_readPastEnd hidle⟩⟩
  obtain ⟨k, _, _, rfl⟩ := natOp_eq.mp (show natOp .curSet rest = .ok (i, r) from h)
  exact ⟨k, rfl⟩

end Machine
end Sys2Proof
end

section
/-! SUPPORT. The payload decoder: DECODE refused O43, its two failures O44 and O45, a schedule row on its own O48. -/

namespace Sys2Proof.Machine

variable {s : State}

/-! ### DECODE and its arm, by the payload (R160, R161, R164) -/

theorem decodeOp_badState (hok : s.val.ok = false) : decodeOp s = .refused .badState :=
  if_neg (by simp [hok])

theorem decodeOp_unsupportedOpcode (hok : s.val.ok = true)
    (h : s.val.len = 0 ∨ ∃ b, Mem.read s.val.buf 0 = some b ∧ b ≠ s.params.opcGetValues) :
    decodeOp s = .next (.unsupportedOpcode, s) := by
  rw [decodeOp, if_pos hok]
  split_ifs with hlen
  · rfl
  · obtain hempty | ⟨b, hread, hb⟩ := h
    · exact absurd hempty hlen
    · simp only [hread, if_neg hb]

theorem decodeOp_getValues (hok : s.val.ok = true) (hlen : 0 < s.val.len)
    (hopc : Mem.read s.val.buf 0 = some s.params.opcGetValues) : decodeOp s = getValuesOp s := by
  rw [decodeOp, if_pos hok, if_neg hlen.ne']
  simp only [hopc, if_true]

theorem getValuesOp_shortPayload (hlen : s.val.len < 59) : getValuesOp s = .next (.shortPayload, s) :=
  if_pos hlen

/-- DECODE in Idle answers the outcome its own steps end with (R160). -/
theorem execDecode_next {r : OutcomeCode × State} (hidle : s.seqState = .idle) (h : decodeOp s = .next r) :
    execDecode s = .next (r.2.withResult (.outcome r.1)) := by
  rw [execDecode, whenIdle_idle hidle, h]
  rfl

/-- The arm does too, when the payload selects it (R76, R160). -/
theorem execGetValues_next {r : OutcomeCode × State} (hok : s.val.ok = true) (hlen : 0 < s.val.len)
    (hopc : Mem.read s.val.buf 0 = some s.params.opcGetValues) (h : getValuesOp s = .next r) :
    execGetValues s = .next (r.2.withResult (.outcome r.1)) := by
  rw [execGetValues, if_pos ⟨hok, hlen, hopc⟩, h]
  rfl

/-- Settles O43. DECODE's own steps refuse (`decodeOp_badState`), and Idle lets them run. -/
theorem decodeNeedsValidation : Obligations.DecodeNeedsValidation := by
  unfold Obligations.DecodeNeedsValidation
  intro s hidle hok
  change execDecode s = _
  rw [execDecode, whenIdle_idle hidle, decodeOp_badState hok]
  rfl

/-- Settles O44, by `decodeOp_unsupportedOpcode`. -/
theorem decodeUnsupportedChangesNothing : Obligations.DecodeUnsupportedChangesNothing := by
  unfold Obligations.DecodeUnsupportedChangesNothing
  exact fun s hidle hok h => execDecode_next hidle (decodeOp_unsupportedOpcode hok h)

/-- Settles O45. The payload selects the arm (`decodeOp_getValues`), and the arm fails before any read (`getValuesOp_shortPayload`). -/
theorem shortPayloadChangesNothing : Obligations.ShortPayloadChangesNothing := by
  unfold Obligations.ShortPayloadChangesNothing
  intro s hidle hok hlen hshort hopc
  have harm : getValuesOp s = .next (.shortPayload, s) := getValuesOp_shortPayload hshort
  exact ⟨execDecode_next hidle ((decodeOp_getValues hok hlen hopc).trans harm), execGetValues_next hok hlen hopc harm⟩

/-! ### A row of the schedule on its own (R162) -/

theorem readField_readPastEnd {op : FieldOp} (hz : op.zeroScale = false) (hlen : s.val.len < s.cur + op.width) :
    readField op s = .refused .readPastEnd := by
  rw [readField, if_neg (by simp [hz]), if_pos hlen]

theorem gvStep_badState {k : Fin 18} (hk : s.decStep ≠ k.val) : gvStep k s = .refused .badState :=
  if_neg hk

theorem gvStep_readPastEnd {k : Fin 18} (hk : s.decStep = k.val) (hlen : s.val.len < s.cur + (gvOp k).width) :
    gvStep k s = .refused .readPastEnd := by
  rw [gvStep, if_pos hk, readField_readPastEnd (gvOp_zeroScale k) hlen, andThen_refused]

/-- Settles O48. A row is its schedule step (`exec_gvInstr`): unselected, past the end, or carried out (`gvStep_next`). -/
theorem scheduleStepStagesOneField : Obligations.ScheduleStepStagesOneField := by
  unfold Obligations.ScheduleStepStagesOneField
  intro s k i hrow
  rw [exec_gvInstr hrow, gvAlone]
  refine ⟨fun hk => ?_, fun hk hlen => ?_, fun bs hk hlen hr => ?_⟩
  · rw [gvStep_badState hk, andThen_refused]
  · rw [gvStep_readPastEnd hk hlen, andThen_refused]
  · rw [gvStep_next hk hlen hr]
    rfl

end Sys2Proof.Machine
end

section
/-! SUPPORT. The sequencer: BIND O51, Busy O52, REFRESH unbound O53, when it returns O55, on a waiting frame O56, and the host's read of
the record O60. -/

namespace Sys2Proof.Machine

variable {s v : State} {n : Nat} {f p tail : List Byte} {hi lo : Byte}

/-! ### BIND and Busy (R170, R177) -/

theorem exec_bind (hidle : s.seqState = .idle) : exec .bind s = .next { s with bound := true, result := .none } :=
  whenIdle_idle hidle _

/-- Settles O51. BIND of its own result is that result again, and no operation unbinds by `eachRegisterHasItsWriters`. -/
theorem bindSetsBound : Obligations.BindSetsBound := by
  unfold Obligations.BindSetsBound
  refine ⟨fun opc rest => rfl, fun s => ⟨fun hbusy => whenIdle_busy hbusy _, fun hidle =>
    ⟨exec_bind hidle, fun t h => ?_, fun i t hs hb h => ?_⟩⟩⟩
  · cases (exec_bind hidle).symm.trans h
    exact exec_bind hidle
  · obtain ⟨_, _, _, _, _, hkeeps, _⟩ := eachRegisterHasItsWriters i s t hs h
    exact hkeeps hb

/-- Settles O52: every row of the command port begins with `whenIdle`; a row of another format is no command. -/
theorem busyRefusesEveryCommand : Obligations.BusyRefusesEveryCommand := by
  unfold Obligations.BusyRefusesEveryCommand
  intro s i hbusy hcmd
  cases i with
  | bind | refresh | crcClr | crcByte | crc16 | encode | rxStart | rxPoll | rxRun | rxByte | validate | validateX
  | rdS16q | rdS32q | rdS32 | rdU8 | curSet | decode => exact whenIdle_busy hbusy _
  | encShort | encLong | getValues => cases hcmd
  | gvTemperatureFet | gvTemperatureMotor | gvAvgMotorCurrent | gvAvgInputCurrent | gvAvgId | gvAvgIq | gvDuty | gvErpm
  | gvBatteryVoltage | gvAmpHoursUsed | gvAmpHoursCharged | gvWattHoursUsed | gvWattHoursCharged | gvTachometer
  | gvTachometerAbs | gvFaultCode | gvPidPosition | gvControllerId => cases hcmd

/-! ### REFRESH by the transport (R172, R174) -/

theorem exec_refresh_unbound (hidle : s.seqState = .idle) (hb : s.bound = false) : exec .refresh s =
    .next (failRefresh .timedOut .unbound (transmit (shortFrame [s.params.opcGetValues]) (s.withSeq .sent))) := by
  change execRefresh s = _
  rw [execRefresh, whenIdle_idle hidle, encodeOp_request, andThen_next, refreshSent, if_neg (by simp [hb])]

theorem exec_refresh_bound (hidle : s.seqState = .idle) (hb : s.bound = true)
    (hv : runReceive (transmit (shortFrame [s.params.opcGetValues]) (s.withSeq .sent)) = .next v) :
    exec .refresh s = refreshReceived v := by
  change execRefresh s = _
  rw [execRefresh, whenIdle_idle hidle, encodeOp_request, andThen_next, refreshSent, if_pos (by simp [hb]), hv, andThen_next]

/-- Settles O53. Unbound the transmission only clears the count (`transmit_unbound`), and the outcome follows at once. -/
theorem refreshUnbound : Obligations.RefreshUnbound := by
  unfold Obligations.RefreshUnbound
  intro s hidle hb
  rw [exec_refresh_unbound hidle hb, transmit_unbound (s := s.withSeq .sent) hb]
  simp [failRefresh, returnToIdle, State.withSeq, hidle]

/-! ### When REFRESH returns (R178) -/

/-- A frame that can be read is validated, and a validated payload always has an outcome: the converse of `refreshCheck_eq_next`. -/
theorem refreshCheck_returns (hc : v.rx.state = .complete) (he : v.rx.exp = some n) (hf : Mem.readBytes v.rx.buf 0 n = some f) :
    ∃ t, refreshCheck v = .next t := by
  obtain ⟨hlen, _⟩ := (Mem.readBytes_eq_some _ _ _ _).mp hf
  rw [refreshCheck, validateRx_complete hc he hf, andThen_next]
  split
  case isTrue hok =>
    obtain ⟨p, hp, hpl⟩ := validateOp_payload (v.withSeq .received) hlen hok
    exact ⟨_, refreshDecode_payload hok hpl hp⟩
  case isFalse => exact ⟨_, rfl⟩

/-- After the receive only a completed frame is read, and the invariant says that it can be (R132). -/
theorem refreshReceived_returns (h : Steady v) : ∃ t, refreshReceived v = .next t := by
  cases hrx : v.rx.state with
  | idle | accumulating => exact ⟨v, by rw [refreshReceived, hrx]⟩
  | timedOut => exact ⟨_, refreshReceived_timedOut hrx⟩
  | overflowed => exact ⟨_, refreshReceived_overflowed hrx⟩
  | complete =>
    obtain ⟨f, he, hf, _⟩ := (Inv.rxInv h).complete_sound hrx
    rw [refreshReceived_complete hrx]
    exact refreshCheck_returns hrx he hf

/-- Settles O55. Bound, the receive returns as that of RX.RUN does (`runReceive_returns`), and what follows it always does. -/
theorem refreshReturnsIfClockAdvances : Obligations.RefreshReturnsIfClockAdvances := by
  unfold Obligations.RefreshReturnsIfClockAdvances
  intro s h hs hclock
  cases hb : s.bound with
  | false => exact ⟨_, exec_refresh_unbound h.seqIdle hb⟩
  | true =>
    have htime : s.params.timeoutMs ≤ ticksOf s.env.script.tail := hclock.resolve_left (by simp [hb])
    set w := transmit (shortFrame [s.params.opcGetValues]) (s.withSeq .sent) with hw
    obtain ⟨hparams, hscript⟩ : w.params = s.params ∧ w.env.script = s.env.script := transmit_keepsScript _ (s.withSeq .sent)
    have hsent : Steady w := (h.steady.withSeq .sent).transmit (by simp [shortFrame_length])
    have hs' : noReset w := noReset.transmit (s := s.withSeq .sent) hs _
    obtain ⟨v, hv⟩ := runReceive_returns (s := w) ((bound_transmit _ _).trans hb) hs' (by rw [hparams, hscript]; exact htime)
    rw [exec_refresh_bound h.seqIdle hb hv]
    exact refreshReceived_returns (steady_keeps.runReceive hsent hv)

/-! ### REFRESH on a waiting frame (R172, R194) -/

/-- The receive of a whole short frame that waits, whatever the sequencer's state: `waitingFrameCompletes` says it of RX.RUN. -/
theorem runReceive_waitingFrame (hb : s.bound = true) (hnil : s.env.script = []) (htime : 0 < s.params.timeoutMs)
    (hp : p.length ≤ 255) (hcap : p.length + 5 ≤ s.params.rxCap)
    (hq : s.env.rxFifo = [0x02, byteOf p.length] ++ p ++ [hi, lo, 0x03] ++ tail) :
    ∃ v, runReceive s = .next v ∧ v.rx.state = .complete ∧ v.rx.exp = some (p.length + 5) ∧
      Mem.readBytes v.rx.buf 0 (p.length + 5) = some ([0x02, byteOf p.length] ++ p ++ [hi, lo, 0x03]) ∧
      v.env.rxFifo = tail ∧ v.env.now = s.env.now := by
  obtain ⟨hlive, hrx⟩ := absorb_frame (startReceive s) p hi lo rfl rfl rfl hp hcap
  obtain ⟨hlen, _⟩ := shortFrame_parts p hi lo
  have hread := Mem.readBytes_writeBytes s.rx.buf 0 ([0x02, byteOf p.length] ++ p ++ [hi, lo, 0x03])
  rw [hlen] at hread
  refine ⟨_, runReceive_waiting hb hnil htime hq (fun k hk => hlive k (hlen ▸ hk)) (by rw [hrx]; simp), ?_, ?_, ?_, rfl, rfl⟩
  · rw [State.withEnv_rx, hrx]
  · rw [State.withEnv_rx, hrx]
  · rw [State.withEnv_rx, hrx]; exact hread

/-- REFRESH on a whole short frame that waits has an outcome, with the frame in the receiver and what is behind it in the transport. -/
theorem exec_refresh_waitingFrame (hidle : s.seqState = .idle) (hb : s.bound = true) (hnil : s.env.script = [])
    (htime : 0 < s.params.timeoutMs) (hp : p.length ≤ 255) (hcap : p.length + 5 ≤ s.params.rxCap)
    (hq : s.env.rxFifo = [0x02, byteOf p.length] ++ p ++ [hi, lo, 0x03] ++ tail) :
    ∃ t, exec .refresh s = .next t ∧ t.rx.state = .complete ∧ t.rx.exp = some (p.length + 5) ∧
      Mem.readBytes t.rx.buf 0 (p.length + 5) = some ([0x02, byteOf p.length] ++ p ++ [hi, lo, 0x03]) ∧
      t.env.rxFifo = tail ∧ t.env.now = s.env.now := by
  have hw := transmit_bound (s := s.withSeq .sent) hb (shortFrame [s.params.opcGetValues])
  obtain ⟨v, hv, hc, hexp, hread, hrest, hnow⟩ :=
    runReceive_waitingFrame (s := transmit (shortFrame [s.params.opcGetValues]) (s.withSeq .sent)) (p := p)
      (by simpa using hb) (by simpa [hw] using hnil) (by simpa [hw] using htime) hp (by simpa [hw] using hcap) (by simpa [hw] using hq)
  obtain ⟨t, ht⟩ := refreshCheck_returns hc hexp hread
  refine ⟨t, by rw [exec_refresh_bound hidle hb hv, refreshReceived_complete hc, ht], ?_⟩
  have hrx : t.rx = v.rx := by rw [refreshCheck_settled ht]
  have henv : t.env = v.env := by rw [refreshCheck_settled ht]
  rw [hrx, henv]
  exact ⟨hc, hexp, hread, hrest, hnow.trans (by simp [hw])⟩

/-- Settles O56. REFRESH ends (`exec_refresh_waitingFrame`) as O54 says, and its validator is that of VALIDATE.X on the frame, which O31
gives: the payload, and the two checksums compared. -/
theorem refreshOnWaitingFrame : Obligations.RefreshOnWaitingFrame := by
  unfold Obligations.RefreshOnWaitingFrame
  intro s p tail hi lo hidle hb hnil htime hp hcap hq out
  obtain ⟨t, ht, hc, hexp, hread, hrest, hnow⟩ := exec_refresh_waitingFrame hidle hb hnil htime hp hcap hq
  obtain ⟨hseq, hflag, hresult, hrecord, _, _, _, _, _, _, _, _, _, _, hcompleted, hlog, _⟩ :=
    refreshEndsAsItsOutcomeSays s t hidle (by simp [noReset, hnil]) ht
  obtain ⟨n, f, u, hn, hf, hu, hval, hmismatch, hvalid⟩ := hcompleted hb hc
  obtain rfl : p.length + 5 = n := Option.some.inj (hexp.symm.trans hn)
  obtain rfl := Option.some.inj (hread.symm.trans hf)
  cases (validateXComparesChecksums s p hi lo hidle hp).symm.trans hu
  obtain ⟨hout, hdecoded⟩ : t.outcome = out ∧ (t.outcome = .decoded → t.T = recordOf p) := by
    by_cases hsum : (hi ++ lo : Word16) = crc16 p
    · obtain ⟨p', hp', hp'out, hp'rec⟩ := hvalid (by simp [hval, hsum])
      have hpayload : payload t = some p := by rw [payload, hval]; exact Mem.readBytes_writeBytes _ _ _
      obtain rfl : p = p' := Option.some.inj (hpayload.symm.trans hp')
      exact ⟨hp'out.trans (if_neg (not_not.mpr hsum)).symm, fun hd => (hp'rec hd).1⟩
    · have hne := hmismatch (by simp [hval, hsum])
      exact ⟨hne.trans (if_pos hsum).symm, fun hd => absurd (hne.symm.trans hd) (by simp)⟩
  refine ⟨t, ht, hout, ?_, ?_, hresult, hrest, hnow, hlog hb, hseq⟩
  · rw [← hout, Bool.eq_iff_iff, hflag, decide_eq_true_iff]
  · rw [← hout]
    split
    case isTrue hd => exact hdecoded hd
    case isFalse hd => exact hrecord hd

/-! ### The host's read (R171) -/

theorem be32Bytes_length (k : Nat) : (be32Bytes k).length = 4 := rfl

theorem FieldOp.width_le_four (op : FieldOp) : op.width ≤ 4 := by cases op <;> simp [width]

/-- Settles O60. The value drawn for an UNWRITTEN register is that of as many bytes as its field has. -/
theorem hostReadsRecord : Obligations.HostReadsRecord := by
  unfold Obligations.HostReadsRecord
  intro s i k
  refine ⟨fun v hv => by rw [hostReadT, hv], fun hv => ?_⟩
  refine ⟨(be32Bytes (Config.freeTelemetry k i).toNat).drop (4 - (gvOp i).width), ?_, by rw [hostReadT, hv]⟩
  have := FieldOp.width_le_four (gvOp i)
  rw [List.length_drop, be32Bytes_length]
  omega

end Sys2Proof.Machine
end
